-- ==== Sys2Proof/Word.lean ====
section
/-! DEFINITION. The word types of the BS decoder core: bytes of memory, 16-bit RL words and bitstream windows,
32-bit registers and table entries (00_scope.md rule R8). -/

namespace Sys2Proof

/-- `u8`: one byte of system memory (R8, R61). -/
abbrev Byte := BitVec 8

/-- `u16`: an RL word, or the 16-bit window the Huffman decoder peeks (R8, R33, R95). -/
abbrev Half := BitVec 16

/-- `u32`: a host register, host write data, or a Huffman table entry (R8, R21, R98). -/
abbrev Word := BitVec 32

end Sys2Proof
end

