-- ==== Sys2Proof/Config/Idct.lean ====
section
/-! DEFINITION. The reference inverse DCT over the reals (44_idct.md rules R231 to R233), the property `IdctClose`
that a transform must have (R234), and the type `Idct` of the transforms that have it.
The real-valued functions of this file only state what a transform is held to; the machine never runs them. -/

namespace Sys2Proof.Config

/-- `IDCT_TOL`, default 1 (00_scope.md R6). -/
def idctTol : Nat := 1

/-- `ROUND_TIES` (R6, R233): how the reference resolves an exact tie `m + 1/2`. -/
inductive RoundTies where
  | away | even | up
  deriving DecidableEq, Repr, Inhabited

/-- `C(u)` of R231: `1/sqrt 2` for the DC basis function, 1 for the others. -/
noncomputable def dcTerm (u : Fin 8) : ℝ := if u = 0 then 1 / Real.sqrt 2 else 1

/-- `IDCT1` of R231, the one-dimensional transform of both passes. -/
noncomputable def idct1 (x : Fin 8 → ℝ) (n : Fin 8) : ℝ :=
  1 / 2 * ∑ u : Fin 8, dcTerm u * x u * Real.cos ((2 * n.val + 1) * u.val * Real.pi / 16)

/-- The natural index `8 * row + col` of a 64-entry table (R34, 92_eei_decisions.md D20). -/
def natIndex (row col : Fin 8) : Fin 64 := ⟨8 * row.val + col.val, by omega⟩

/-- Row and column of a natural index. -/
def rowOf (i : Fin 64) : Fin 8 := ⟨i.val / 8, by omega⟩

def colOf (i : Fin 64) : Fin 8 := ⟨i.val % 8, by omega⟩

/-- `R[y][x]` of R232 at natural index `8 y + x`: the row pass, then the column pass, with no rounding between. -/
noncomputable def idctReal (fb : Fin 64 → Int) (i : Fin 64) : ℝ :=
  idct1 (fun v => idct1 (fun u => (fb (natIndex v u) : ℝ)) (colOf i)) (rowOf i)

/-- `RND` of R233: to the nearest integer, an exact tie as `ROUND_TIES` says. -/
noncomputable def roundReal (t : RoundTies) (r : ℝ) : Int :=
  if Int.fract r = 1 / 2 then
    match t with
    | .up => ⌊r⌋ + 1
    | .away => if 0 ≤ r then ⌊r⌋ + 1 else ⌊r⌋
    | .even => if ⌊r⌋ % 2 = 0 then ⌊r⌋ else ⌊r⌋ + 1
  else if Int.fract r < 1 / 2 then ⌊r⌋ else ⌊r⌋ + 1

/-- `REF_IDCT` of R233. -/
noncomputable def refIdct (t : RoundTies) (fb : Fin 64 → Int) (i : Fin 64) : Int := roundReal t (idctReal fb i)

/-- `IdctClose` of R234: every output is within `IDCT_TOL` (strictly) of the exact real sample. -/
def IdctClose (f : (Fin 64 → Int) → Fin 64 → Int) : Prop :=
  ∀ fb i, |(f fb i : ℝ) - idctReal fb i| < idctTol

/-- A transform together with the one property the model assumes of it (R234). -/
structure Idct where
  run : (Fin 64 → Int) → Fin 64 → Int
  close : IdctClose run

end Sys2Proof.Config
end

