-- ==== Sys2Proof/Config/IdctWitness.lean ====
section
/-! DEFINITION. A computable transform that has the property of 44_idct.md rule R234, with the proof.
It shows that the type `Idct` is inhabited, which is what lets Config.lean leave the hardware's transform open (a
constant with no body) and still know R234 of it. The machine never runs this transform. -/

namespace Sys2Proof.Config

/-! ### A computable transform with the property -/

/-- Square root of `x / n` at scale `n`, rounded down. -/
def scaledSqrt (n x : Nat) : Nat := Nat.sqrt (n * x)

/-- `2 cos(k pi / 16)` at scale `n` for `k` in 0..8, by the half-angle formula. -/
def twoCosLow (n : Nat) : Nat → Nat
  | 0 => 2 * n
  | 1 => scaledSqrt n (2 * n + scaledSqrt n (2 * n + scaledSqrt n (2 * n)))
  | 2 => scaledSqrt n (2 * n + scaledSqrt n (2 * n))
  | 3 => scaledSqrt n (2 * n + scaledSqrt n (2 * n - scaledSqrt n (2 * n)))
  | 4 => scaledSqrt n (2 * n)
  | 5 => scaledSqrt n (2 * n - scaledSqrt n (2 * n - scaledSqrt n (2 * n)))
  | 6 => scaledSqrt n (2 * n - scaledSqrt n (2 * n))
  | 7 => scaledSqrt n (2 * n - scaledSqrt n (2 * n + scaledSqrt n (2 * n)))
  | _ => 0

/-- `2 cos(m pi / 16)` at scale `n` for every `m`, by the cosine's symmetries. -/
def twoCos (n m : Nat) : Int :=
  let r := m % 32
  let r := if 16 < r then 32 - r else r
  if r ≤ 8 then (twoCosLow n r : Int) else -(twoCosLow n (16 - r) : Int)

/-- `4 *` the basis value of R231, as the angle index `m` of a `2 cos(m pi / 16)`. -/
def basisAngle (u n : Fin 8) : Nat := if u = 0 then 4 else (2 * n.val + 1) * u.val

/-- The sum of the magnitudes of the coefficients. -/
def mass (fb : Fin 64 → Int) : Nat := ∑ v : Fin 8, ∑ u : Fin 8, (fb (natIndex v u)).natAbs

/-- Scale at which the approximation is good enough for the given coefficients. -/
def scaleFor (fb : Fin 64 → Int) : Nat := 1000 * (mass fb + 1)

/-- `16 n^2` times the transform, with every cosine at scale `n`. -/
def scaledSum (n : Nat) (fb : Fin 64 → Int) (i : Fin 64) : Int :=
  ∑ v : Fin 8, ∑ u : Fin 8,
    fb (natIndex v u) * (twoCos n (basisAngle u (colOf i)) * twoCos n (basisAngle v (rowOf i)))

/-- A fixed-point transform: exact sums of cosines at a scale chosen from the input, rounded at the end. -/
def approxRun (fb : Fin 64 → Int) (i : Fin 64) : Int :=
  (scaledSum (scaleFor fb) fb i + 8 * (scaleFor fb : Int) ^ 2) / (16 * (scaleFor fb : Int) ^ 2)

theorem scaledSqrt_error {n x : Nat} {y e : ℝ} (hn : 0 < n) (hy : 1 / 4 ≤ Real.sqrt y) 
    (hx : |(x : ℝ) - n * y| ≤ e) : |(scaledSqrt n x : ℝ) - n * Real.sqrt y| ≤ 1 + 4 * e := by
  have hn' : (0 : ℝ) < n := by exact_mod_cast hn
  have hy0 : 0 ≤ y := by
    by_contra h
    rw [Real.sqrt_eq_zero_of_nonpos (by linarith)] at hy; norm_num at hy
  set r := Real.sqrt ((n : ℝ) * x) with hr
  have h1 : (scaledSqrt n x : ℝ) ≤ r := by
    rw [hr]; apply Real.le_sqrt_of_sq_le
    have := Nat.sqrt_le' (n * x)
    unfold scaledSqrt; exact_mod_cast this
  have h2 : r ≤ (scaledSqrt n x : ℝ) + 1 := by
    rw [hr]; apply Real.sqrt_le_iff.2
    refine ⟨by positivity, ?_⟩
    have := (Nat.lt_succ_sqrt' (n * x)).le
    unfold scaledSqrt; exact_mod_cast this
  have hr0 : 0 ≤ r := Real.sqrt_nonneg _
  have hs : r ^ 2 = n * x := Real.sq_sqrt (by positivity)
  have hq : Real.sqrt y ^ 2 = y := Real.sq_sqrt hy0
  have key : |r - n * Real.sqrt y| ≤ 4 * e := by
    have hprod : (r - n * Real.sqrt y) * (r + n * Real.sqrt y) = n * ((x : ℝ) - n * y) := by
      have : (r - n * Real.sqrt y) * (r + n * Real.sqrt y) = r ^ 2 - n ^ 2 * Real.sqrt y ^ 2 := by ring
      rw [this, hs, hq]; ring
    have habs : |r - n * Real.sqrt y| * (r + n * Real.sqrt y) = n * |(x : ℝ) - n * y| := by
      have hp : 0 ≤ r + n * Real.sqrt y := by positivity
      calc |r - n * Real.sqrt y| * (r + n * Real.sqrt y)
          = |(r - n * Real.sqrt y) * (r + n * Real.sqrt y)| := by rw [abs_mul, abs_of_nonneg hp]
        _ = n * |(x : ℝ) - n * y| := by rw [hprod, abs_mul, abs_of_pos hn']
    have hlow : n * (1 / 4 : ℝ) ≤ r + n * Real.sqrt y := by nlinarith
    have ha := abs_nonneg (r - n * Real.sqrt y)
    have h3 : |r - n * Real.sqrt y| * (n * (1 / 4 : ℝ)) ≤ n * e := by
      calc _ ≤ |r - n * Real.sqrt y| * (r + n * Real.sqrt y) := by gcongr
        _ = n * |(x : ℝ) - n * y| := habs
        _ ≤ n * e := by gcongr
    have h4 : n * (|r - n * Real.sqrt y| * (1 / 4)) ≤ n * e := by linarith
    have h5 := le_of_mul_le_mul_left h4 hn'
    linarith
  rw [abs_le] at key ⊢
  constructor <;> linarith [key.1, key.2]

/-- The half-angle formula for `2 cos`. -/
theorem twoCos_half {t : ℝ} (h : 0 ≤ Real.cos t) : 2 * Real.cos t = Real.sqrt (2 + 2 * Real.cos (2 * t)) := by
  rw [Real.cos_two_mul, show 2 + 2 * (2 * Real.cos t ^ 2 - 1) = (2 * Real.cos t) ^ 2 by ring,
    Real.sqrt_sq (by linarith)]

noncomputable def realTwoCos (m : Nat) : ℝ := 2 * Real.cos (m * Real.pi / 16)

theorem realTwoCos_pos_bound {k : Nat} (hk : k ≤ 7) : 1 / 4 ≤ realTwoCos k := by
  have hpi := Real.pi_pos
  have h1 : Real.cos (7 * Real.pi / 16) ≤ Real.cos (k * Real.pi / 16) := by
    apply Real.cos_le_cos_of_nonneg_of_le_pi
    · positivity
    · linarith
    · have : (k : ℝ) ≤ 7 := by exact_mod_cast hk
      nlinarith
  have h2 : Real.cos (7 * Real.pi / 16) = Real.sin (Real.pi / 16) := by
    rw [← Real.cos_pi_div_two_sub]; congr 1; ring
  have h3 : Real.pi / 16 - (Real.pi / 16) ^ 3 / 6 < Real.sin (Real.pi / 16) := by
    exact Real.sin_gt_sub_cube (by positivity)
  have h4 := Real.pi_gt_three
  have h5 := Real.pi_le_four
  unfold realTwoCos
  nlinarith [sq_nonneg (Real.pi - 3), mul_pos hpi hpi]

theorem realTwoCos_step {k d : Nat} (hk : k ≤ 7) (hd : 2 * k = d) :
    realTwoCos k = Real.sqrt (2 + realTwoCos d) := by
  have h := realTwoCos_pos_bound hk
  unfold realTwoCos at *
  rw [twoCos_half (by linarith)]
  congr 4
  subst hd; push_cast; ring

theorem realTwoCos_reflect {k : Nat} (hk : k ≤ 16) : realTwoCos (16 - k) = -realTwoCos k := by
  unfold realTwoCos
  rw [Nat.cast_sub hk, show ((16 : ℕ) - k : ℝ) * Real.pi / 16 = Real.pi - k * Real.pi / 16 by push_cast; ring,
    Real.cos_pi_sub]; ring

theorem realTwoCos_eight : realTwoCos 8 = 0 := by
  unfold realTwoCos
  rw [show ((8 : ℕ) : ℝ) * Real.pi / 16 = Real.pi / 2 by push_cast; ring, Real.cos_pi_div_two]; ring

theorem scaledSqrt_twoCos {n x k d : Nat} {e : ℝ} (hn : 0 < n) (hk : k ≤ 7) (hd : 2 * k = d)
    (hx : |(x : ℝ) - n * (2 + realTwoCos d)| ≤ e) :
    |(scaledSqrt n x : ℝ) - n * realTwoCos k| ≤ 1 + 4 * e := by
  have h := realTwoCos_step hk hd
  rw [h]
  exact scaledSqrt_error hn (h ▸ realTwoCos_pos_bound hk) hx

theorem realTwoCos_le (m : Nat) : |realTwoCos m| ≤ 2 := by
  unfold realTwoCos
  rw [abs_mul]; have := Real.abs_cos_le_one (m * Real.pi / 16); norm_num; linarith

/-- A scaled square root of at most `2 n` is at most `2 n`, so the subtractions below never cut off. -/
theorem scaledSqrt_le {n x : Nat} (hx : x ≤ 4 * n) : scaledSqrt n x ≤ 2 * n := by
  unfold scaledSqrt
  calc Nat.sqrt (n * x) ≤ Nat.sqrt ((2 * n) ^ 2) := Nat.sqrt_le_sqrt (by nlinarith)
    _ = 2 * n := Nat.sqrt_eq' _

theorem twoCosLow_error {n k : Nat} (hn : 0 < n) (hk : k ≤ 8) :
    |(twoCosLow n k : ℝ) - n * realTwoCos k| ≤ 21 := by
  have b4 := scaledSqrt_le (n := n) (x := 2 * n) (by omega)
  have b2 := scaledSqrt_le (n := n) (x := 2 * n + scaledSqrt n (2 * n)) (by omega)
  have b6 := scaledSqrt_le (n := n) (x := 2 * n - scaledSqrt n (2 * n)) (by omega)
  have e4 : |(scaledSqrt n (2 * n) : ℝ) - n * realTwoCos 4| ≤ 1 := by
    have := scaledSqrt_twoCos (x := 2 * n) (e := 0) (k := 4) (d := 8) hn (by norm_num) (by norm_num)
      (by rw [realTwoCos_eight]; push_cast; rw [abs_le]; constructor <;> linarith)
    simpa using this
  have r12 : realTwoCos 12 = -realTwoCos 4 := realTwoCos_reflect (k := 4) (by norm_num)
  have r14 : realTwoCos 14 = -realTwoCos 2 := realTwoCos_reflect (k := 2) (by norm_num)
  have r10 : realTwoCos 10 = -realTwoCos 6 := realTwoCos_reflect (k := 6) (by norm_num)
  have e2 : |(scaledSqrt n (2 * n + scaledSqrt n (2 * n)) : ℝ) - n * realTwoCos 2| ≤ 5 := by
    have := scaledSqrt_twoCos (x := 2 * n + scaledSqrt n (2 * n)) (e := 1) (k := 2) (d := 4) hn
      (by norm_num) (by norm_num) (by push_cast; rw [abs_le] at *; constructor <;> linarith)
    linarith
  have e6 : |(scaledSqrt n (2 * n - scaledSqrt n (2 * n)) : ℝ) - n * realTwoCos 6| ≤ 5 := by
    have := scaledSqrt_twoCos (x := 2 * n - scaledSqrt n (2 * n)) (e := 1) (k := 6) (d := 12) hn
      (by norm_num) (by norm_num)
      (by rw [r12]; push_cast [Nat.cast_sub b4]; rw [abs_le] at *; constructor <;> linarith)
    linarith
  have e1 : |(twoCosLow n 1 : ℝ) - n * realTwoCos 1| ≤ 21 := by
    have := scaledSqrt_twoCos (x := 2 * n + scaledSqrt n (2 * n + scaledSqrt n (2 * n))) (e := 5) (k := 1) (d := 2) hn
      (by norm_num) (by norm_num) (by push_cast; rw [abs_le] at *; constructor <;> linarith)
    exact this.trans (by norm_num)
  have e7 : |(twoCosLow n 7 : ℝ) - n * realTwoCos 7| ≤ 21 := by
    have := scaledSqrt_twoCos (x := 2 * n - scaledSqrt n (2 * n + scaledSqrt n (2 * n))) (e := 5) (k := 7) (d := 14) hn
      (by norm_num) (by norm_num)
      (by rw [r14]; push_cast [Nat.cast_sub b2]; rw [abs_le] at *; constructor <;> linarith)
    exact this.trans (by norm_num)
  have e3 : |(twoCosLow n 3 : ℝ) - n * realTwoCos 3| ≤ 21 := by
    have := scaledSqrt_twoCos (x := 2 * n + scaledSqrt n (2 * n - scaledSqrt n (2 * n))) (e := 5) (k := 3) (d := 6) hn
      (by norm_num) (by norm_num) (by push_cast; rw [abs_le] at *; constructor <;> linarith)
    exact this.trans (by norm_num)
  have e5 : |(twoCosLow n 5 : ℝ) - n * realTwoCos 5| ≤ 21 := by
    have := scaledSqrt_twoCos (x := 2 * n - scaledSqrt n (2 * n - scaledSqrt n (2 * n))) (e := 5) (k := 5) (d := 10) hn
      (by norm_num) (by norm_num)
      (by rw [r10]; push_cast [Nat.cast_sub b6]; rw [abs_le] at *; constructor <;> linarith)
    exact this.trans (by norm_num)
  have e0 : |(twoCosLow n 0 : ℝ) - n * realTwoCos 0| ≤ 21 := by
    simp [twoCosLow, realTwoCos]; rw [mul_comm, sub_self, abs_zero]; norm_num
  have e8 : |(twoCosLow n 8 : ℝ) - n * realTwoCos 8| ≤ 21 := by
    simp [twoCosLow, realTwoCos_eight]
  interval_cases k
  · exact e0
  · exact e1
  · exact e2.trans (by norm_num)
  · exact e3
  · exact e4.trans (by norm_num)
  · exact e5
  · exact e6.trans (by norm_num)
  · exact e7
  · exact e8

theorem realTwoCos_mod (m : Nat) : realTwoCos (m % 32) = realTwoCos m := by
  unfold realTwoCos
  have h : (m : ℝ) * Real.pi / 16 = (m % 32 : ℕ) * Real.pi / 16 + (m / 32 : ℕ) * (2 * Real.pi) := by
    have : (m : ℝ) = (m % 32 : ℕ) + 32 * (m / 32 : ℕ) := by exact_mod_cast (Nat.mod_add_div m 32).symm
    rw [this]; ring
  rw [h, Real.cos_add_nat_mul_two_pi]

theorem realTwoCos_fold {r : Nat} (hr : r ≤ 32) : realTwoCos (32 - r) = realTwoCos r := by
  unfold realTwoCos
  rw [Nat.cast_sub hr, show ((32 : ℕ) - r : ℝ) * Real.pi / 16 = 2 * Real.pi - r * Real.pi / 16 by push_cast; ring,
    Real.cos_two_pi_sub]

theorem twoCos_error {n : Nat} (hn : 0 < n) (m : Nat) : |(twoCos n m : ℝ) - n * realTwoCos m| ≤ 21 := by
  have hm : m % 32 < 32 := Nat.mod_lt _ (by norm_num)
  have hfold : realTwoCos (if 16 < m % 32 then 32 - m % 32 else m % 32) = realTwoCos m := by
    split
    · rw [realTwoCos_fold (by omega), realTwoCos_mod]
    · exact realTwoCos_mod m
  unfold twoCos
  simp only
  set r := if 16 < m % 32 then 32 - m % 32 else m % 32 with hr
  have hr16 : r ≤ 16 := by rw [hr]; split <;> omega
  rw [← hfold]
  split
  · exact_mod_cast twoCosLow_error hn (by assumption)
  · have h1 := twoCosLow_error (k := 16 - r) hn (by omega)
    rw [realTwoCos_reflect hr16] at h1
    push_cast
    rw [abs_le] at *
    constructor <;> linarith [h1.1, h1.2]

/-- Four times the basis value of R231. -/
theorem basis_eq (u n : Fin 8) :
    1 / 2 * (dcTerm u * Real.cos ((2 * n.val + 1) * u.val * Real.pi / 16)) = realTwoCos (basisAngle u n) / 4 := by
  unfold basisAngle dcTerm realTwoCos
  split
  · rename_i h
    subst h
    have : ((4 : ℕ) : ℝ) * Real.pi / 16 = Real.pi / 4 := by push_cast; ring
    rw [this, Real.cos_pi_div_four]
    have h2 : Real.sqrt 2 * Real.sqrt 2 = 2 := Real.mul_self_sqrt (by norm_num)
    have h3 : Real.sqrt 2 ≠ 0 := by positivity
    simp
    field_simp
    nlinarith
  · push_cast; ring

theorem idctReal_eq (fb : Fin 64 → Int) (i : Fin 64) :
    16 * idctReal fb i = ∑ v : Fin 8, ∑ u : Fin 8,
      (fb (natIndex v u) : ℝ) * (realTwoCos (basisAngle u (colOf i)) * realTwoCos (basisAngle v (rowOf i))) := by
  unfold idctReal idct1
  rw [Finset.mul_sum, Finset.mul_sum]
  refine Finset.sum_congr rfl fun v _ => ?_
  beta_reduce
  rw [Finset.mul_sum, Finset.mul_sum, Finset.sum_mul, Finset.mul_sum, Finset.mul_sum]
  refine Finset.sum_congr rfl fun u _ => ?_
  have h1 := basis_eq u (colOf i)
  have h2 := basis_eq v (rowOf i)
  have : (16 : ℝ) * (1 / 2 * (dcTerm v * (1 / 2 * (dcTerm u * (fb (natIndex v u) : ℝ) *
      Real.cos ((2 * (colOf i).val + 1) * u.val * Real.pi / 16))) *
      Real.cos ((2 * (rowOf i).val + 1) * v.val * Real.pi / 16))) =
      16 * (fb (natIndex v u) : ℝ) * ((1 / 2 * (dcTerm u * Real.cos ((2 * (colOf i).val + 1) * u.val * Real.pi / 16))) *
       (1 / 2 * (dcTerm v * Real.cos ((2 * (rowOf i).val + 1) * v.val * Real.pi / 16)))) := by ring
  rw [this, h1, h2]; ring

theorem product_error {n : ℝ} {a b x y : ℝ} (hn : 1000 ≤ n) (ha : |a - n * x| ≤ 21) (hb : |b - n * y| ≤ 21)
    (hx : |x| ≤ 2) (hy : |y| ≤ 2) : |a * b - n ^ 2 * (x * y)| ≤ 85 * n := by
  have e : a * b - n ^ 2 * (x * y) = (a - n * x) * (b - n * y) + (a - n * x) * (n * y) + n * x * (b - n * y) := by ring
  rw [e]
  have t1 : |(a - n * x) * (b - n * y)| ≤ 21 * 21 := by
    rw [abs_mul]; gcongr
  have t2 : |(a - n * x) * (n * y)| ≤ 21 * (n * 2) := by
    rw [abs_mul, abs_mul, abs_of_nonneg (by linarith : (0:ℝ) ≤ n)]; gcongr
  have t3 : |n * x * (b - n * y)| ≤ n * 2 * 21 := by
    rw [abs_mul, abs_mul, abs_of_nonneg (by linarith : (0:ℝ) ≤ n)]; gcongr
  calc _ ≤ |(a - n * x) * (b - n * y)| + |(a - n * x) * (n * y)| + |n * x * (b - n * y)| := abs_add_three _ _ _
    _ ≤ 85 * n := by linarith

theorem scaledSum_error (fb : Fin 64 → Int) (i : Fin 64) {n : Nat} (hn : 1000 ≤ n) :
    |(scaledSum n fb i : ℝ) - (n : ℝ) ^ 2 * (16 * idctReal fb i)| ≤ (mass fb : ℝ) * (85 * (n : ℝ)) := by
  rw [idctReal_eq]
  unfold scaledSum mass
  rw [Finset.mul_sum]
  push_cast
  rw [← Finset.sum_sub_distrib, Finset.sum_mul]
  refine (Finset.abs_sum_le_sum_abs _ _).trans (Finset.sum_le_sum fun v _ => ?_)
  rw [Finset.mul_sum, ← Finset.sum_sub_distrib, Finset.sum_mul]
  refine (Finset.abs_sum_le_sum_abs _ _).trans (Finset.sum_le_sum fun u _ => ?_)
  have h := product_error (n := n) (by exact_mod_cast hn) (twoCos_error (by omega) (basisAngle u (colOf i)))
    (twoCos_error (by omega) (basisAngle v (rowOf i))) (realTwoCos_le _) (realTwoCos_le _)
  have e : (fb (natIndex v u) : ℝ) * ((twoCos n (basisAngle u (colOf i)) : ℝ) * twoCos n (basisAngle v (rowOf i))) -
      (n : ℝ) ^ 2 * ((fb (natIndex v u) : ℝ) * (realTwoCos (basisAngle u (colOf i)) * realTwoCos (basisAngle v (rowOf i)))) =
      (fb (natIndex v u) : ℝ) * ((twoCos n (basisAngle u (colOf i)) : ℝ) * twoCos n (basisAngle v (rowOf i)) -
        (n : ℝ) ^ 2 * (realTwoCos (basisAngle u (colOf i)) * realTwoCos (basisAngle v (rowOf i)))) := by ring
  rw [e, abs_mul]
  have hc : |(fb (natIndex v u) : ℝ)| = ((fb (natIndex v u)).natAbs : ℝ) := by
    rw [Nat.cast_natAbs]; push_cast; rfl
  rw [hc]
  gcongr

/-- Rounding a close enough numerator to the nearest integer stays within the tolerance. -/
theorem round_close {n S M q : Int} {r : ℝ} (hM : 0 ≤ M) (hn : n = 1000 * (M + 1))
    (herr : |(S : ℝ) - (n : ℝ) ^ 2 * (16 * r)| ≤ (M : ℝ) * (85 * n))
    (hq : q = (S + 8 * n ^ 2) / (16 * n ^ 2)) : |(q : ℝ) - r| < 1 := by
  have hD : 0 < 16 * n ^ 2 := by have : 0 < n := by omega
                                 positivity
  have hlo : q * (16 * n ^ 2) ≤ S + 8 * n ^ 2 := by rw [hq]; exact Int.ediv_mul_le _ hD.ne'
  have hhi : S + 8 * n ^ 2 < (q + 1) * (16 * n ^ 2) := by rw [hq]; exact Int.lt_ediv_add_one_mul_self _ hD
  have hlo' : (q : ℝ) * (16 * (n : ℝ) ^ 2) ≤ S + 8 * (n : ℝ) ^ 2 := by exact_mod_cast hlo
  have hhi' : (S : ℝ) + 8 * (n : ℝ) ^ 2 < ((q : ℝ) + 1) * (16 * (n : ℝ) ^ 2) := by exact_mod_cast hhi
  have hnR : (n : ℝ) = 1000 * ((M : ℝ) + 1) := by rw [hn]; push_cast; ring
  have hM0 : (0 : ℝ) ≤ M := by exact_mod_cast hM
  have hn0 : (0 : ℝ) < n := by rw [hnR]; positivity
  have hsmall : (M : ℝ) * (85 * n) < 8 * (n : ℝ) ^ 2 := by
    have : (M : ℝ) * 85 < 8 * n := by rw [hnR]; linarith
    calc (M : ℝ) * (85 * n) = M * 85 * n := by ring
      _ < 8 * n * n := by gcongr
      _ = 8 * (n : ℝ) ^ 2 := by ring
  have hn2 : (0 : ℝ) < 16 * (n : ℝ) ^ 2 := by positivity
  rw [abs_le] at herr
  have e1 : ((q : ℝ) - r) * (16 * (n : ℝ) ^ 2) < 1 * (16 * (n : ℝ) ^ 2) := by linarith [herr.1, herr.2]
  have e2 : (-1 : ℝ) * (16 * (n : ℝ) ^ 2) < ((q : ℝ) - r) * (16 * (n : ℝ) ^ 2) := by linarith [herr.1, herr.2]
  rw [abs_lt]
  exact ⟨lt_of_mul_lt_mul_right e2 hn2.le, lt_of_mul_lt_mul_right e1 hn2.le⟩

theorem approxRun_close : IdctClose approxRun := by
  intro fb i
  have herr := scaledSum_error fb i (n := scaleFor fb) (by unfold scaleFor; omega)
  have h := round_close (n := (scaleFor fb : Int)) (S := scaledSum (scaleFor fb) fb i) (M := (mass fb : Int))
    (q := approxRun fb i) (r := idctReal fb i) (by positivity) (by unfold scaleFor; push_cast; ring)
    (by simpa using herr) rfl
  simpa [idctTol] using h

/-- A computable member of `Idct`: the type is inhabited. -/
def approxIdct : Idct := ⟨approxRun, approxRun_close⟩

end Sys2Proof.Config
end

