-- ==== Sys2Proof/Machine/Buffers.lean ====
section
/-! DEFINITION. The internal buffers of the engine, as plain data: the BitReader, the RL word stream, the block
decoder's registers, the spatial blocks, the pixel tile and the staging buffer (10_state.md rules R31 to R37), and
the results the internal operations return. -/

namespace Sys2Proof.Machine

/-- The three architectural errors of 60_exceptions.md R330. -/
inductive CodecError where
  | malformedStream | invalidDimensions | truncatedStream
  deriving DecidableEq, Repr, Inhabited

/-- `BR = (start, pos, nwords)` (R32). -/
structure BitReader where
  start  : Nat
  pos    : Nat
  nwords : Nat
  deriving DecidableEq, Repr, Inhabited

/-- `RL[0..]`, its capacity `cap` and the write index `o` (R33, R31).
`words` holds the words written so far; `RL[i]` is its element `i`. -/
structure RlStream where
  words : List Half
  cap   : Nat
  o     : Nat
  deriving DecidableEq, Repr, Inhabited

/-- The class of a table entry (30_encoding.md R99). -/
inductive EntryClass where
  | eob | esc | ac
  deriving DecidableEq, Repr, Inhabited

/-- The outcome of a table lookup (41_huffman.md R155). -/
inductive Hit where
  | found | clampedToLast
  deriving DecidableEq, Repr, Inhabited

/-- What HUFF_DECODE_NEXT returns: `(run, lvl, n, cls, hit)` (R150). That it is held at all is DESIGN CHOICE, safe
(notes/assumptions/30.md). -/
structure HuffResult where
  run      : BitVec 6
  lvl      : BitVec 10
  consumed : BitVec 16
  cls      : EntryClass
  hit      : Hit
  deriving DecidableEq, Repr, Inhabited

/-- The block decoder's registers: `FB[0..63]` (R34), the block's `qs` and zigzag position `k` (R204), the RL read
cursor `c` (R31), and whether the cursor stands inside a block, which is what tells a header word from an AC word
(R106): that position as a field of its own is DESIGN CHOICE, safe (notes/assumptions/4.md, 28.md), and so is that
`qs` and `k`, which are local to R204's pass, are held from one row to the next (notes/assumptions/35.md). -/
structure Block where
  fb     : Vector Int 64
  qs     : BitVec 6
  k      : Nat
  c      : Nat
  inside : Bool
  deriving DecidableEq, Repr, Inhabited

/-- One BGR24 pixel (R36, R66). -/
structure Pixel where
  b : Byte
  g : Byte
  r : Byte
  deriving DecidableEq, Repr, Inhabited

/-- One row of a 16-pixel-wide buffer. -/
abbrev PixelRow := Vector Pixel 16

/-- `PX[0..15][0..15]` (R36). -/
abbrev Tile := Vector PixelRow 16

/-- The engine's internal state (R31 to R37), and five things of the model's own (DESIGN CHOICE,
notes/assumptions/4.md): `huff`, what the last table lookup returned (notes/assumptions/30.md); `res`, the number the
last BitReader operation returned; `inBlock`, the depacker's position in the grammar of R93 (notes/assumptions/31.md);
`raised`, the error the last DEPACK or DECODE run as a single operation ended with (notes/assumptions/18.md); and
`draws`, the counter that the free values (`draw(S)` of 00_scope.md R10) are read at (notes/assumptions/6.md). -/
structure Engine where
  br      : BitReader
  rl      : RlStream
  /-- The depacker stands inside a block: the next bitstream element is a Huffman code, not a header (R93). -/
  inBlock : Bool
  huff    : HuffResult
  blk     : Block
  /-- `SB[0..5][0..63]` (R35). -/
  sb      : Vector (Vector Int 64) 6
  px      : Tile
  /-- `ST[0 .. PH-1]` (R37), the rows written so far. -/
  st      : List PixelRow
  res     : Nat
  raised  : Option CodecError
  draws   : Nat
  deriving DecidableEq, Repr, Inhabited

end Sys2Proof.Machine
end

