-- ==== Sys2Proof/Config.lean ====
section
/-! DEFINITION. The implementation parameters of 00_scope.md rule R6 and the fixed constants of R7.
A parameter with a default has the default; an OPEN parameter is a constant with no body, so that nothing can be
proved of its value. The constant tables (R38) and straps are the record `Rom`, which State holds; `Config.rom` is
the one that the machine has at reset. The free values (`draw(S)` of R10) stand at the end. -/

namespace Sys2Proof.Config

/-! ### Fixed constants (R7, R91) -/

/-- `MAGIC` (30_encoding.md R91). -/
def magic : Half := 0x3800

/-- The RL EOB word (R7, R105). -/
def eob : Half := 0xFE00

/-- The chunk header's length and the bitstream start offset (R7, R90). -/
def headerBytes : Nat := 8

/-- The floor of the RL capacity (R7, R173). -/
def capFloor : Nat := 16

/-- `ADDR_BITS` (R6, R60). -/
def addrBits : Nat := 32

/-- One past the last system-memory address (R61). -/
def addrLimit : Nat := 2 ^ addrBits

/-- `CAPACITY_FN` (R6, R173), default `2 * length`: PRESUMED, unsafe (notes/assumptions/8.md), as the
spec marks it general knowledge. -/
def capacityFn (length : Nat) : Nat := 2 * length

/-- `RL_MAX_WORDS` under the default capacity function (R6, R33). -/
def rlMaxWords : Nat := 131070

/-! ### Parameters held as plain data -/

/-- A Huffman table: it has at least one entry (R6, R155), so it is a first entry and the others. -/
structure Table where
  first : Word
  rest  : List Word
  deriving DecidableEq, Repr, Inhabited

def Table.entries (t : Table) : List Word := t.first :: t.rest

/-- `QSCALE_PACK` (R6, R178). -/
inductive QScalePack where
  | magnitude | twos
  deriving DecidableEq, Repr, Inhabited

/-- `KOVF_RESYNC` (R6, R211). -/
inductive KovfResync where
  | none | skipToEob
  deriving DecidableEq, Repr, Inhabited

/-- One range of addresses that the platform backs with ordinary memory (R61). -/
structure MemRange where
  base : Nat
  size : Nat
  deriving DecidableEq, Repr, Inhabited

/-- The constant tables of 10_state.md R38 and the other constants of R6 that are plain data.
All of it is fixed for the life of the core (R6, R74, R375). `lcSel` is indexed by `lz - 2`. -/
structure Rom where
  fast         : Table
  lc           : Vector Table 7
  lcSel        : Vector (Fin 7) 9
  lcNbits      : Vector (Fin 17) 7
  lcMask       : Vector Half 7
  zigzag       : Vector (Fin 64) 64
  baseQuant    : Vector Nat 64
  aanF         : Vector Nat 8
  hdrSignFirst : Bool
  qscalePack   : QScalePack
  kovfResync   : KovfResync
  chromaSwap   : Bool
  maxWidth     : Nat
  maxHeight    : Nat
  regBase      : Nat
  memMap       : List MemRange
  deriving DecidableEq, Repr, Inhabited

/-- What R6, R201 ask of the constants: `ZIGZAG` a permutation that fixes 0, the dimension limits at least 16.
(The tables' non-emptiness and the ranges of `LC_SEL`, `LC_NBITS`, `LC_MASK` are in the types.) -/
def Rom.wf (r : Rom) : Bool :=
  r.zigzag[0] == 0 && (List.finRange 64).all (fun i => r.zigzag.toList.contains i)
    && decide (16 ≤ r.maxWidth) && decide (16 ≤ r.maxHeight)

/-! ### OPEN parameters: no body (R6, 92_eei_decisions.md D16, D19, D25, D29, D2, D4) -/

opaque fast : Table
opaque lc : Fin 7 → Table
opaque lcSel : Fin 9 → Fin 7
opaque lcNbits : Fin 7 → Fin 17
opaque lcMask : Fin 7 → Half
opaque baseQuant : Fin 64 → Nat
opaque widthAbove16 : Nat
opaque heightAbove16 : Nat
opaque regBase : Nat
opaque memMap : List MemRange
opaque roundTies : RoundTies

/-! ### Parameters with a default (R6) -/

/-- The default of R201, the JPEG/MPEG zigzag scan: PRESUMED, unsafe (notes/assumptions/8.md). -/
def zigzag : Vector (Fin 64) 64 := #v[
   0,  1,  8, 16,  9,  2,  3, 10, 17, 24, 32, 25, 18, 11,  4,  5,
  12, 19, 26, 33, 40, 48, 41, 34, 27, 20, 13,  6,  7, 14, 21, 28,
  35, 42, 49, 56, 57, 50, 43, 36, 29, 22, 15, 23, 30, 37, 44, 51,
  58, 59, 52, 45, 38, 31, 39, 46, 53, 60, 61, 54, 47, 55, 62, 63]

/-- The default of R200: PRESUMED, unsafe (notes/assumptions/8.md). -/
def aanF : Vector Nat 8 := #v[16384, 22725, 21407, 19266, 16384, 12873, 8867, 4520]

/-- The constants the machine has at reset (R371, R375; notes/assumptions/8.md, 9.md). -/
def rom : Rom where
  fast         := fast
  lc           := Vector.ofFn lc
  lcSel        := Vector.ofFn lcSel
  lcNbits      := Vector.ofFn lcNbits
  lcMask       := Vector.ofFn lcMask
  zigzag       := zigzag
  baseQuant    := Vector.ofFn baseQuant
  aanF         := aanF
  hdrSignFirst := false
  qscalePack   := .magnitude
  kovfResync   := .none
  chromaSwap   := false
  maxWidth     := 16 + widthAbove16
  maxHeight    := 16 + heightAbove16
  regBase      := regBase
  memMap       := memMap

/-- Some transform with the property of R234, given that there is one; no body. -/
opaque idctOf : [Inhabited Idct] → Idct

/-- The hardware's transform (44_idct.md R230, R234): nothing is known of it but `IdctClose` (notes/assumptions/7.md). -/
def idct : Idct := @idctOf ⟨approxIdct⟩

/-! ### Free values (notes/assumptions/6.md): no body, safe -/

/-- `draw(u8)` at a count of the draw counter (R10, R78, R213, R373). -/
opaque freeByte : Nat → Byte

/-- `draw(s32)` at a count of the draw counter, as a 32-bit pattern read in two's complement (R213). -/
opaque freeWord : Nat → Word

/-- An `AAN_SCALE` entry whose exact computation leaves s32 (R213): one value for each index, since the table is
constant (R203). -/
opaque freeAan : Fin 64 → Word

/-- An `IQ` entry whose exact computation leaves s32 (R213), before the floor of 1. -/
opaque freeIq : Fin 64 → Word

/-- The internal buffers between decodes and after a reset: unspecified (R41, R370, R371, 93 U12). -/
opaque freeEngine : Nat → Machine.Engine

end Sys2Proof.Config
end

