-- ==== Sys2Proof/Machine/Operands.lean ====
section
/-! DEFINITION. The operand forms: the bit fields of table entries, RL words, block headers and register values, sign
extension, byte order and the s32 range (00_scope.md R8, R9; 30_encoding.md R94 to R104; 20_memory.md R64). -/

namespace Sys2Proof.Machine

/-! ### Byte order -/

/-- Byte `k` of a value, byte 0 the lowest (R64). -/
def byteOf {w : Nat} (v : BitVec w) (k : Nat) : Byte := BitVec.ofNat 8 (v.toNat / 256 ^ k)

/-- The value of bytes stored low byte first (R64). -/
def ofBytesLE : List Byte → Nat
  | [] => 0
  | b :: t => b.toNat + 256 * ofBytesLE t

/-- `U16LE` of two bytes (R64). -/
def u16le (lo hi : Byte) : Nat := ofBytesLE [lo, hi]

/-! ### Signed values -/

/-- `s32` range test of 43_dequant_block.md R213. -/
def inS32 (v : Int) : Bool := decide (-2 ^ 31 ≤ v) && decide (v < 2 ^ 31)

/-- Arithmetic shift right: the floor of `v / 2^n` (R9). -/
def asr (v : Int) (n : Nat) : Int := v / 2 ^ n

/-- `sext_10` (R9). -/
def sext10 (v : BitVec 10) : Int := v.toInt

/-- `clamp(v, lo, hi)` (R9). -/
def clamp (v lo hi : Int) : Int := min (max v lo) hi

/-! ### RL words (R102 to R105, R110) -/

/-- `{hi6, lo10}`, the packing of every RL word. -/
def rlWord (hi : BitVec 6) (lo : BitVec 10) : Half := hi ++ lo

/-- Bits 15:10: the qscale of a header word, the run of an AC word. -/
def rlHigh (w : Half) : BitVec 6 := w.extractLsb' 10 6

/-- Bits 9:0: the DC of a header word, the level of an AC word. -/
def rlLow (w : Half) : BitVec 10 := w.extractLsb' 0 10

/-! ### Table entries (R98, R99) -/

def entryConsumed (e : Word) : BitVec 16 := e.extractLsb' 16 16

/-- `e[15:0]`, the entry as an RL word (R182). -/
def entryWord (e : Word) : Half := e.extractLsb' 0 16

def entryRun (e : Word) : BitVec 6 := e.extractLsb' 10 6

def entryLevel (e : Word) : BitVec 10 := e.extractLsb' 0 10

/-- R99, tested in its order. -/
def entryClass (e : Word) : EntryClass :=
  if entryWord e = Config.eob then .eob
  else if entryLevel e = 0x200 then .esc
  else .ac

/-! ### The 16-bit window (R95 to R97) -/

/-- Zero bits of `w` from bit `n - 1` down to the first 1 bit. -/
def leadingZeros (w : Half) : Nat → Nat
  | 0 => 0
  | n + 1 => if w.getLsbD n then 0 else leadingZeros w n + 1

/-- `clz16` (R95, R153). -/
def clz16 (w : Half) : Nat := leadingZeros w 16

/-- The top bits of a window: `w` without its low `n` bits. -/
def windowTop (w : Half) (n : Nat) : Nat := w.toNat / 2 ^ n

/-- `(w[15:12] - 4) * 2` (R96). -/
def fastIndex (w : Half) : Nat := (windowTop w 12 - 4) * 2

/-- R97: the `nbits` bits after the first `lz` bits of the window, masked. -/
def lengthIndex (w : Half) (lz nbits : Nat) (mask : Half) : Nat :=
  (((w <<< lz) >>> (16 - nbits)) &&& mask).toNat

/-! ### Block headers (R94, R177, R178) -/

/-- The four fields of a block header. -/
structure HdrFields where
  qmag   : BitVec 10
  qsign  : Bool
  dcmag  : BitVec 10
  dcsign : Bool
  deriving DecidableEq, Repr

/-- R94: the fields of the 22 bits, the stream's first bit in bit 21, in both settings of `HDR_SIGN_FIRST`. -/
def hdrFields (signFirst : Bool) (h : BitVec 22) : HdrFields :=
  if signFirst then
    { qsign := h.getLsbD 21, qmag := h.extractLsb' 11 10, dcsign := h.getLsbD 10, dcmag := h.extractLsb' 0 10 }
  else
    { qmag := h.extractLsb' 12 10, qsign := h.getLsbD 11, dcmag := h.extractLsb' 1 10, dcsign := h.getLsbD 0 }

/-- Magnitude and sign bit to a signed value; a sign bit of 1 is negative (R94). -/
def signed (mag : BitVec 10) (sign : Bool) : Int := if sign then -(mag.toNat : Int) else mag.toNat

/-- R178: the packed header word under both settings of `QSCALE_PACK`. -/
def packHeader (p : Config.QScalePack) (f : HdrFields) : Half :=
  let qp : BitVec 6 := match p with
    | .magnitude => BitVec.ofNat 6 f.qmag.toNat
    | .twos => BitVec.ofInt 6 (signed f.qmag f.qsign)
  rlWord qp (BitVec.ofInt 10 (signed f.dcmag f.dcsign))

end Sys2Proof.Machine
end

