-- ==== Sys2Proof/Syntax.lean ====
section
/-! DEFINITION. The instructions: one constructor for each row of spec/opcode_table.json (30_encoding.md R112).
The core has no program (00_scope.md R3): its instructions are the host's register accesses, the engine's operations,
the elements of the bitstream, the classes of table entries and the kinds of RL words. -/

namespace Sys2Proof

/-- One constructor for each row of the opcode table. -/
inductive Instr where
  /-- RD_REG: host read of the register at offset `off` (47_host_interface.md R300). -/
  | rdReg (off : Byte)
  /-- WR_CTRL: host write of `d` to CTRL with `d[1:0] = 00` (R302). -/
  | wrCtrl (d : Word)
  /-- CTRL_START: host write of `d` to CTRL with `d[1:0] = 01` (R303). -/
  | ctrlStart (d : Word)
  /-- CTRL_SOFT_RESET: host write of `d` to CTRL with `d[1] = 1` (R304). -/
  | ctrlSoftReset (d : Word)
  /-- WR_STATUS_W1C: host write of `d` to STATUS (R306). -/
  | wrStatusW1c (d : Word)
  /-- WR_SRC_ADDR (R307). -/
  | wrSrcAddr (d : Word)
  /-- WR_SRC_LEN (R307). -/
  | wrSrcLen (d : Word)
  /-- WR_WIDTH (R307). -/
  | wrWidth (d : Word)
  /-- WR_HEIGHT (R307). -/
  | wrHeight (d : Word)
  /-- WR_DST_ADDR (R307). -/
  | wrDstAddr (d : Word)
  /-- WR_RESERVED: host write of `d` to a reserved offset (10_state.md R29). -/
  | wrReserved (off : Byte) (d : Word)
  /-- COMPLETE: the engine's step (R308). -/
  | complete
  /-- BR_NEW: create a reader at chunk byte offset `start` (40_bitreader.md R131). -/
  | brNew (start : Nat)
  /-- BR_READ_BIT (R132). -/
  | brReadBit
  /-- BR_READ_BITS (R133). -/
  | brReadBits (n : Nat)
  /-- BR_PEEK_BITS (R134). -/
  | brPeekBits (n : Nat)
  /-- BR_SKIP_BITS (R135). -/
  | brSkipBits (n : Nat)
  /-- BR_HAS_MORE (R136). -/
  | brHasMore
  /-- BLK_HDR: the 22 bits of a block header, the first bit of the stream in bit 21 (30_encoding.md R94;
  DESIGN CHOICE, notes/assumptions/25.md). -/
  | blkHdr (bits : BitVec 22)
  /-- VLC_FAST_01: a window whose top two bits are 01 (R95, R96, 41_huffman.md R152). -/
  | vlcFast01 (w : Half)
  /-- VLC_FAST_1: a window whose top bit is 1 (R95, R96, R152). -/
  | vlcFast1 (w : Half)
  /-- VLC_LC_LZ2: a window with exactly 2 leading zeros (R95, R97, R154). -/
  | vlcLcLz2 (w : Half)
  /-- VLC_LC_LZ3 (R154). -/
  | vlcLcLz3 (w : Half)
  /-- VLC_LC_LZ4 (R154). -/
  | vlcLcLz4 (w : Half)
  /-- VLC_LC_LZ5 (R154). -/
  | vlcLcLz5 (w : Half)
  /-- VLC_LC_LZ6 (R154). -/
  | vlcLcLz6 (w : Half)
  /-- VLC_LC_LZ7 (R154). -/
  | vlcLcLz7 (w : Half)
  /-- VLC_LC_LZ8 (R154). -/
  | vlcLcLz8 (w : Half)
  /-- VLC_LC_LZ9 (R154). -/
  | vlcLcLz9 (w : Half)
  /-- VLC_LC_LZ10: a window with 10 or more leading zeros (R153, R154). -/
  | vlcLcLz10 (w : Half)
  /-- ESC_RAW: the 16 bits after an escape code (R100, 42_vlc_depacker.md R181). -/
  | escRaw (run : BitVec 6) (lvl : BitVec 10)
  /-- ENT_EOB: a table entry of class EOB (R99, R180). -/
  | entEob (e : Word)
  /-- ENT_ESC: a table entry of class ESC (R99, R181). -/
  | entEsc (e : Word)
  /-- ENT_AC: a table entry of class AC (R99, R182). -/
  | entAc (e : Word)
  /-- RL_CNT: RL word 0, the count (R102, R174). -/
  | rlCnt
  /-- RL_MAGIC: RL word 1, the magic (R102, R174). -/
  | rlMagic
  /-- RL_HDR: an RL word in header position (R103, 43_dequant_block.md R206). -/
  | rlHdr (qs : BitVec 6) (dc : BitVec 10)
  /-- RL_EOB: 0xFE00 in AC position (R105, R208). -/
  | rlEob
  /-- RL_AC: any other word in AC position (R104, R209, R210). -/
  | rlAc (run : BitVec 6) (lvl : BitVec 10)
  /-- DEPACK (R170). -/
  | depack
  /-- HUFF_DECODE_NEXT (R150). -/
  | huffDecodeNext
  /-- DECODE_BLOCK (R204). -/
  | decodeBlock
  /-- IDCT8X8 into the spatial block at position `b` of the macroblock (44_idct.md R230). -/
  | idct8x8 (b : Fin 6)
  /-- RENDER_MB (45_macroblock_color.md R250). -/
  | renderMb
  /-- DECODE (46_frame_compositor.md R270). -/
  | decode
  deriving DecidableEq, Repr

/-- Why the decoder reads no instruction from a record. -/
inductive DecodeError where
  /-- The record ends before its last byte. -/
  | truncatedRecord
  /-- Bytes are left after the instruction's last byte. -/
  | trailingBytes
  /-- The first byte names no layer of encoding. -/
  | unknownLayer
  /-- The second byte names no engine operation. -/
  | unknownOperation
  /-- The second byte names no RL word position. -/
  | unknownPosition
  /-- A host access that is not 32 bits wide, or not at a multiple of 4 (47_host_interface.md R301). -/
  | accessNotAdmitted
  /-- A host access past the register window's 0x40 bytes (R21, R60). -/
  | outsideWindow
  /-- `read_bits(n)` or `peek_bits(n)` with `n > 16` (40_bitreader.md R138). -/
  | readTooWide
  /-- A block header record with a bit above its 22 bits. -/
  | headerTooWide
  /-- An IDCT8X8 record whose block position is not 0..5 (R35). -/
  | noSuchBlock
  deriving DecidableEq, Repr

end Sys2Proof
end

