-- ==== Sys2Proof/WellFormed.lean ====
section
/-! DEFINITION. Which instructions are well formed: the operands that the encodings of spec/opcode_table.json admit
(the fixed bits of each row's match and mask, 30_encoding.md R95, R99, R105, R108; 47_host_interface.md R301;
40_bitreader.md R138). -/

namespace Sys2Proof

open Machine

/-- An admitted register offset: a multiple of 4 inside the window (R21, R301). -/
def registerOffset (off : Byte) : Bool := decide (off.toNat % 4 = 0) && decide (off.toNat < 0x40)

/-- A reserved register offset, 0x1C to 0x3C (R29). -/
def reservedOffset (off : Byte) : Bool := registerOffset off && decide (0x1C ≤ off.toNat)

/-- The check of every instruction's operands. -/
def Instr.wf : Instr → Bool
  | .rdReg off => registerOffset off
  | .wrCtrl d => decide (d.toNat % 4 = 0)
  | .ctrlStart d => decide (d.toNat % 4 = 1)
  | .ctrlSoftReset d => decide (d.toNat / 2 % 2 = 1)
  | .wrStatusW1c _ => true
  | .wrSrcAddr _ => true
  | .wrSrcLen _ => true
  | .wrWidth _ => true
  | .wrHeight _ => true
  | .wrDstAddr _ => true
  | .wrReserved off _ => reservedOffset off
  | .complete => true
  | .brNew start => decide (start < 2 ^ 32)
  | .brReadBit => true
  | .brReadBits n => decide (n ≤ 16)
  | .brPeekBits n => decide (n ≤ 16)
  | .brSkipBits n => decide (n < 2 ^ 32)
  | .brHasMore => true
  | .blkHdr _ => true
  | .vlcFast01 w => decide (windowTop w 14 = 1)
  | .vlcFast1 w => decide (windowTop w 15 = 1)
  | .vlcLcLz2 w => decide (windowTop w 13 = 1)
  | .vlcLcLz3 w => decide (windowTop w 12 = 1)
  | .vlcLcLz4 w => decide (windowTop w 11 = 1)
  | .vlcLcLz5 w => decide (windowTop w 10 = 1)
  | .vlcLcLz6 w => decide (windowTop w 9 = 1)
  | .vlcLcLz7 w => decide (windowTop w 8 = 1)
  | .vlcLcLz8 w => decide (windowTop w 7 = 1)
  | .vlcLcLz9 w => decide (windowTop w 6 = 1)
  | .vlcLcLz10 w => decide (windowTop w 6 = 0)
  | .escRaw _ _ => true
  | .entEob e => decide (entryClass e = .eob)
  | .entEsc e => decide (entryClass e = .esc)
  | .entAc e => decide (entryClass e = .ac)
  | .rlCnt => true
  | .rlMagic => true
  | .rlHdr _ _ => true
  | .rlEob => true
  | .rlAc run lvl => decide (rlWord run lvl ≠ Config.eob)
  | .depack => true
  | .huffDecodeNext => true
  | .decodeBlock => true
  | .idct8x8 _ => true
  | .renderMb => true
  | .decode => true

end Sys2Proof
end

