-- ==== Sys2Proof/Decode.lean ====
section
/-! DEFINITION. The decoder, total on any bytes, and the encoder.
The spec encodes five layers (30_encoding.md: host command words, bitstream elements, 16-bit windows, table entries,
RL words) and leaves the engine's operations without an encoding; which layer a word belongs to is not in its bits
(R106, R112).
A RECORD is one instruction with its layer named: a layer byte, then what that layer needs to tell its rows apart (a
register offset, an operation number, an RL position), then the word, low byte first: DESIGN CHOICE, safe
(notes/assumptions/1.md).
Inside a layer the word's bits decide, exactly by the match and mask of spec/opcode_table.json. -/

namespace Sys2Proof

open Machine

/-- What the decoder answers: an instruction and the bytes after it, or a rejection by name. -/
inductive DecodeResult where
  | ok (i : Instr) (rest : List Byte)
  | reject (e : DecodeError)
  deriving DecidableEq, Repr

/-! ### The layers -/

def layerHostRead : Byte := 0x00
def layerHostWrite : Byte := 0x01
def layerEngine : Byte := 0x02
def layerHeader : Byte := 0x03
def layerRaw : Byte := 0x04
def layerWindow : Byte := 0x05
def layerEntry : Byte := 0x06
def layerRl : Byte := 0x07

/-- The width of the only admitted host access, in bytes (R301). -/
def accessWidth : Byte := 0x04

/-! ### Host accesses (R301, R108) -/

/-- The rejection of a host access that R301 does not admit, or that lies outside the window. -/
def accessError (width off : Byte) : Option DecodeError :=
  if width ≠ accessWidth ∨ off.toNat % 4 ≠ 0 then some .accessNotAdmitted
  else if 0x40 ≤ off.toNat then some .outsideWindow
  else none

/-- A write to CTRL by its bits (R108, R302 to R304). -/
def ctrlInstr (d : Word) : Instr :=
  if d.toNat / 2 % 2 = 1 then .ctrlSoftReset d
  else if d.toNat % 2 = 1 then .ctrlStart d
  else .wrCtrl d

/-- A write by its offset (R108, R29). -/
def writeInstr (off : Byte) (d : Word) : Instr :=
  if off = 0x00 then ctrlInstr d
  else if off = 0x04 then .wrStatusW1c d
  else if off = 0x08 then .wrSrcAddr d
  else if off = 0x0C then .wrSrcLen d
  else if off = 0x10 then .wrWidth d
  else if off = 0x14 then .wrHeight d
  else if off = 0x18 then .wrDstAddr d
  else .wrReserved off d

def decodeHostRead : List Byte → DecodeResult
  | width :: off :: rest =>
    match accessError width off with
    | some e => .reject e
    | none => .ok (.rdReg off) rest
  | _ => .reject .truncatedRecord

def decodeHostWrite : List Byte → DecodeResult
  | width :: off :: b0 :: b1 :: b2 :: b3 :: rest =>
    match accessError width off with
    | some e => .reject e
    | none => .ok (writeInstr off (BitVec.ofNat 32 (ofBytesLE [b0, b1, b2, b3]))) rest
  | _ => .reject .truncatedRecord

/-! ### Engine operations -/

/-- The engine operations with a 32-bit operand. -/
def operandInstr (op : Byte) (n : Nat) : Option DecodeResult :=
  if op = 0x01 then some (.ok (.brNew n) [])
  else if op = 0x03 then some (if n ≤ 16 then .ok (.brReadBits n) [] else .reject .readTooWide)
  else if op = 0x04 then some (if n ≤ 16 then .ok (.brPeekBits n) [] else .reject .readTooWide)
  else if op = 0x05 then some (.ok (.brSkipBits n) [])
  else if op = 0x0A then some (if h : n < 6 then .ok (.idct8x8 ⟨n, h⟩) [] else .reject .noSuchBlock)
  else none

/-- The engine operations without an operand. -/
def plainInstr (op : Byte) : Option Instr :=
  if op = 0x00 then some .complete
  else if op = 0x02 then some .brReadBit
  else if op = 0x06 then some .brHasMore
  else if op = 0x07 then some .depack
  else if op = 0x08 then some .huffDecodeNext
  else if op = 0x09 then some .decodeBlock
  else if op = 0x0B then some .renderMb
  else if op = 0x0C then some .decode
  else none

/-- Puts the bytes after the instruction into a result. -/
def DecodeResult.withRest (rest : List Byte) : DecodeResult → DecodeResult
  | .ok i _ => .ok i rest
  | .reject e => .reject e

def decodeEngine : List Byte → DecodeResult
  | op :: rest =>
    match plainInstr op with
    | some i => .ok i rest
    | none =>
      match operandInstr op 0 with
      | none => .reject .unknownOperation
      | some _ =>
        match rest with
        | b0 :: b1 :: b2 :: b3 :: rest' =>
          match operandInstr op (ofBytesLE [b0, b1, b2, b3]) with
          | some r => r.withRest rest'
          | none => .reject .unknownOperation
        | _ => .reject .truncatedRecord
  | [] => .reject .truncatedRecord

/-! ### Bitstream elements (R94, R100) -/

def decodeHeader : List Byte → DecodeResult
  | b0 :: b1 :: b2 :: rest =>
    if ofBytesLE [b0, b1, b2] < 2 ^ 22 then .ok (.blkHdr (BitVec.ofNat 22 (ofBytesLE [b0, b1, b2]))) rest
    else .reject .headerTooWide
  | _ => .reject .truncatedRecord

def decodeRaw : List Byte → DecodeResult
  | b0 :: b1 :: rest =>
    let w : Half := BitVec.ofNat 16 (ofBytesLE [b0, b1])
    .ok (.escRaw (rlHigh w) (rlLow w)) rest
  | _ => .reject .truncatedRecord

/-! ### Windows, table entries, RL words (R95, R99, R106) -/

/-- The row of a 16-bit window: every window has one (R95). -/
def windowInstr (w : Half) : Instr :=
  if windowTop w 15 = 1 then .vlcFast1 w
  else if windowTop w 14 = 1 then .vlcFast01 w
  else if windowTop w 13 = 1 then .vlcLcLz2 w
  else if windowTop w 12 = 1 then .vlcLcLz3 w
  else if windowTop w 11 = 1 then .vlcLcLz4 w
  else if windowTop w 10 = 1 then .vlcLcLz5 w
  else if windowTop w 9 = 1 then .vlcLcLz6 w
  else if windowTop w 8 = 1 then .vlcLcLz7 w
  else if windowTop w 7 = 1 then .vlcLcLz8 w
  else if windowTop w 6 = 1 then .vlcLcLz9 w
  else .vlcLcLz10 w

/-- The row of a table entry (R99). -/
def entryInstr (e : Word) : Instr :=
  match entryClass e with
  | .eob => .entEob e
  | .esc => .entEsc e
  | .ac => .entAc e

/-- The row of an RL word in AC position (R104, R105). -/
def acInstr (w : Half) : Instr := if w = Config.eob then .rlEob else .rlAc (rlHigh w) (rlLow w)

/-- The row of an RL word by its position (R106): 0 count, 1 magic, 2 header, 3 AC position. -/
def rlInstr (position : Byte) (w : Half) : Option Instr :=
  if position = 0x00 then some .rlCnt
  else if position = 0x01 then some .rlMagic
  else if position = 0x02 then some (.rlHdr (rlHigh w) (rlLow w))
  else if position = 0x03 then some (acInstr w)
  else none

def decodeWindow : List Byte → DecodeResult
  | b0 :: b1 :: rest => .ok (windowInstr (BitVec.ofNat 16 (ofBytesLE [b0, b1]))) rest
  | _ => .reject .truncatedRecord

def decodeEntry : List Byte → DecodeResult
  | b0 :: b1 :: b2 :: b3 :: rest => .ok (entryInstr (BitVec.ofNat 32 (ofBytesLE [b0, b1, b2, b3]))) rest
  | _ => .reject .truncatedRecord

def decodeRl : List Byte → DecodeResult
  | position :: b0 :: b1 :: rest =>
    match rlInstr position (BitVec.ofNat 16 (ofBytesLE [b0, b1])) with
    | some i => .ok i rest
    | none => .reject .unknownPosition
  | _ => .reject .truncatedRecord

/-! ### The decoder -/

/-- One record. -/
def decode : List Byte → DecodeResult
  | [] => .reject .truncatedRecord
  | layer :: rest =>
    if layer = layerHostRead then decodeHostRead rest
    else if layer = layerHostWrite then decodeHostWrite rest
    else if layer = layerEngine then decodeEngine rest
    else if layer = layerHeader then decodeHeader rest
    else if layer = layerRaw then decodeRaw rest
    else if layer = layerWindow then decodeWindow rest
    else if layer = layerEntry then decodeEntry rest
    else if layer = layerRl then decodeRl rest
    else .reject .unknownLayer

/-! ### The encoder -/

/-- The low `k` bytes of a number, low byte first. -/
def bytesLE (n : Nat) : Nat → List Byte
  | 0 => []
  | k + 1 => BitVec.ofNat 8 n :: bytesLE (n / 256) k

def hostWriteRecord (width off : Byte) (d : Word) : List Byte := layerHostWrite :: width :: off :: bytesLE d.toNat 4

def engineRecord (op : Byte) : List Byte := [layerEngine, op]

def engineOperandRecord (op : Byte) (n : Nat) : List Byte := layerEngine :: op :: bytesLE n 4

def windowRecord (w : Half) : List Byte := layerWindow :: bytesLE w.toNat 2

def entryRecord (e : Word) : List Byte := layerEntry :: bytesLE e.toNat 4

def rlRecord (position : Byte) (w : Half) : List Byte := layerRl :: position :: bytesLE w.toNat 2

/-- The record of an instruction. -/
def encode : Instr → List Byte
  | .rdReg off => [layerHostRead, accessWidth, off]
  | .wrCtrl d => hostWriteRecord accessWidth 0x00 d
  | .ctrlStart d => hostWriteRecord accessWidth 0x00 d
  | .ctrlSoftReset d => hostWriteRecord accessWidth 0x00 d
  | .wrStatusW1c d => hostWriteRecord accessWidth 0x04 d
  | .wrSrcAddr d => hostWriteRecord accessWidth 0x08 d
  | .wrSrcLen d => hostWriteRecord accessWidth 0x0C d
  | .wrWidth d => hostWriteRecord accessWidth 0x10 d
  | .wrHeight d => hostWriteRecord accessWidth 0x14 d
  | .wrDstAddr d => hostWriteRecord accessWidth 0x18 d
  | .wrReserved off d => hostWriteRecord accessWidth off d
  | .complete => engineRecord 0x00
  | .brNew start => engineOperandRecord 0x01 start
  | .brReadBit => engineRecord 0x02
  | .brReadBits n => engineOperandRecord 0x03 n
  | .brPeekBits n => engineOperandRecord 0x04 n
  | .brSkipBits n => engineOperandRecord 0x05 n
  | .brHasMore => engineRecord 0x06
  | .blkHdr bits => layerHeader :: bytesLE bits.toNat 3
  | .vlcFast01 w => windowRecord w
  | .vlcFast1 w => windowRecord w
  | .vlcLcLz2 w => windowRecord w
  | .vlcLcLz3 w => windowRecord w
  | .vlcLcLz4 w => windowRecord w
  | .vlcLcLz5 w => windowRecord w
  | .vlcLcLz6 w => windowRecord w
  | .vlcLcLz7 w => windowRecord w
  | .vlcLcLz8 w => windowRecord w
  | .vlcLcLz9 w => windowRecord w
  | .vlcLcLz10 w => windowRecord w
  | .escRaw run lvl => layerRaw :: bytesLE (rlWord run lvl).toNat 2
  | .entEob e => entryRecord e
  | .entEsc e => entryRecord e
  | .entAc e => entryRecord e
  | .rlCnt => rlRecord 0x00 0x0000
  | .rlMagic => rlRecord 0x01 Config.magic
  | .rlHdr qs dc => rlRecord 0x02 (rlWord qs dc)
  | .rlEob => rlRecord 0x03 Config.eob
  | .rlAc run lvl => rlRecord 0x03 (rlWord run lvl)
  | .depack => engineRecord 0x07
  | .huffDecodeNext => engineRecord 0x08
  | .decodeBlock => engineRecord 0x09
  | .idct8x8 b => engineOperandRecord 0x0A b.val
  | .renderMb => engineRecord 0x0B
  | .decode => engineRecord 0x0C

/-! ### A bare word of the opcode table -/

/-- The record of a bare word, which does not name its layer; DESIGN CHOICE, safe (notes/assumptions/2.md): 8 bits or
fewer are write data for CTRL; 16 bits are a window, but 0xFE00 is the RL EOB word; 24 bits are a block header; 32 bits
are a table entry where the low bits match ENT_EOB or ENT_ESC, and write data for CTRL otherwise. -/
def tableRecord (nbits w : Nat) : List Byte :=
  if nbits ≤ 8 then hostWriteRecord accessWidth 0x00 (BitVec.ofNat 32 w)
  else if nbits ≤ 16 then
    if w = 0xFE00 then rlRecord 0x03 (BitVec.ofNat 16 w) else windowRecord (BitVec.ofNat 16 w)
  else if nbits ≤ 24 then layerHeader :: bytesLE w 3
  else if nbits ≤ 32 then
    if w % 2 ^ 16 = 0xFE00 ∨ w % 2 ^ 10 = 0x200 then entryRecord (BitVec.ofNat 32 w)
    else hostWriteRecord accessWidth 0x00 (BitVec.ofNat 32 w)
  else []

/-- The instruction the decoder reads from a bare word of the opcode table. -/
def decodeTableWord (nbits w : Nat) : Option Instr :=
  match decode (tableRecord nbits w) with
  | .ok i [] => some i
  | _ => none

end Sys2Proof
end

