-- ==== Sys2Proof/Machine/State.lean ====
section
/-! DEFINITION. The state of the core as plain data (10_state.md), what the outside world can present to it, the
reasons a step can stop, and the state after reset (70_reset_and_hazards.md R371). -/

namespace Sys2Proof.Machine

/-- Why the engine has no step. The spec calls these `stuck` (00_scope.md R10, 20_memory.md R69). -/
inductive Fault where
  /-- Raised by COMPLETE, DECODE, DEPACK and every operation that reads the bitstream: a needed byte of the chunk
  range is not admitted by the platform, or lies past 2^32 (R61, R69). Safe: the spec gives the engine no step. -/
  | chunkNotAdmitted
  /-- Raised by COMPLETE and DECODE: a byte of the pixel range is not admitted, or lies past 2^32 (R62, R69).
  Safe: the spec gives the engine no step. -/
  | pixelsNotAdmitted
  /-- Raised by a host memory access at an address of 2^32 or more, which system memory does not have (R60).
  Safe: there is no such access. -/
  | noSuchAddress
  deriving DecidableEq, Repr

/-- Why a step has no meaning. The spec calls these `refused` (00_scope.md R10, R11). -/
inductive Refusal where
  /-- Raised by an arm of `exec` whose instruction has no meaning yet. Safe. -/
  | notModelled (mnemonic : String)
  /-- Raised by `step`: the record decodes to no instruction; a host access that R301 does not admit is one of these.
  Safe: the spec refuses the access, and a record of no layer is no instruction. -/
  | badRecord (e : DecodeError)
  /-- Raised by RD_REG and WR_RESERVED at an offset that is no register offset (47_host_interface.md R301). Safe. -/
  | accessNotAdmitted
  /-- Raised by BR_READ_BITS and BR_PEEK_BITS with `n > 16` (40_bitreader.md R138). Safe. -/
  | readTooWide
  /-- Raised by COMPLETE and DECODE: `W > MAX_WIDTH` or `H > MAX_HEIGHT` (46_frame_compositor.md R281). Safe. -/
  | dimensionsAboveLimit
  /-- Raised by a host memory access at an address that the platform does not back with ordinary memory: what is
  there is not the core's (R61, R67). Safe. -/
  | notOrdinaryMemory
  deriving DecidableEq, Repr

/-- System memory as (address, byte) pairs, addresses strictly rising, no byte equal to `Memory.unlisted`. -/
abbrev Memory := List Host.Cell

/-- What an address with no entry reads as: DESIGN CHOICE (notes/assumptions/5.md). -/
def Memory.unlisted : Byte := 0x00

/-- What the host has yet to see of the decode that completed last (20_memory.md R71 (3); notes/assumptions/12.md). -/
inductive Unseen where
  /-- Nothing: it has read DONE = 1 for it, or there was none. -/
  | nothing
  /-- Its end, which was a success: the decode wrote its pixel range. -/
  | written
  /-- Its end, which was an error: the decode wrote no pixel byte (60_exceptions.md R337). -/
  | failed
  deriving DecidableEq, Repr

/-- The pixel range of an earlier decode whose DONE = 1 the host never read, and whether that decode wrote it, as a decode
that fails does not (R71 (3), 60_exceptions.md R337; notes/assumptions/12.md). -/
structure UnseenRange where
  range : Config.MemRange
  wrote : Bool
  deriving DecidableEq, Repr

/-- One thing the outside world presents to the core. -/
inductive Event where
  /-- One instruction, as a record of the decoder. -/
  | op (record : List Byte)
  /-- A host access to the register window at a platform address (20_memory.md R60, 60_exceptions.md R345). -/
  | busAccess (write : Bool) (width : Nat) (addr : Nat) (data : Word)
  /-- The host reads one byte of system memory (`mem.rd`, 30_encoding.md R111). -/
  | memRead (addr : Nat)
  /-- The host writes one byte of system memory (`mem.wr`, R111). -/
  | memWrite (addr : Nat) (v : Byte)
  /-- Power-on reset (R370), also when power returns (60_exceptions.md R348). -/
  | powerOnReset
  deriving DecidableEq, Repr

/-- The whole state. CTRL and STATUS are held by their fields: every other bit of the two reads 0 (R22, R23). -/
structure State where
  /-- CTRL.IRQ_EN (R22). -/
  irqEn   : Bool
  /-- STATUS.BUSY, DONE, ERR, ERRCODE (R23). -/
  busy    : Bool
  done    : Bool
  err     : Bool
  errCode : BitVec 4
  /-- SRC_ADDR, SRC_LEN, WIDTH, HEIGHT, DST_ADDR (R24 to R28). -/
  srcAddr : Word
  srcLen  : Word
  width   : Word
  height  : Word
  dstAddr : Word
  /-- The latched parameters L_SRC, L_LEN, L_W, L_H, L_DST (R30); between decodes they keep their values: DESIGN
  CHOICE, unsafe (notes/assumptions/29.md). -/
  lSrc    : Word
  lLen    : Word
  lW      : Word
  lH      : Word
  lDst    : Word
  /-- The internal buffers (R31 to R37). -/
  eng     : Engine
  /-- The constant tables and the other constants of R6 (R38). -/
  rom     : Config.Rom
  /-- System memory (R60). -/
  mem     : Memory
  /-- While BUSY: the host has written a byte of the chunk range (20_memory.md R78 (2); notes/assumptions/13.md). -/
  chunkRaced : Bool
  /-- While BUSY: the pixel bytes the host has written, latest first (R78 (3)). -/
  pixRaced   : List Nat
  /-- Whether the host has yet to read DONE = 1 of the decode that completed last, whose pixel bytes are not yet
  guaranteed to it (R71 (3), 70_reset_and_hazards.md R377): DEDUCED, safe (notes/assumptions/12.md). -/
  unseen     : Unseen
  /-- The pixel ranges of earlier decodes whose DONE = 1 the host never read (R71 (3): nothing else is ordered):
  DEDUCED, safe (notes/assumptions/12.md). -/
  unseenOld  : List UnseenRange
  /-- What the host's last read returned (R300, R78 (1)): the model's own, DESIGN CHOICE (notes/assumptions/4.md). -/
  hostData   : Word
  /-- What the outside world presents next, first to come first: the model's own, DESIGN CHOICE
  (notes/assumptions/1.md). -/
  inbox      : List Event
  deriving DecidableEq, Repr

/-- The internal buffers at reset. The spec calls them unspecified (R371); the values are the model's, DESIGN CHOICE
(notes/assumptions/4.md). -/
def Engine.reset : Engine where
  br      := ⟨0, 0, 0⟩
  rl      := ⟨[], 0, 0⟩
  inBlock := false
  huff    := ⟨0, 0, 0, .ac, .found⟩
  blk     := ⟨Vector.replicate 64 0, 0, 0, 0, false⟩
  sb      := Vector.replicate 6 (Vector.replicate 64 0)
  px      := Vector.replicate 16 (Vector.replicate 16 ⟨0, 0, 0⟩)
  st      := []
  res     := 0
  raised  := none
  draws   := 0

/-- The state after power-on reset (R371, R372). -/
def State.reset : State where
  irqEn   := false
  busy    := false
  done    := false
  err     := false
  errCode := 0
  srcAddr := 0
  srcLen  := 0
  width   := 0
  height  := 0
  dstAddr := 0
  lSrc    := 0
  lLen    := 0
  lW      := 0
  lH      := 0
  lDst    := 0
  eng     := Engine.reset
  rom     := Config.rom
  mem     := []
  chunkRaced := false
  pixRaced   := []
  unseen     := .nothing
  unseenOld  := []
  hostData   := 0
  inbox      := []

end Sys2Proof.Machine
end

