-- ==== Sys2Proof/Machine/Flags.lean ====
section
/-! DEFINITION. The STATUS and CTRL words, the interrupt line and the error codes (10_state.md R22, R23, R39, R40;
60_exceptions.md R330, R338). The core has no other flag (R39). -/

namespace Sys2Proof.Machine

/-- A flag as a bit of a register word. -/
def bit (b : Bool) : Word := if b then 1 else 0

/-- CTRL as read: START and SOFT_RESET read 0 (R22, R300). -/
def ctrlWord (s : State) : Word := bit s.irqEn <<< 2

/-- STATUS as read (R23, R300). -/
def statusWord (s : State) : Word :=
  (s.errCode.setWidth 32 <<< 4) ||| (bit s.err <<< 2) ||| (bit s.done <<< 1) ||| bit s.busy

/-- The interrupt line (R40, R338). -/
def State.irq (s : State) : Bool := s.done && s.irqEn

/-- `code(E)` of R330. -/
def errorCode : CodecError → BitVec 4
  | .malformedStream => 1
  | .invalidDimensions => 2
  | .truncatedStream => 3

end Sys2Proof.Machine
end

