-- ==== Sys2Proof/Machine/Ops.lean ====
section
/-! DEFINITION. The named operations over memory and registers that the meanings share: system memory, the chunk and
pixel ranges, the RL array, the free draws, the races of 20_memory.md R78, reset, and the one operation by which a
decode reports its end (the core's whole trap entry, 60_exceptions.md R339) with the host's acknowledgement beside it
(its return, R340). -/

namespace Sys2Proof.Machine

/-! ### System memory (R60 to R62) -/

/-- The byte at an address. -/
def Memory.read : Memory → Nat → Byte
  | [], _ => Memory.unlisted
  | (k, v) :: t, a => if k = a then v else Memory.read t a

/-- The list with the byte at `a` set, in canonical form: `Memory.unlisted` is not listed. -/
def Memory.put (a : Nat) (v : Byte) : Memory → Memory
  | [] => if v = Memory.unlisted then [] else [(a, v)]
  | (k, x) :: t =>
    if a < k then (if v = Memory.unlisted then (k, x) :: t else (a, v) :: (k, x) :: t)
    else if a = k then (if v = Memory.unlisted then t else (a, v) :: t)
    else (k, x) :: Memory.put a v t

/-- A byte write; there is no address of 2^32 or more to write to (R60, R62). -/
def Memory.write (m : Memory) (a : Nat) (v : Byte) : Memory :=
  if a < Config.addrLimit then m.put a v else m

/-- Byte writes, one after another. -/
def Memory.writeAll (m : Memory) (cells : List Host.Cell) : Memory :=
  cells.foldl (fun m c => m.write c.1 c.2) m

/-- The canonical form: rising addresses below 2^32, no listed byte equal to the unlisted value. -/
abbrev Memory.wf (m : Memory) : Prop :=
  m.Pairwise (fun x y => x.1 < y.1) ∧ ∀ x ∈ m, x.1 < Config.addrLimit ∧ x.2 ≠ Memory.unlisted

/-- `MemAdmit` (R61): an address of system memory inside one of the platform's ranges. -/
def admits (rom : Config.Rom) (a : Nat) : Bool :=
  decide (a < Config.addrLimit) && rom.memMap.any (fun r => decide (r.base ≤ a) && decide (a < r.base + r.size))

/-- R69: every address of `[base, base + len)` is admitted; an address past 2^32 is not. -/
def rangeAdmitted (rom : Config.Rom) (base len : Nat) : Bool :=
  (List.range len).all (fun i => admits rom (base + i))

/-! ### The chunk (R63) -/

/-- `CB(i)`; the engine never reads past `L_LEN`, where the BitReader supplies zeros (R63, R130). -/
def State.chunk (s : State) (i : Nat) : Byte :=
  if i < s.lLen.toNat then s.mem.read (s.lSrc.toNat + i) else 0

/-- R69 for the chunk range. -/
def State.chunkAdmitted (s : State) : Bool := rangeAdmitted s.rom s.lSrc.toNat s.lLen.toNat

/-- The address is in `[L_SRC, L_SRC + L_LEN)`. -/
def State.inChunk (s : State) (a : Nat) : Bool :=
  decide (s.lSrc.toNat ≤ a) && decide (a < s.lSrc.toNat + s.lLen.toNat)

/-! ### The pixel range (R66, R69) -/

/-- `3 * L_W * L_H` with both read as s32; there is no pixel range for a dimension that is not positive (R271). -/
def State.pixelBytes (s : State) : Nat :=
  if 0 < s.lW.toInt ∧ 0 < s.lH.toInt then 3 * s.lW.toInt.toNat * s.lH.toInt.toNat else 0

/-- R69 for the pixel range. -/
def State.pixelsAdmitted (s : State) : Bool := rangeAdmitted s.rom s.lDst.toNat s.pixelBytes

/-- The address is in `[L_DST, L_DST + 3 * L_W * L_H)`. -/
def State.inPixels (s : State) (a : Nat) : Bool :=
  decide (s.lDst.toNat ≤ a) && decide (a < s.lDst.toNat + s.pixelBytes)

/-! ### Free draws (R10) -/

/-- The same engine with the draw counter advanced. -/
def Engine.drew (e : Engine) (n : Nat) : Engine := { e with draws := e.draws + n }

/-- A value that must be in s32, or a draw over s32 (R213; notes/assumptions/6.md, 23.md). -/
def s32OrDraw (exact : List Int) (v : Int) (draw : Nat) : Int :=
  if (v :: exact).all inS32 then v else (Config.freeWord draw).toInt

/-- The internal buffers when they become unspecified; the draw counter goes on (R41, R370). -/
def Engine.unspecified (e : Engine) : Engine := { Config.freeEngine e.draws with draws := e.draws + 1 }

/-! ### The RL array (R33, R205) -/

/-- Sets element `i` of a list that grows on demand. -/
def listPut {α : Type} (l : List α) (i : Nat) (x fill : α) : List α :=
  if i < l.length then l.set i x else l ++ List.replicate (i - l.length) fill ++ [x]

/-- `RL[i] <- w`. -/
def RlStream.set (r : RlStream) (i : Nat) (w : Half) : RlStream :=
  { r with words := listPut r.words i w Config.eob }

/-- `RL[o] <- w; o <- o + 1`, while there is capacity (R179: capacity exhaustion stops the stream). -/
def RlStream.emit (r : RlStream) (w : Half) : RlStream :=
  if r.o < r.cap then { r.set r.o w with o := r.o + 1 } else r

/-- `RLREAD(c)` (R205). -/
def RlStream.read (r : RlStream) (c : Nat) : Half :=
  if c < r.cap then (r.words[c]?).getD Config.eob else Config.eob

/-! ### Host registers (R300, R307) -/

/-- The register at an offset, as a host read returns it (R300). -/
def State.readReg (s : State) (off : Byte) : Word :=
  if off = 0x00 then ctrlWord s
  else if off = 0x04 then statusWord s
  else if off = 0x08 then s.srcAddr
  else if off = 0x0C then s.srcLen
  else if off = 0x10 then s.width
  else if off = 0x14 then s.height
  else if off = 0x18 then s.dstAddr
  else 0

/-- The address is in the range. -/
def UnseenRange.covers (u : UnseenRange) (a : Nat) : Bool :=
  decide (u.range.base ≤ a) && decide (a < u.range.base + u.range.size)

/-- The parts of an unseen range that are outside range `q`. -/
def UnseenRange.minus (q : Config.MemRange) (u : UnseenRange) : List UnseenRange :=
  let r := u.range
  let start := max r.base (q.base + q.size)
  ([⟨r.base, min r.size (q.base - r.base)⟩, ⟨start, r.base + r.size - start⟩].filter
    (fun p : Config.MemRange => decide (0 < p.size))).map (fun p => { u with range := p })

/-- A decode the host has not seen the end of is left behind, by a START or a reset: its pixel bytes are never
guaranteed to the host (R71 (3)). -/
def State.leaveUnseen (s : State) : State :=
  { s with
    unseen := .nothing
    unseenOld :=
      if s.unseen = .nothing then s.unseenOld
      else ⟨⟨s.lDst.toNat, s.pixelBytes⟩, s.unseen == .written⟩ :: s.unseenOld }

/-- The byte belongs to an earlier decode whose DONE = 1 the host never read, and no later one that it saw succeed has
written it (R71 (3)). -/
def State.inUnseenOld (s : State) (a : Nat) : Bool := s.unseenOld.any (fun u => u.covers a)

/-- What the host reads of the byte is any value: it belongs to a running decode (R78) or to one whose DONE = 1 the host
has not read (R71 (3), R377). -/
def State.unreliable (s : State) (a : Nat) : Bool :=
  ((s.busy || s.unseen != .nothing) && s.inPixels a) || s.inUnseenOld a

/-- The engine has written the byte and nothing orders that with the host's next write: the decode's DONE = 1 has not
been read (R71 (3)). A decode that failed has written nothing (60_exceptions.md R337), so a host write after it stands,
and the decode of the next START sees it (R71 (2)). -/
def State.unordered (s : State) (a : Nat) : Bool :=
  (s.unseen == .written && s.inPixels a) || s.unseenOld.any (fun u => u.wrote && u.covers a)

/-- An accepted START (R303): the parameters are latched, the report of the last decode is cleared, BUSY is set. -/
def State.startDecode (s : State) : State :=
  { s.leaveUnseen with
    lSrc := s.srcAddr, lLen := s.srcLen, lW := s.width, lH := s.height, lDst := s.dstAddr
    done := false, err := false, errCode := 0, busy := true
    chunkRaced := false, pixRaced := [] }

/-! ### The end of a decode, and its acknowledgement -/

/-- Success (60_exceptions.md R333): ERR and ERRCODE are left. The host has yet to see it (R71). -/
def State.reportSuccess (s : State) : State := { s with busy := false, done := true, unseen := .written }

/-- TAKING AN EXCEPTION (R334, R339): the core saves nothing, changes no mode and goes nowhere; its whole entry is
this update of STATUS, and the interrupt line follows (R40). Memory is as before (R337), but what the host reads of the
pixel range is any value until it has seen DONE = 1, as after a success (R377; DEDUCED, safe,
notes/assumptions/12.md). -/
def State.reportError (s : State) (e : CodecError) : State :=
  { s with busy := false, done := true, err := true, errCode := errorCode e, unseen := .failed }

/-- THE RETURN (R340): the host acknowledges by write-1-to-clear (R306). -/
def State.acknowledge (s : State) (clearDone clearErr : Bool) : State :=
  { s with
    done := s.done && !clearDone
    err := s.err && !clearErr
    errCode := if clearErr then 0 else s.errCode }

/-! ### Races between the host and a running decode (R78) -/

/-- Each address gets a free byte. -/
def scribbleCells (addrs : List Nat) (draws : Nat) : List Host.Cell :=
  addrs.zipIdx.map (fun p => (p.1, Config.freeByte (draws + p.2)))

/-- Every byte of the list becomes a draw. -/
def State.scribble (s : State) (addrs : List Nat) : State :=
  { s with
    mem := s.mem.writeAll (scribbleCells addrs s.eng.draws)
    eng := s.eng.drew addrs.length }

/-- The addresses of the pixel range that are ordinary memory. -/
def State.pixelAddrs (s : State) : List Nat :=
  ((List.range s.pixelBytes).map (s.lDst.toNat + ·)).filter (admits s.rom)

/-- What R78 (2) and (3) make of the pixel range at completion. -/
def State.settleRaces (s : State) : State :=
  let s' := if s.chunkRaced then s.scribble s.pixelAddrs else s.scribble s.pixRaced
  { s' with chunkRaced := false, pixRaced := [] }

/-! ### Reset (R370, R371) -/

/-- Every host register and latch at its reset value, no decode running, the buffers unspecified; the constants and
memory as they are (R370). -/
def State.resetCore (s : State) : State :=
  { s.leaveUnseen with
    irqEn := false, busy := false, done := false, err := false, errCode := 0
    srcAddr := 0, srcLen := 0, width := 0, height := 0, dstAddr := 0
    lSrc := 0, lLen := 0, lW := 0, lH := 0, lDst := 0
    chunkRaced := false, pixRaced := []
    eng := s.eng.unspecified }

/-! ### Outcomes of a pipeline operation (00_scope.md R11) -/

/-- The four outcomes: results, an architectural error, stuck, refused. -/
inductive PipeOut (α : Type) where
  | ok (a : α)
  | raise (e : CodecError)
  | stuck (f : Fault)
  | refuse (r : Refusal)
  deriving DecidableEq, Repr

/-- An internal operation that changes the engine's buffers and nothing else. -/
def State.setEng (s : State) (e : Engine) : State := { s with eng := e }

end Sys2Proof.Machine
end

