-- ==== Sys2Proof/Machine/BlockDecoder.lean ====
section
/-! DEFINITION. The IQ table and the block decoder (43_dequant_block.md): AAN_SCALE and IQ (R200, R202), the effect of
each kind of RL word (R206 to R211), and DECODE_BLOCK, which applies the words it finds at the RL cursor (R204). -/

namespace Sys2Proof.Machine

/-! ### Constant tables -/

/-- `AAN_SCALE[i]` (R200); outside s32 the entry is open (R213). -/
def aanScale (rom : Config.Rom) (i : Fin 64) : Int :=
  let p : Int := rom.aanF[Config.rowOf i] * rom.aanF[Config.colOf i]
  if inS32 p && inS32 (p + 8192) then asr (p + 8192) 14 else (Config.freeAan i).toInt

/-- `IQ[i]` (R202), at least 1 (R203); outside s32 the entry is open but for the floor (R213). -/
def iq (rom : Config.Rom) (i : Fin 64) : Int :=
  let p : Int := rom.baseQuant[i] * aanScale rom i
  max 1 (if inS32 p && inS32 (p + 2048) then asr (p + 2048) 12 else (Config.freeIq i).toInt)

/-! ### RL words -/

/-- A word in header position (R206, R207, R212): the block is cleared, `FB[0]` is the scaled DC, `k` starts at 0. That this
row does the clearing and the start of `k` of R204's pass is DESIGN CHOICE, safe (notes/assumptions/35.md). -/
def Block.header (rom : Config.Rom) (qs : BitVec 6) (dc : BitVec 10) (draw : Nat) (b : Block) : Block where
  fb     := (Vector.replicate 64 (0 : Int)).set 0 (s32OrDraw [] (iq rom 0 * sext10 dc) draw)
  qs     := qs
  k      := 0
  c      := b.c + 1
  inside := true

/-- 0xFE00 in AC position (R208). -/
def Block.eob (b : Block) : Block := { b with c := b.c + 1, inside := false }

/-- The cursor past the next EOB word (R211); reads past `cap` are EOB, so `cap - c` words at most come before it. -/
def skipToEob (rl : RlStream) : Nat → Nat → Nat
  | 0, c => c + 1
  | n + 1, c => if rl.read c = Config.eob then c + 1 else skipToEob rl n (c + 1)

/-- `FB[zz]` of an AC word (R210), with every intermediate held to s32 (R213). -/
def dequant (rom : Config.Rom) (qs : BitVec 6) (lvl : BitVec 10) (zz : Fin 64) (draw : Nat) : Int :=
  let p := iq rom zz * qs.toNat
  let p' := p * sext10 lvl
  s32OrDraw [p, p'] (asr p' 3) draw

/-- Another word in AC position (R209 to R211), with the `qs` and `k` that the rows before it left, and with the words that
R211 discards under SKIP_TO_EOB: DESIGN CHOICE for a row alone, safe (notes/assumptions/35.md). -/
def Block.ac (rom : Config.Rom) (rl : RlStream) (run : BitVec 6) (lvl : BitVec 10) (draw : Nat) (b : Block) : Block :=
  let k := b.k + run.toNat + 1
  if h : k < 64 then
    let zz := rom.zigzag[k]
    { b with k := k, c := b.c + 1, fb := b.fb.set zz (dequant rom b.qs lvl zz draw) }
  else
    { b with
      k := k
      c := match rom.kovfResync with
        | .none => b.c + 1
        | .skipToEob => skipToEob rl (rl.cap - (b.c + 1)) (b.c + 1)
      inside := false }

/-! ### The block decoder -/

/-- The word at the cursor in AC position (R204, R205, R208), with the draw counter after it. -/
def Block.acStep (rom : Config.Rom) (rl : RlStream) (draw : Nat) (b : Block) : Block × Nat :=
  let w := rl.read b.c
  if w = Config.eob then (b.eob, draw) else (b.ac rom rl (rlHigh w) (rlLow w) draw, draw + 1)

/-- AC words until the block ends (R204): `k` rises with every word, so 64 words are enough (R209). -/
def blockLoop (rom : Config.Rom) (rl : RlStream) : Nat → Nat → Block → Block × Nat
  | 0, d, b => (b, d)
  | n + 1, d, b =>
    if b.inside then blockLoop rom rl n (b.acStep rom rl d).2 (b.acStep rom rl d).1 else (b, d)

/-- DECODE_BLOCK from cursor `b.c` (R204): the block and the draw counter after it. R204 gives `c >= 2`; a lower cursor,
which only a row presented alone can meet, reads words 0 and 1 like any others: DESIGN CHOICE, safe
(notes/assumptions/32.md). -/
def blockRun (rom : Config.Rom) (rl : RlStream) (d : Nat) (b : Block) : Block × Nat :=
  let w := rl.read b.c
  blockLoop rom rl 64 (d + 1) (b.header rom (rlHigh w) (rlLow w) d)

/-- DECODE_BLOCK over the engine. -/
def Engine.decodeBlock (rom : Config.Rom) (e : Engine) : Engine :=
  let r := blockRun rom e.rl e.draws e.blk
  { e with blk := r.1, draws := r.2 }

/-! ### The meanings -/

/-- RL_HDR (R206, R207), at any cursor and position, and with its operand as the word, whatever word stands at the cursor:
DESIGN CHOICE, safe (notes/assumptions/28.md, 32.md, 33.md). -/
def execRlHdr (qs : BitVec 6) (dc : BitVec 10) (s : State) : Host.Outcome State Fault Refusal :=
  .next (s.setEng ({ s.eng with blk := s.eng.blk.header s.rom qs dc s.eng.draws }.drew 1))

/-- RL_EOB (R208), at any cursor and position, and with the word of the row, whatever word stands at the cursor:
DESIGN CHOICE, safe (notes/assumptions/28.md, 32.md, 33.md). -/
def execRlEob (s : State) : Host.Outcome State Fault Refusal :=
  .next (s.setEng { s.eng with blk := s.eng.blk.eob })

/-- RL_AC (R209 to R211), at any cursor and position, and with its operand as the word, whatever word stands at the cursor:
DESIGN CHOICE, safe (notes/assumptions/28.md, 32.md, 33.md). -/
def execRlAc (run : BitVec 6) (lvl : BitVec 10) (s : State) : Host.Outcome State Fault Refusal :=
  .next (s.setEng ({ s.eng with blk := s.eng.blk.ac s.rom s.eng.rl run lvl s.eng.draws }.drew 1))

/-- DECODE_BLOCK (R204). -/
def execDecodeBlock (s : State) : Host.Outcome State Fault Refusal :=
  .next (s.setEng (s.eng.decodeBlock s.rom))

end Sys2Proof.Machine
end

