-- ==== Sys2Proof/Machine/BitReader.lean ====
section
/-! DEFINITION. The BitReader (40_bitreader.md): the bit sequence of R130 and the six operations of R131 to R136. A
reader works over the chunk as a function from byte offset to byte, so that what it returns depends on the chunk and
its own registers alone (R137). -/

namespace Sys2Proof.Machine

/-- `U16LE(i)` of the chunk (R64). -/
def chunkHalf (cb : Nat → Byte) (i : Nat) : Nat := u16le (cb i) (cb (i + 1))

/-- `N`, the number of input bits (R130). -/
def BitReader.total (br : BitReader) : Nat := 16 * br.nwords

/-- `BIT(i)` (R130): each little-endian word most significant bit first, zeros past the end. -/
def BitReader.bitAt (cb : Nat → Byte) (br : BitReader) (i : Nat) : Nat :=
  if i < br.total then chunkHalf cb (br.start + 2 * (i / 16)) / 2 ^ (15 - i % 16) % 2 else 0

/-- The next `n` bits as an unsigned number, first bit most significant (R133, R134). -/
def BitReader.peek (cb : Nat → Byte) (br : BitReader) : Nat → Nat
  | 0 => 0
  | n + 1 => 2 * BitReader.peek cb br n + br.bitAt cb (br.pos + n)

/-- Advances the cursor (R135). -/
def BitReader.skip (br : BitReader) (n : Nat) : BitReader := { br with pos := br.pos + n }

/-- `has_more()` (R136). -/
def BitReader.hasMore (br : BitReader) : Bool := decide (br.pos < br.total)

/-- BR_NEW (R131). -/
def BitReader.create (start len : Nat) : BitReader :=
  { start := start, pos := 0, nwords := if start ≤ len then (len - start) / 2 else 0 }

/-- The byte of the chunk at offset `i` is one the engine may read, or one it does not read (R61, R63). -/
def State.chunkByteAdmitted (s : State) (i : Nat) : Bool :=
  decide (s.lLen.toNat ≤ i) || admits s.rom (s.lSrc.toNat + i)

/-- The words that hold the next `n` bits are admitted; bits past the end need none (R61, R130; DEDUCED, safe,
notes/assumptions/10.md). -/
def State.bitsAdmitted (s : State) (n : Nat) : Bool :=
  (List.range n).all (fun t =>
    let i := s.eng.br.pos + t
    let at_ := s.eng.br.start + 2 * (i / 16)
    decide (s.eng.br.total ≤ i) || (s.chunkByteAdmitted at_ && s.chunkByteAdmitted (at_ + 1)))

/-- The engine after an operation that returns `v` and consumes `n` bits. -/
def Engine.took (e : Engine) (v n : Nat) : Engine := { e with br := e.br.skip n, res := v }

/-- BR_NEW (R131). -/
def execBrNew (start : Nat) (s : State) : Host.Outcome State Fault Refusal :=
  .next (s.setEng { s.eng with br := BitReader.create start s.lLen.toNat })

/-- BR_READ_BIT (R132). -/
def execBrReadBit (s : State) : Host.Outcome State Fault Refusal :=
  if s.bitsAdmitted 1 then .next (s.setEng (s.eng.took (s.eng.br.bitAt s.chunk s.eng.br.pos) 1))
  else .fault .chunkNotAdmitted

/-- BR_READ_BITS (R133, R138). -/
def execBrReadBits (n : Nat) (s : State) : Host.Outcome State Fault Refusal :=
  if 16 < n then .refused .readTooWide
  else if s.bitsAdmitted n then .next (s.setEng (s.eng.took (s.eng.br.peek s.chunk n) n))
  else .fault .chunkNotAdmitted

/-- BR_PEEK_BITS (R134, R138). -/
def execBrPeekBits (n : Nat) (s : State) : Host.Outcome State Fault Refusal :=
  if 16 < n then .refused .readTooWide
  else if s.bitsAdmitted n then .next (s.setEng (s.eng.took (s.eng.br.peek s.chunk n) 0))
  else .fault .chunkNotAdmitted

/-- BR_SKIP_BITS (R135). -/
def execBrSkipBits (n : Nat) (s : State) : Host.Outcome State Fault Refusal :=
  .next (s.setEng { s.eng with br := s.eng.br.skip n })

/-- BR_HAS_MORE (R136). -/
def execBrHasMore (s : State) : Host.Outcome State Fault Refusal :=
  .next (s.setEng (s.eng.took (if s.eng.br.hasMore then 1 else 0) 0))

end Sys2Proof.Machine
end

