-- ==== Sys2Proof/Machine/Huffman.lean ====
section
/-! DEFINITION. The Huffman codebook (41_huffman.md): table selection, lookup with clamping, and HUFF_DECODE_NEXT with
the window classes it decodes (R150 to R158; 30_encoding.md R95 to R99). -/

namespace Sys2Proof.Machine

/-- R155: an index past the end reads the last entry. -/
def lookup (t : Config.Table) (idx : Nat) : Word × Hit :=
  match t.entries[idx]? with
  | some e => (e, .found)
  | none => (t.entries.getLast (List.cons_ne_nil _ _), .clampedToLast)

/-- The fast class (R152). -/
def fastEntry (rom : Config.Rom) (w : Half) : Word × Hit := lookup rom.fast (fastIndex w)

/-- A length class (R153, R154); `j` is `lz - 2`. -/
def lengthEntry (rom : Config.Rom) (j : Fin 9) (w : Half) : Word × Hit :=
  let t := rom.lcSel[j]
  lookup rom.lc[t] (lengthIndex w (j.val + 2) rom.lcNbits[t].val rom.lcMask[t])

/-- `min(clz16(w), 10) - 2` (R153); for a window below 0x4000 `clz16` is at least 2. -/
def lengthClass (w : Half) : Fin 9 := ⟨min (clz16 w) 10 - 2, by omega⟩

/-- The entry a window selects (R95, R150). -/
def windowEntry (rom : Config.Rom) (w : Half) : Word × Hit :=
  if 0x4000 ≤ w.toNat then fastEntry rom w else lengthEntry rom (lengthClass w) w

/-- What a lookup returns (R156). -/
def huffResult (x : Word × Hit) : HuffResult where
  run      := entryRun x.1
  lvl      := entryLevel x.1
  consumed := entryConsumed x.1
  cls      := entryClass x.1
  hit      := x.2

/-- The engine after a lookup: the result is returned and the reader advances by the entry's count (R156, R157). The
spec only returns the result and writes `BR.pos` alone (R158); the model holds it in `huff`: DESIGN CHOICE, safe
(notes/assumptions/30.md). -/
def Engine.huffTook (e : Engine) (x : Word × Hit) : Engine :=
  { e with br := e.br.skip (entryConsumed x.1).toNat, huff := huffResult x }

/-- The 16-bit window at the cursor (R151). -/
def BitReader.window (cb : Nat → Byte) (br : BitReader) : Half := BitVec.ofNat 16 (br.peek cb 16)

/-- HUFF_DECODE_NEXT (R150). -/
def execHuffDecodeNext (s : State) : Host.Outcome State Fault Refusal :=
  if s.bitsAdmitted 16 then .next (s.setEng (s.eng.huffTook (windowEntry s.rom (s.eng.br.window s.chunk))))
  else .fault .chunkNotAdmitted

/-- VLC_FAST_01 (R152). This row and the ones below, presented alone, take their operand as the window and advance the
reader, whatever the 16 bits at the cursor, where R151 has the peeked window only: DESIGN CHOICE, safe
(notes/assumptions/33.md). -/
def execVlcFast01 (w : Half) (s : State) : Host.Outcome State Fault Refusal :=
  .next (s.setEng (s.eng.huffTook (fastEntry s.rom w)))

/-- VLC_FAST_1 (R152). -/
def execVlcFast1 (w : Half) (s : State) : Host.Outcome State Fault Refusal :=
  .next (s.setEng (s.eng.huffTook (fastEntry s.rom w)))

/-- VLC_LC_LZ2 (R154). -/
def execVlcLcLz2 (w : Half) (s : State) : Host.Outcome State Fault Refusal :=
  .next (s.setEng (s.eng.huffTook (lengthEntry s.rom 0 w)))

/-- VLC_LC_LZ3 (R154). -/
def execVlcLcLz3 (w : Half) (s : State) : Host.Outcome State Fault Refusal :=
  .next (s.setEng (s.eng.huffTook (lengthEntry s.rom 1 w)))

/-- VLC_LC_LZ4 (R154). -/
def execVlcLcLz4 (w : Half) (s : State) : Host.Outcome State Fault Refusal :=
  .next (s.setEng (s.eng.huffTook (lengthEntry s.rom 2 w)))

/-- VLC_LC_LZ5 (R154). -/
def execVlcLcLz5 (w : Half) (s : State) : Host.Outcome State Fault Refusal :=
  .next (s.setEng (s.eng.huffTook (lengthEntry s.rom 3 w)))

/-- VLC_LC_LZ6 (R154). -/
def execVlcLcLz6 (w : Half) (s : State) : Host.Outcome State Fault Refusal :=
  .next (s.setEng (s.eng.huffTook (lengthEntry s.rom 4 w)))

/-- VLC_LC_LZ7 (R154). -/
def execVlcLcLz7 (w : Half) (s : State) : Host.Outcome State Fault Refusal :=
  .next (s.setEng (s.eng.huffTook (lengthEntry s.rom 5 w)))

/-- VLC_LC_LZ8 (R154). -/
def execVlcLcLz8 (w : Half) (s : State) : Host.Outcome State Fault Refusal :=
  .next (s.setEng (s.eng.huffTook (lengthEntry s.rom 6 w)))

/-- VLC_LC_LZ9 (R154). -/
def execVlcLcLz9 (w : Half) (s : State) : Host.Outcome State Fault Refusal :=
  .next (s.setEng (s.eng.huffTook (lengthEntry s.rom 7 w)))

/-- VLC_LC_LZ10 (R153, R154). -/
def execVlcLcLz10 (w : Half) (s : State) : Host.Outcome State Fault Refusal :=
  .next (s.setEng (s.eng.huffTook (lengthEntry s.rom 8 w)))

end Sys2Proof.Machine
end

