-- ==== Sys2Proof/Machine/Depacker.lean ====
section
/-! DEFINITION. The VLC depacker (42_vlc_depacker.md): the effect of each bitstream element, and DEPACK, which applies
the elements it finds at the bit cursor one after another (R170 to R186). -/

namespace Sys2Proof.Machine

/-! ### Elements -/

/-- A block header (R176 to R178): while there is capacity and input, 22 bits are consumed, the packed word is
written, and the block's codes follow. The guard in the element: DESIGN CHOICE (notes/assumptions/19.md). This element
and the ones below act whatever `inBlock` says: DESIGN CHOICE, safe (notes/assumptions/31.md). -/
def Engine.header (rom : Config.Rom) (h : BitVec 22) (e : Engine) : Engine :=
  if e.rl.o < e.rl.cap ∧ e.br.hasMore = true then
    { e with
      br := e.br.skip 22
      rl := e.rl.emit (packHeader rom.qscalePack (hdrFields rom.hdrSignFirst h))
      inBlock := true }
  else e

/-- An entry of class EOB (R180): the sentinel is written and the block ends. -/
def Engine.entryEob (e : Engine) : Engine :=
  { e with rl := e.rl.emit Config.eob, inBlock := false }

/-- The raw word of an escape (R181): 16 bits are consumed and written verbatim; the block goes on. -/
def Engine.rawWord (w : Half) (e : Engine) : Engine :=
  if e.rl.o < e.rl.cap then { e with br := e.br.skip 16, rl := e.rl.emit w } else e

/-- An entry of class ESC (R181): the raw word is read right after the code; the entry's own fields are discarded. -/
def Engine.entryEsc (cb : Nat → Byte) (e : Engine) : Engine := e.rawWord (e.br.window cb)

/-- An entry of class AC (R182): `e[15:0]` is written. -/
def Engine.entryAc (x : Word) (e : Engine) : Engine := { e with rl := e.rl.emit (entryWord x) }

/-- The effect of an entry by its class (R99, R180 to R182). -/
def Engine.entry (cb : Nat → Byte) (x : Word) (e : Engine) : Engine :=
  match entryClass x with
  | .eob => e.entryEob
  | .esc => e.entryEsc cb
  | .ac => e.entryAc x

/-! ### The loop (R170, R176 to R183) -/

/-- The 22 bits at the cursor (R94). -/
def BitReader.headerBits (cb : Nat → Byte) (br : BitReader) : BitVec 22 := BitVec.ofNat 22 (br.peek cb 22)

/-- One pass of either loop: a header, or a Huffman code and its entry's effect (R184). -/
def depackPass (rom : Config.Rom) (cb : Nat → Byte) (e : Engine) : Engine :=
  if e.inBlock then
    let x := windowEntry rom (e.br.window cb)
    (e.huffTook x).entry cb x.1
  else e.header rom (e.br.headerBits cb)

/-- Passes until capacity or input is exhausted (R176, R179). -/
def depackLoop (rom : Config.Rom) (cb : Nat → Byte) : Nat → Engine → Engine
  | 0, e => e
  | n + 1, e =>
    if e.rl.o < e.rl.cap ∧ e.br.hasMore = true then depackLoop rom cb n (depackPass rom cb e) else e

/-- R183: every remaining word is EOB. -/
def RlStream.pad (r : RlStream) : RlStream :=
  { r with words := r.words ++ List.replicate (r.cap - r.o) Config.eob, o := max r.o r.cap }

/-- `cap` (R173). -/
def capacity (length : Nat) : Nat := max Config.capFloor (Config.capacityFn length)

/-- `RL[0] <- min(cap, 0xFFFF)` (R174). -/
def RlStream.putCount (r : RlStream) : RlStream := r.set 0 (BitVec.ofNat 16 (min r.cap 0xFFFF))

/-- `RL[1] <- MAGIC` (R174). -/
def RlStream.putMagic (r : RlStream) : RlStream := r.set 1 Config.magic

/-- R174, R175: a fresh stream (R42; DEDUCED, notes/assumptions/22.md) with words 0 and 1 written and the reader at
byte 8. -/
def depackStart (length len : Nat) (e : Engine) : Engine :=
  { e with
    br := BitReader.create Config.headerBytes len
    rl := { (RlStream.mk [] (capacity length) 0).putCount.putMagic with o := 2 }
    inBlock := false
    raised := none }

/-- DEPACK (R170) on a chunk of `len` bytes; a pass writes one word, so `cap` passes are enough (R184). -/
def depackRun (rom : Config.Rom) (cb : Nat → Byte) (len : Nat) (e : Engine) : PipeOut Engine :=
  if len < Config.headerBytes then .raise .truncatedStream
  else if chunkHalf cb 2 ≠ Config.magic.toNat then .raise .malformedStream
  else
    let length := chunkHalf cb 0
    let e' := depackLoop rom cb (capacity length) (depackStart length len e)
    .ok { e' with rl := e'.rl.pad }

/-- DEPACK over the state: the chunk range must be admitted first (20_memory.md R69; DEDUCED, safe,
notes/assumptions/10.md). -/
def State.depack (s : State) : PipeOut Engine :=
  if s.chunkAdmitted then depackRun s.rom s.chunk s.lLen.toNat s.eng else .stuck .chunkNotAdmitted

/-! ### The meanings -/

/-- BLK_HDR (R177, R178). Presented alone it takes its operand as the header, whatever the 22 bits at the cursor, which
it does not read, so that no chunk byte need be admitted: DESIGN CHOICE, safe (notes/assumptions/33.md). -/
def execBlkHdr (bits : BitVec 22) (s : State) : Host.Outcome State Fault Refusal :=
  .next (s.setEng (s.eng.header s.rom bits))

/-- ESC_RAW (R100, R181), with its operand as the raw word: DESIGN CHOICE, safe (notes/assumptions/21.md, 33.md). -/
def execEscRaw (run : BitVec 6) (lvl : BitVec 10) (s : State) : Host.Outcome State Fault Refusal :=
  .next (s.setEng (s.eng.rawWord (rlWord run lvl)))

/-- ENT_EOB (R180), whatever entry was looked up last: DESIGN CHOICE, safe (notes/assumptions/33.md). -/
def execEntEob (_e : Word) (s : State) : Host.Outcome State Fault Refusal :=
  .next (s.setEng s.eng.entryEob)

/-- ENT_ESC (R181), the raw word included (DESIGN CHOICE, notes/assumptions/21.md). -/
def execEntEsc (_e : Word) (s : State) : Host.Outcome State Fault Refusal :=
  if s.eng.rl.cap ≤ s.eng.rl.o ∨ s.bitsAdmitted 16 = true then .next (s.setEng (s.eng.entryEsc s.chunk)) else .fault .chunkNotAdmitted

/-- ENT_AC (R182), whatever entry was looked up last: DESIGN CHOICE, safe (notes/assumptions/33.md). -/
def execEntAc (e : Word) (s : State) : Host.Outcome State Fault Refusal :=
  .next (s.setEng (s.eng.entryAc e))

/-- RL_CNT (R174). The word's own value is not looked at, the write index stays, where R170 sets `o <- 2` beside R174, and
the row acts at every `cap`: DESIGN CHOICE, safe (notes/assumptions/20.md). -/
def execRlCnt (s : State) : Host.Outcome State Fault Refusal :=
  .next (s.setEng { s.eng with rl := s.eng.rl.putCount })

/-- RL_MAGIC (R174), with the same choices as RL_CNT: DESIGN CHOICE, safe (notes/assumptions/20.md). -/
def execRlMagic (s : State) : Host.Outcome State Fault Refusal :=
  .next (s.setEng { s.eng with rl := s.eng.rl.putMagic })

/-- DEPACK (R170); an error is returned and leaves the buffers as they are (60_exceptions.md R331; DESIGN CHOICE,
notes/assumptions/18.md). -/
def execDepack (s : State) : Host.Outcome State Fault Refusal :=
  match s.depack with
  | .ok e => .next (s.setEng e)
  | .raise x => .next (s.setEng { s.eng with raised := some x })
  | .stuck f => .fault f
  | .refuse r => .refused r

end Sys2Proof.Machine
end

