-- ==== Sys2Proof/Machine/Macroblock.lean ====
section
/-! DEFINITION. The macroblock assembler (45_macroblock_color.md): chroma upsampling, luma selection, colour conversion
and clamping (R250 to R256). -/

namespace Sys2Proof.Machine

/-- The chroma sample of pixel `(x, y)` (R252). -/
def chromaIndex (y x : Fin 16) : Fin 64 := ⟨y.val / 2 * 8 + x.val / 2, by omega⟩

/-- The luma block of pixel `(x, y)`, as its position among the six blocks (R253). -/
def lumaBlock (y x : Fin 16) : Fin 6 :=
  ⟨2 + ((if x.val < 8 then 0 else 1) + (if y.val < 8 then 0 else 2)), by split <;> split <;> omega⟩

/-- The sample within the luma block (R253). -/
def lumaIndex (y x : Fin 16) : Fin 64 := ⟨y.val % 8 * 8 + x.val % 8, by omega⟩

/-- The blocks that feed Cb and Cr (R251). -/
def cbBlock (rom : Config.Rom) : Fin 6 := if rom.chromaSwap then 1 else 0

def crBlock (rom : Config.Rom) : Fin 6 := if rom.chromaSwap then 0 else 1

/-- The offset and clamp of R255; a draw over [0, 255] where the offset value or an intermediate left s32 (R213). -/
def channel (exact : List Int) (v : Int) (draw : Nat) : Byte :=
  if ((v + 128) :: v :: exact).all inS32 then BitVec.ofInt 8 (clamp (v + 128) 0 255) else Config.freeByte draw

/-- R254, R255: blue. -/
def blue (l cb : Int) (draw : Nat) : Byte :=
  let p := 1815 * cb
  channel [p] (l + asr p 10) draw

/-- R254, R255: green; the sum of both products is shifted once. -/
def green (l cb cr : Int) (draw : Nat) : Byte :=
  let p := 352 * cb
  let q := 731 * cr
  channel [p, q, p + q] (l - asr (p + q) 10) draw

/-- R254, R255: red. -/
def red (l cr : Int) (draw : Nat) : Byte :=
  let p := 1436 * cr
  channel [p] (l + asr p 10) draw

/-- One pixel of the tile (R250, R256); three draws belong to each pixel. -/
def pixelAt (rom : Config.Rom) (sb : Vector (Vector Int 64) 6) (d : Nat) (y x : Fin 16) : Pixel :=
  let ci := chromaIndex y x
  let cb := sb[cbBlock rom][ci]
  let cr := sb[crBlock rom][ci]
  let l := sb[lumaBlock y x][lumaIndex y x]
  let d := d + 3 * (16 * y.val + x.val)
  { b := blue l cb d, g := green l cb cr (d + 1), r := red l cr (d + 2) }

/-- The tile (R250). -/
def tileOf (rom : Config.Rom) (sb : Vector (Vector Int 64) 6) (d : Nat) : Tile :=
  Vector.ofFn (fun y => Vector.ofFn (fun x => pixelAt rom sb d y x))

/-- RENDER_MB over the engine. -/
def Engine.render (rom : Config.Rom) (e : Engine) : Engine :=
  { e with px := tileOf rom e.sb e.draws }.drew 768

/-- RENDER_MB (R250). -/
def execRenderMb (s : State) : Host.Outcome State Fault Refusal := .next (s.setEng (s.eng.render s.rom))

end Sys2Proof.Machine
end

