-- ==== Sys2Proof/Machine/Transform.lean ====
section
/-! DEFINITION. The inverse DCT (44_idct.md R230): the hardware's transform is the configuration field `Config.idct`, of
which the model knows `IdctClose` (R234) and nothing else. -/

namespace Sys2Proof.Machine

/-- `idct(FB)[i]`, or a draw over s32 where that sample leaves s32 (R230, R213). -/
def spatialSample (fb : Vector Int 64) (d : Nat) (i : Fin 64) : Int :=
  s32OrDraw [] (Config.idct.run (fun j => fb[j]) i) (d + i.val)

/-- The spatial block of a frequency block (R230, R235). -/
def spatialBlock (fb : Vector Int 64) (d : Nat) : Vector Int 64 := Vector.ofFn (spatialSample fb d)

/-- `SB[b] <- idct(FB)` (R230). -/
def Engine.transform (e : Engine) (b : Fin 6) : Engine :=
  { e with sb := e.sb.set b (spatialBlock e.blk.fb e.draws) }.drew 64

/-- IDCT8X8 (R230). -/
def execIdct8x8 (b : Fin 6) (s : State) : Host.Outcome State Fault Refusal :=
  .next (s.setEng (s.eng.transform b))

end Sys2Proof.Machine
end

