-- ==== Sys2Proof/Machine/Compositor.lean ====
section
/-! DEFINITION. The slice and frame compositor and the decode operation (46_frame_compositor.md R270 to R281). -/

namespace Sys2Proof.Machine

/-! ### One macroblock, one slice (R275, R276) -/

/-- Six blocks in stream order, each decoded and transformed, then the tile (R275). -/
def Engine.macroblock (rom : Config.Rom) (e : Engine) : Engine :=
  ((List.finRange 6).foldl (fun e b => (e.decodeBlock rom).transform b) e).render rom

/-- Staging rows `16 m` to `16 m + 15` (R276). -/
def stagePut (st : List PixelRow) (m : Nat) (px : Tile) : List PixelRow :=
  st.take (16 * m) ++ px.toList ++ st.drop (16 * m + 16)

/-- Macroblock `m` of a slice, decoded and placed. -/
def Engine.stage (rom : Config.Rom) (e : Engine) (m : Nat) : Engine :=
  let e' := e.macroblock rom
  { e' with st := stagePut e'.st m e'.px }

/-- The macroblock rows of a slice, top to bottom (R275). -/
def Engine.slice (rom : Config.Rom) (nm : Nat) (e : Engine) : Engine :=
  (List.range nm).foldl (fun e m => e.stage rom m) e

/-! ### Copying a slice out (R277 to R279) -/

/-- `ST[row][x]`. -/
def stagePixel (st : List PixelRow) (row x : Nat) : Pixel :=
  ((st[row]?).bind (fun r => r[x]?)).getD ⟨0, 0, 0⟩

/-- `3 * (y * W + X)` past the pixel buffer's first byte (R66). -/
def pixelAddr (dst w y x : Nat) : Nat := dst + 3 * (y * w + x)

/-- The three bytes of a pixel, blue first (R66, R279). -/
def pixelCells (a : Nat) (p : Pixel) : List Host.Cell := [(a, p.b), (a + 1, p.g), (a + 2, p.r)]

/-- The byte writes of slice `i` (R279): destination row `y` takes staging row `H - 1 - y` (R277), the columns are
clipped to the image (R278). -/
def sliceCells (dst w h i : Nat) (st : List PixelRow) : List Host.Cell :=
  (List.range h).flatMap fun y =>
    (List.range (min 16 (w - 16 * i))).flatMap fun x =>
      pixelCells (pixelAddr dst w y (16 * i + x)) (stagePixel st (h - 1 - y) x)

/-! ### The frame (R273, R274, R279) -/

/-- `NM` (R273): macroblock rows in a slice. -/
def macroblockRows (h : Nat) : Nat := (h + 15) / 16

/-- `NS` (R274): slices. -/
def sliceCount (w : Nat) : Nat := (w + 15) / 16

/-- One slice: decoded into the staging buffer, then copied out. -/
def frameSlice (rom : Config.Rom) (w h dst : Nat) (p : Engine × Memory) (i : Nat) : Engine × Memory :=
  let e := p.1.slice rom (macroblockRows h)
  (e, p.2.writeAll (sliceCells dst w h i e.st))

/-- The slices, left to right, with one RL cursor from word 2 (R274, R279). -/
def frameRun (rom : Config.Rom) (w h dst : Nat) (e : Engine) (m : Memory) : Engine × Memory :=
  (List.range (sliceCount w)).foldl (frameSlice rom w h dst) ({ e with blk := { e.blk with c := 2 } }, m)

/-- DECODE_FRAME with its checks: R271, then R281 (R279), then R69. Where among them R272's check stands the spec does not
say, and it never fires in the core: after R271, DESIGN CHOICE, safe (notes/assumptions/34.md). That R281 comes before
R69: DEDUCED, safe (notes/assumptions/11.md). -/
def State.decodeFrame (s : State) (e : Engine) : PipeOut (Engine × Memory) :=
  let w := s.lW.toInt
  let h := s.lH.toInt
  if w ≤ 0 ∨ h ≤ 0 then .raise .invalidDimensions
  else if e.rl.cap < 2 then .raise .truncatedStream
  else if (s.rom.maxWidth : Int) < w ∨ (s.rom.maxHeight : Int) < h then .refuse .dimensionsAboveLimit
  else if s.pixelsAdmitted = false then .stuck .pixelsNotAdmitted
  else .ok (frameRun s.rom w.toNat h.toNat s.lDst.toNat e s.mem)

/-- DECODE (R270). -/
def State.decode (s : State) : PipeOut (Engine × Memory) :=
  match s.depack with
  | .ok e => s.decodeFrame e
  | .raise x => .raise x
  | .stuck f => .stuck f
  | .refuse r => .refuse r

/-- DECODE (R270): no flag is written; an error is returned and no pixel byte is written (60_exceptions.md R331).
Presented alone it is no decode of R71: its pixel bytes stand in memory at once, nothing of it is left unseen, and no
race is noted or settled: DESIGN CHOICE, unsafe (notes/assumptions/36.md). -/
def execDecode (s : State) : Host.Outcome State Fault Refusal :=
  match s.decode with
  | .ok p => .next { s with eng := p.1, mem := p.2 }
  | .raise x => .next (s.setEng { s.eng with raised := some x })
  | .stuck f => .fault f
  | .refuse r => .refused r

end Sys2Proof.Machine
end

