-- ==== Sys2Proof/Machine/Complete.lean ====
section
/-! DEFINITION. COMPLETE, the engine's one step (47_host_interface.md R308). -/

namespace Sys2Proof.Machine

/-- The state after the decode's memory effect and the races of R78; the internal buffers are then unspecified (R41;
DEDUCED, safe, notes/assumptions/15.md). The latches of R30 keep their values here, where R41 calls them unspecified
too and R348 keeps every register: DESIGN CHOICE, unsafe (notes/assumptions/29.md). -/
def State.endDecode (s : State) (e : Engine) (m : Memory) : State :=
  let t := { s with eng := e, mem := m }.settleRaces
  t.setEng t.eng.unspecified

/-- COMPLETE (R308): enabled while BUSY; not enabled it takes no step and changes nothing (60_exceptions.md R348;
DEDUCED, safe, notes/assumptions/16.md). -/
def execComplete (s : State) : Host.Outcome State Fault Refusal :=
  if s.busy then
    match s.decode with
    | .ok p => .next (s.endDecode p.1 p.2).reportSuccess
    | .raise x => .next ((s.endDecode s.eng s.mem).reportError x)
    | .stuck f => .fault f
    | .refuse r => .refused r
  else .next s

end Sys2Proof.Machine
end

