-- ==== Sys2Proof/Machine/HostPort.lean ====
section
/-! DEFINITION. What the host and the platform do to the core (47_host_interface.md R300 to R307; 20_memory.md R78;
70_reset_and_hazards.md R370 to R373): register reads and writes, START, SOFT_RESET, memory accesses, power-on reset. -/

namespace Sys2Proof.Machine

/-! ### Reads (R300) -/

/-- A read of STATUS that returns DONE = 1 makes the engine's writes of that decode visible to the host (20_memory.md
R71). A decode that failed has written nothing (60_exceptions.md R337), so seeing its end guarantees no byte of an earlier
decode (DEDUCED, notes/assumptions/12.md). -/
def State.seeDone (s : State) (off : Byte) : State :=
  if off = 0x04 ∧ s.done = true then
    { s with
      unseen := .nothing
      unseenOld :=
        if s.unseen = .written then s.unseenOld.flatMap (UnseenRange.minus ⟨s.lDst.toNat, s.pixelBytes⟩)
        else s.unseenOld }
  else s

/-- RD_REG (R300, R301): no register changes. -/
def execRdReg (off : Byte) (s : State) : Host.Outcome State Fault Refusal :=
  if registerOffset off then .next { s.seeDone off with hostData := s.readReg off } else .refused .accessNotAdmitted

/-! ### CTRL (R302 to R304) -/

/-- `IRQ_EN <- d[2]` (R302). -/
def State.setIrqEn (s : State) (d : Word) : State := { s with irqEn := d.getLsbD 2 }

/-- WR_CTRL (R302). -/
def execWrCtrl (d : Word) (s : State) : Host.Outcome State Fault Refusal := .next (s.setIrqEn d)

/-- CTRL_START (R302, R303): a START while BUSY is ignored. -/
def execCtrlStart (d : Word) (s : State) : Host.Outcome State Fault Refusal :=
  .next (if s.busy then s.setIrqEn d else (s.setIrqEn d).startDecode)

/-- The running decode would end with an error, whatever has raced: then no pixel byte is written (R373). -/
def State.wouldFail (s : State) : Bool :=
  !s.chunkRaced && (match s.decode with | .raise _ => true | _ => false)

/-- R373: a decode abandoned by a reset may have written any part of its pixel range; one that would be stuck or
refused is treated alike (DEDUCED, safe, notes/assumptions/14.md), and a byte that is in the chunk range too becomes
free like the rest (DESIGN CHOICE, safe, notes/assumptions/37.md). -/
def State.abandon (s : State) : State :=
  if s.busy && !s.wouldFail then s.scribble s.pixelAddrs else s

/-- The reset of R370, with what it does to a running decode (R373). -/
def State.resetAll (s : State) : State := s.abandon.resetCore

/-- CTRL_SOFT_RESET (R304): the other bits of the write are ignored. -/
def execCtrlSoftReset (_d : Word) (s : State) : Host.Outcome State Fault Refusal := .next s.resetAll

/-! ### STATUS and the parameters (R306, R307, R29) -/

/-- WR_STATUS_W1C (R306). -/
def execWrStatusW1c (d : Word) (s : State) : Host.Outcome State Fault Refusal :=
  .next (s.acknowledge (d.getLsbD 1) (d.getLsbD 2))

/-- WR_SRC_ADDR (R307). -/
def execWrSrcAddr (d : Word) (s : State) : Host.Outcome State Fault Refusal := .next { s with srcAddr := d }

/-- WR_SRC_LEN (R307). -/
def execWrSrcLen (d : Word) (s : State) : Host.Outcome State Fault Refusal := .next { s with srcLen := d }

/-- WR_WIDTH (R307). -/
def execWrWidth (d : Word) (s : State) : Host.Outcome State Fault Refusal := .next { s with width := d }

/-- WR_HEIGHT (R307). -/
def execWrHeight (d : Word) (s : State) : Host.Outcome State Fault Refusal := .next { s with height := d }

/-- WR_DST_ADDR (R307). -/
def execWrDstAddr (d : Word) (s : State) : Host.Outcome State Fault Refusal := .next { s with dstAddr := d }

/-- WR_RESERVED (10_state.md R29): the write is ignored. -/
def execWrReserved (off : Byte) (_d : Word) (s : State) : Host.Outcome State Fault Refusal :=
  if reservedOffset off then .next s else .refused .accessNotAdmitted

/-! ### Events that are no instruction of the table -/

/-- The host reads a byte; a byte it cannot rely on reads as anything (R78 (1), R377). An address past 2^32 or outside
ordinary memory stops: DEDUCED, safe (notes/assumptions/17.md). -/
def State.hostRead (s : State) (a : Nat) : Host.Outcome State Fault Refusal :=
  if Config.addrLimit ≤ a then .fault .noSuchAddress
  else if admits s.rom a = false then .refused .notOrdinaryMemory
  else if s.unreliable a then
    .next { s with hostData := (Config.freeByte s.eng.draws).setWidth 32, eng := s.eng.drew 1 }
  else .next { s with hostData := (s.mem.read a).setWidth 32 }

/-- What a host write does to the races of a running decode (R78 (2), (3)). -/
def State.noteRace (s : State) (a : Nat) : State :=
  { s with
    chunkRaced := s.chunkRaced || (s.busy && s.inChunk a)
    pixRaced := if s.busy && s.inPixels a then a :: s.pixRaced else s.pixRaced }

/-- The host writes a byte. After a success it has not seen, the write is not ordered with the engine's writes, so the
byte may be any (R71, R377; DEDUCED, notes/assumptions/12.md); after an error there is none to be ordered with, and the
write stands (R71 (2), R337). During the decode the race is noted and settled at completion (R78). -/
def State.hostWrite (s : State) (a : Nat) (v : Byte) : Host.Outcome State Fault Refusal :=
  if Config.addrLimit ≤ a then .fault .noSuchAddress
  else if admits s.rom a = false then .refused .notOrdinaryMemory
  else if s.unordered a && !(s.busy && s.inPixels a) then
    .next ((s.noteRace a).scribble [a])
  else .next { s.noteRace a with mem := s.mem.write a v }

/-- The record of a host access to the register window at a platform address (R60, R345); none outside the window.
The width is given in bytes, 255 standing for any wider access (DESIGN CHOICE, safe, notes/assumptions/24.md). -/
def State.busRecord (s : State) (write : Bool) (width addr : Nat) (data : Word) : Option (List Byte) :=
  if s.rom.regBase ≤ addr ∧ addr < s.rom.regBase + 0x40 then
    let w := BitVec.ofNat 8 (min width 255)
    let off := BitVec.ofNat 8 (addr - s.rom.regBase)
    some (if write then hostWriteRecord w off data else [layerHostRead, w, off])
  else none

end Sys2Proof.Machine
end

