-- ==== Sys2Proof/Machine/Dispatch.lean ====
section
/-! DEFINITION. One arm for each instruction (spec/opcode_table.json, in its order). -/

namespace Sys2Proof.Machine

def exec (i : Instr) (s : State) : Host.Outcome State Fault Refusal :=
  match i with
  | .rdReg off => Sys2Proof.Machine.execRdReg off s
  | .wrCtrl d => Sys2Proof.Machine.execWrCtrl d s
  | .ctrlStart d => Sys2Proof.Machine.execCtrlStart d s
  | .ctrlSoftReset d => Sys2Proof.Machine.execCtrlSoftReset d s
  | .wrStatusW1c d => Sys2Proof.Machine.execWrStatusW1c d s
  | .wrSrcAddr d => Sys2Proof.Machine.execWrSrcAddr d s
  | .wrSrcLen d => Sys2Proof.Machine.execWrSrcLen d s
  | .wrWidth d => Sys2Proof.Machine.execWrWidth d s
  | .wrHeight d => Sys2Proof.Machine.execWrHeight d s
  | .wrDstAddr d => Sys2Proof.Machine.execWrDstAddr d s
  | .wrReserved off d => Sys2Proof.Machine.execWrReserved off d s
  | .complete => Sys2Proof.Machine.execComplete s
  | .brNew start => Sys2Proof.Machine.execBrNew start s
  | .brReadBit => Sys2Proof.Machine.execBrReadBit s
  | .brReadBits n => Sys2Proof.Machine.execBrReadBits n s
  | .brPeekBits n => Sys2Proof.Machine.execBrPeekBits n s
  | .brSkipBits n => Sys2Proof.Machine.execBrSkipBits n s
  | .brHasMore => Sys2Proof.Machine.execBrHasMore s
  | .blkHdr bits => Sys2Proof.Machine.execBlkHdr bits s
  | .vlcFast01 w => Sys2Proof.Machine.execVlcFast01 w s
  | .vlcFast1 w => Sys2Proof.Machine.execVlcFast1 w s
  | .vlcLcLz2 w => Sys2Proof.Machine.execVlcLcLz2 w s
  | .vlcLcLz3 w => Sys2Proof.Machine.execVlcLcLz3 w s
  | .vlcLcLz4 w => Sys2Proof.Machine.execVlcLcLz4 w s
  | .vlcLcLz5 w => Sys2Proof.Machine.execVlcLcLz5 w s
  | .vlcLcLz6 w => Sys2Proof.Machine.execVlcLcLz6 w s
  | .vlcLcLz7 w => Sys2Proof.Machine.execVlcLcLz7 w s
  | .vlcLcLz8 w => Sys2Proof.Machine.execVlcLcLz8 w s
  | .vlcLcLz9 w => Sys2Proof.Machine.execVlcLcLz9 w s
  | .vlcLcLz10 w => Sys2Proof.Machine.execVlcLcLz10 w s
  | .escRaw run lvl => Sys2Proof.Machine.execEscRaw run lvl s
  | .entEob e => Sys2Proof.Machine.execEntEob e s
  | .entEsc e => Sys2Proof.Machine.execEntEsc e s
  | .entAc e => Sys2Proof.Machine.execEntAc e s
  | .rlCnt => Sys2Proof.Machine.execRlCnt s
  | .rlMagic => Sys2Proof.Machine.execRlMagic s
  | .rlHdr qs dc => Sys2Proof.Machine.execRlHdr qs dc s
  | .rlEob => Sys2Proof.Machine.execRlEob s
  | .rlAc run lvl => Sys2Proof.Machine.execRlAc run lvl s
  | .depack => Sys2Proof.Machine.execDepack s
  | .huffDecodeNext => Sys2Proof.Machine.execHuffDecodeNext s
  | .decodeBlock => Sys2Proof.Machine.execDecodeBlock s
  | .idct8x8 b => Sys2Proof.Machine.execIdct8x8 b s
  | .renderMb => Sys2Proof.Machine.execRenderMb s
  | .decode => Sys2Proof.Machine.execDecode s

end Sys2Proof.Machine
end

