-- ==== Sys2Proof/Machine/Step.lean ====
section
/-! DEFINITION. One step; DESIGN CHOICE (notes/assumptions/1.md, 3.md): the next thing the outside world presents, taken off the
inbox and done; with nothing presented, the engine's COMPLETE while BUSY (47_host_interface.md R310), and no change
while idle (60_exceptions.md R348). -/

namespace Sys2Proof.Machine

/-- Runs the instruction of a record. -/
def runRecord (record : List Byte) (s : State) : Host.Outcome State Fault Refusal :=
  match Sys2Proof.decode record with
  | .ok i [] => exec i s
  | .ok _ (_ :: _) => .refused (.badRecord .trailingBytes)
  | .reject e => .refused (.badRecord e)

/-- Does one event, already taken off the inbox. -/
def runEvent (ev : Event) (s : State) : Host.Outcome State Fault Refusal :=
  match ev with
  | .op record => runRecord record s
  | .busAccess write width addr data =>
    match s.busRecord write width addr data with
    | some record => runRecord record s
    | none => .refused (.badRecord .outsideWindow)
  | .memRead a => s.hostRead a
  | .memWrite a v => s.hostWrite a v
  | .powerOnReset => .next s.resetAll

/-- One step. -/
def step (s : State) : Host.Outcome State Fault Refusal :=
  match s.inbox with
  | ev :: rest => runEvent ev { s with inbox := rest }
  | [] => if s.busy then exec .complete s else .next s

/-- `s` with the instruction of a bare opcode-table word next on the inbox. -/
def State.withFetchWord (s : State) (nbits w : Nat) : State :=
  { s with inbox := .op (tableRecord nbits w) :: s.inbox }

end Sys2Proof.Machine
end

