-- ==== Sys2Proof/Safety.lean ====
section
/-! DEFINITION. What the claims are stated in: the invariant of the host-visible state (10_state.md R23, R30), the
conditions of a decode, the spec's own formulas for bits, table entries and RL words, runs of elements one after
another, reachability and a safe run. -/

namespace Sys2Proof.Machine

/-- The step goes on. -/
def goesOn (o : Host.Outcome State Fault Refusal) : Prop := ∃ t, o = .next t

/-- The invariants R23 states of STATUS, the error codes R330 allows, races only while BUSY (R78), and the canonical
form of memory. -/
structure State.Inv (s : State) : Prop where
  busy_clears : s.busy = true → s.done = false ∧ s.err = false
  code_clear  : s.err = false → s.errCode = 0
  code_known  : s.err = true → ∃ e, s.errCode = errorCode e
  seen_busy   : s.busy = true → s.unseen = .nothing
  race_busy   : s.busy = false → s.chunkRaced = false ∧ s.pixRaced = []
  memory      : s.mem.wf

/-! ### A decode (R69, R171, R172, R271, R281) -/

/-- `CB(i)` as a number, 0 past the chunk (R63, R130). -/
def chunkByte (s : State) (i : Nat) : Nat := if i < s.lLen.toNat then (s.mem.read (s.lSrc.toNat + i)).toNat else 0

/-- `U16LE(i) = CB(i) | (CB(i+1) << 8)` (R64). -/
def chunkWord (s : State) (i : Nat) : Nat := chunkByte s i ||| (chunkByte s (i + 1) <<< 8)

/-- The chunk is admitted and its header is in order. -/
structure State.GoodChunk (s : State) : Prop where
  chunk_admitted : s.chunkAdmitted = true
  header_present : 8 ≤ s.lLen.toNat
  magic          : chunkWord s 2 = 0x3800

/-- The dimensions are positive and within the limits. -/
structure State.GoodSize (s : State) : Prop where
  width_positive  : 0 < s.lW.toInt
  height_positive : 0 < s.lH.toInt
  width_limit     : s.lW.toInt ≤ s.rom.maxWidth
  height_limit    : s.lH.toInt ≤ s.rom.maxHeight

/-- What a decode needs to complete without error. -/
structure State.Decodable (s : State) : Prop where
  chunk  : s.GoodChunk
  size   : s.GoodSize
  pixels : s.pixelsAdmitted = true

/-- No host access has raced with the running decode (R78, R376, R377). -/
def State.Unraced (s : State) : Prop := s.chunkRaced = false ∧ s.pixRaced = []

/-! ### The bit sequence (R130, R133) -/

/-- `N`, the number of input bits. -/
def inputBits (s : State) : Nat := 16 * s.eng.br.nwords

/-- `BIT(i)`. -/
def streamBit (s : State) (i : Nat) : Nat :=
  if i < inputBits s then (chunkWord s (s.eng.br.start + 2 * (i / 16)) >>> (15 - i % 16)) &&& 1 else 0

/-- The loop `for t in 0..n: v <- (v << 1) | BIT(BR.pos + t)`. -/
def nextBits (s : State) (n : Nat) : Nat :=
  (List.range n).foldl (fun v t => (v <<< 1) ||| streamBit s (s.eng.br.pos + t)) 0

/-! ### Table entries (R98, R99, R155 to R157) -/

/-- The entry an index reads, clamped to the last. -/
def tableAt (t : Config.Table) (idx : Nat) : Word := t.entries.getD (min idx (t.entries.length - 1)) 0

/-- The outcome of that lookup. -/
def hitAt (t : Config.Table) (idx : Nat) : Hit := if idx < t.entries.length then .found else .clampedToLast

/-- The class of an entry, tested in the order of R99. -/
def classOf (x : Word) : EntryClass :=
  if x.toNat % 2 ^ 16 = 0xFE00 then .eob else if x.toNat % 2 ^ 10 = 0x200 then .esc else .ac

/-- The engine after a code whose lookup reads index `idx` of table `t`: the fields are returned, the reader advances
by `consumed` bits. -/
def Engine.afterLookup (g : Engine) (t : Config.Table) (idx : Nat) : Engine :=
  let x := tableAt t idx
  { g with
    br := { g.br with pos := g.br.pos + x.toNat / 2 ^ 16 }
    huff :=
      { run := BitVec.ofNat 6 (x.toNat / 2 ^ 10), lvl := BitVec.ofNat 10 x.toNat
        consumed := BitVec.ofNat 16 (x.toNat / 2 ^ 16), cls := classOf x, hit := hitAt t idx } }

/-- The entry a lookup result came from (R98). -/
def HuffResult.toEntry (h : HuffResult) : Word := h.consumed ++ h.run ++ h.lvl

/-! ### RL words (R33, R170, R205) -/

/-- `RL[o] <- w; o <- o + 1`, and every other word reads as before. -/
structure RlWrites (r : RlStream) (w : Half) (r' : RlStream) : Prop where
  cap    : r'.cap = r.cap
  index  : r'.o = r.o + 1
  word   : r'.read r.o = w
  others : ∀ i, i ≠ r.o → r'.read i = r.read i

/-- The depacker goes on: capacity and input are left (R176, R179). -/
def State.depackGoes (s : State) : Prop := s.eng.rl.o < s.eng.rl.cap ∧ s.eng.br.pos < inputBits s

/-! ### Runs of elements -/

/-- Bitstream elements taken at the bit cursor until capacity or input is exhausted (R93, R170). -/
inductive DepackRuns : State → State → Prop where
  | stop {s : State} : ¬ s.depackGoes → DepackRuns s s
  | header {s t u : State} : s.depackGoes → s.eng.inBlock = false →
      exec (.blkHdr (BitVec.ofNat 22 (nextBits s 22))) s = .next t → DepackRuns t u → DepackRuns s u
  | code {s t t' u : State} : s.depackGoes → s.eng.inBlock = true →
      exec .huffDecodeNext s = .next t → exec (entryInstr t.eng.huff.toEntry) t = .next t' →
      DepackRuns t' u → DepackRuns s u

/-- RL words in AC position taken at the RL cursor until the block ends (R106, R204). -/
inductive BlockRuns : State → State → Prop where
  | done {s : State} : s.eng.blk.inside = false → BlockRuns s s
  | word {s t u : State} : s.eng.blk.inside = true →
      exec (acInstr (s.eng.rl.read s.eng.blk.c)) s = .next t → BlockRuns t u → BlockRuns s u

/-- Instructions one after another. -/
def execAll : List Instr → State → Host.Outcome State Fault Refusal
  | [], s => .next s
  | i :: l, s =>
    match exec i s with
    | .next t => execAll l t
    | .fault f => .fault f
    | .refused r => .refused r

/-- One macroblock: six blocks, each decoded and transformed, then the tile (R275). -/
def macroblockProgram : List Instr :=
  [.decodeBlock, .idct8x8 0, .decodeBlock, .idct8x8 1, .decodeBlock, .idct8x8 2,
   .decodeBlock, .idct8x8 3, .decodeBlock, .idct8x8 4, .decodeBlock, .idct8x8 5, .renderMb]

/-- `n` macroblocks in stream order (R275). -/
def macroblocks (n : Nat) : List Instr := (List.replicate n macroblockProgram).flatten

/-- The RL cursor at the first block of the frame (R275). -/
def State.atFirstBlock (s : State) : State := s.setEng { s.eng with blk := { s.eng.blk with c := 2 } }

/-- A row or column of a tile. -/
def mod16 (n : Nat) : Fin 16 := ⟨n % 16, by omega⟩

/-- Memory `m` holds the frame of the decode of `s`, whose depacked stream `d` holds (R273 to R279, R66): pixel
`(x, y)` has, blue first, the pixel of row `(H - 1 - y) mod 16`, column `x mod 16` of the tile of macroblock number
`(x div 16) * NM + (H - 1 - y) div 16`, the macroblocks being decoded one after another from RL word 2. -/
def State.FrameIn (s d : State) (m : Memory) : Prop :=
  ∀ x y : Nat, x < s.lW.toNat → y < s.lH.toNat →
    let h := s.lH.toNat
    let nm := (h + 15) / 16
    let a := s.lDst.toNat + 3 * (y * s.lW.toNat + x)
    ∃ u : State, execAll (macroblocks (x / 16 * nm + (h - 1 - y) / 16 + 1)) d.atFirstBlock = .next u ∧
      let p : Pixel := u.eng.px[mod16 (h - 1 - y)][mod16 x]
      m.read a = p.b ∧ m.read (a + 1) = p.g ∧ m.read (a + 2) = p.r

/-! ### Arithmetic and samples -/

/-- `a >> n`, the floor of `a / 2^n` (00_scope.md R9). -/
def floorShift (a : Int) (n : Nat) : Int := Int.fdiv a (2 ^ n)

/-- The luma sample of pixel `(x, y)` of a macroblock: Y0 top-left, Y1 top-right, Y2 bottom-left, Y3 bottom-right
(R253). -/
def lumaSample (g : Engine) (y x : Fin 16) : Int :=
  let i : Fin 64 := ⟨y.val % 8 * 8 + x.val % 8, by omega⟩
  if y.val < 8 then (if x.val < 8 then g.sb[2][i] else g.sb[3][i])
  else (if x.val < 8 then g.sb[4][i] else g.sb[5][i])

/-! ### Kinds of instructions -/

/-- An operation of the engine's pipeline: every row but the host's accesses, COMPLETE and DECODE. -/
def isInternal : Instr → Bool
  | .rdReg _ | .wrCtrl _ | .ctrlStart _ | .ctrlSoftReset _ | .wrStatusW1c _ | .wrSrcAddr _ | .wrSrcLen _ => false
  | .wrWidth _ | .wrHeight _ | .wrDstAddr _ | .wrReserved _ _ | .complete | .decode => false
  | .brNew _ | .brReadBit | .brReadBits _ | .brPeekBits _ | .brSkipBits _ | .brHasMore | .blkHdr _ => true
  | .vlcFast01 _ | .vlcFast1 _ | .vlcLcLz2 _ | .vlcLcLz3 _ | .vlcLcLz4 _ | .vlcLcLz5 _ | .vlcLcLz6 _ => true
  | .vlcLcLz7 _ | .vlcLcLz8 _ | .vlcLcLz9 _ | .vlcLcLz10 _ | .escRaw _ _ | .entEob _ | .entEsc _ | .entAc _ => true
  | .rlCnt | .rlMagic | .rlHdr _ _ | .rlEob | .rlAc _ _ | .depack | .huffDecodeNext | .decodeBlock => true
  | .idct8x8 _ | .renderMb => true

/-- The VLC_LC row of a leading-zero count `j + 2` (R154). -/
def lengthInstr (j : Fin 9) (w : Half) : Instr :=
  match j with
  | 0 => .vlcLcLz2 w
  | 1 => .vlcLcLz3 w
  | 2 => .vlcLcLz4 w
  | 3 => .vlcLcLz5 w
  | 4 => .vlcLcLz6 w
  | 5 => .vlcLcLz7 w
  | 6 => .vlcLcLz8 w
  | 7 => .vlcLcLz9 w
  | 8 => .vlcLcLz10 w

/-! ### Runs of steps -/

/-- States a run from `s` reaches. -/
inductive Reaches (s : State) : State → Prop where
  | refl : Reaches s s
  | tail {t u : State} : Reaches s t → step t = .next u → Reaches s u

/-- A run that never stops: no reachable state faults or is refused. -/
def SafeFrom (s : State) : Prop := ∀ t, Reaches s t → goesOn (step t)

end Sys2Proof.Machine
end

