-- ==== Sys2Proof/Certificates/Slice0/Obligations.lean ====
section
/-! DEFINITION. The statements about the model. Each docstring names the rules of spec/ that it formalises; where a
clause rests on a choice of the model, it names the log entry of notes/assumptions/. -/

open Sys2Proof Sys2Proof.Machine

/-! ### A step, and the encodings -/

/-- When the record that comes next decodes to an instruction, the step is that instruction at the state with the
record taken off the inbox (the record form: notes/assumptions/1.md). A record that decodes to none is refused. -/
def Obligations.StepRunsDecodedRecord : Prop :=
  ∀ (s : State) (record : List Byte) (rest : List Event), s.inbox = .op record :: rest →
    (∀ i, Sys2Proof.decode record = .ok i [] → step s = exec i { s with inbox := rest }) ∧
    (∀ e, Sys2Proof.decode record = .reject e → step s = .refused (.badRecord e))

/-- With nothing presented the engine takes its one step while BUSY (47_host_interface.md R308, R310), and an idle core
changes nothing (60_exceptions.md R348). That an empty inbox is the engine's turn is the model's choice (DESIGN CHOICE,
notes/assumptions/1.md), and so is that COMPLETE, not enabled while idle, then leaves the state as it is when it is
presented (DEDUCED, notes/assumptions/16.md). -/
def Obligations.StepWithNothingPresented : Prop :=
  ∀ s : State, s.inbox = [] →
    (s.busy = true → step s = exec .complete s) ∧
    (s.busy = false → step s = .next s ∧ exec .complete s = .next s)

/-- R301: a 32-bit access at a multiple of 4 completes, as the read of that register or the write that R108 decodes;
every other access to the window is refused. -/
def Obligations.WindowAccessAdmission : Prop :=
  ∀ (s : State) (write : Bool) (width off : Nat) (d : Word) (rest : List Event),
    s.inbox = .busAccess write width (s.rom.regBase + off) d :: rest → off < 0x40 →
      (width = 4 ∧ off % 4 = 0 →
        step s = exec (if write then writeInstr (BitVec.ofNat 8 off) d else .rdReg (BitVec.ofNat 8 off))
            { s with inbox := rest } ∧
          goesOn (step s)) ∧
      (¬ (width = 4 ∧ off % 4 = 0) → step s = .refused (.badRecord .accessNotAdmitted))

/-- Every well-formed instruction is read back from its record with every operand. The record form, the payload of the
two position rows and the operands' bounds are the model's choice (notes/assumptions/1.md, 20.md, 25.md). -/
def Obligations.DecodeOfEncode : Prop := ∀ i : Instr, i.wf = true → Sys2Proof.decode (encode i) = .ok i []

/-- The decoder answers well-formed instructions only, and takes bytes from the front. Both are about the model's
record form (DESIGN CHOICE, notes/assumptions/1.md) and the bounds that well-formedness sets (notes/assumptions/25.md),
not about a rule of the spec. -/
def Obligations.DecodedIsWellFormed : Prop :=
  ∀ (bytes : List Byte) (i : Instr) (rest : List Byte), Sys2Proof.decode bytes = .ok i rest →
    i.wf = true ∧ ∃ front, bytes = front ++ rest ∧ Sys2Proof.decode front = .ok i []

/-- Words written out from the spec's encodings, one or more for each layer (R94, R95, R99, R103 to R105, R108). The
words are the spec's; the layer byte before each, the width byte of a host access and the RL position byte are the
model's record form (DESIGN CHOICE, notes/assumptions/1.md), and so is the numbering of the block header's 22 bits in
three bytes (notes/assumptions/25.md). -/
def Obligations.DecodedSpecWords : Prop :=
  -- wr CTRL, 0x1 and wr CTRL, 0x3 and wr WIDTH, 0x10 (R108)
  Sys2Proof.decode [0x01, 0x04, 0x00, 0x01, 0x00, 0x00, 0x00] = .ok (.ctrlStart 0x1) [] ∧
  Sys2Proof.decode [0x01, 0x04, 0x00, 0x03, 0x00, 0x00, 0x00] = .ok (.ctrlSoftReset 0x3) [] ∧
  Sys2Proof.decode [0x01, 0x04, 0x10, 0x10, 0x00, 0x00, 0x00] = .ok (.wrWidth 0x10) [] ∧
  -- rd STATUS
  Sys2Proof.decode [0x00, 0x04, 0x04] = .ok (.rdReg 0x04) [] ∧
  -- windows 1100 0000 ..., 0100 ..., 0010 ..., 0000 0000 0010 0000
  Sys2Proof.decode [0x05, 0x00, 0xC0] = .ok (.vlcFast1 0xC000) [] ∧
  Sys2Proof.decode [0x05, 0x00, 0x40] = .ok (.vlcFast01 0x4000) [] ∧
  Sys2Proof.decode [0x05, 0x00, 0x20] = .ok (.vlcLcLz2 0x2000) [] ∧
  Sys2Proof.decode [0x05, 0x20, 0x00] = .ok (.vlcLcLz10 0x0020) [] ∧
  -- table entries 0x0002FE00 (EOB), 0x00020200 (ESC), 0x00030001 (AC)
  Sys2Proof.decode [0x06, 0x00, 0xFE, 0x02, 0x00] = .ok (.entEob 0x0002FE00) [] ∧
  Sys2Proof.decode [0x06, 0x00, 0x02, 0x02, 0x00] = .ok (.entEsc 0x00020200) [] ∧
  Sys2Proof.decode [0x06, 0x01, 0x00, 0x03, 0x00] = .ok (.entAc 0x00030001) [] ∧
  -- rl.hdr 8, 3 = 0x2003, rl.ac 1, 1 = 0x0401, rl.eob = 0xFE00
  Sys2Proof.decode [0x07, 0x02, 0x03, 0x20] = .ok (.rlHdr 8 3) [] ∧
  Sys2Proof.decode [0x07, 0x03, 0x01, 0x04] = .ok (.rlAc 1 1) [] ∧
  Sys2Proof.decode [0x07, 0x03, 0x00, 0xFE] = .ok .rlEob [] ∧
  -- the escape's raw word 5, 7 = 0x1407
  Sys2Proof.decode [0x04, 0x07, 0x14] = .ok (.escRaw 5 7) [] ∧
  -- hdr q=1 dc=0: 0000000001 0 0000000000 0 = 0x001000
  Sys2Proof.decode [0x03, 0x00, 0x10, 0x00] = .ok (.blkHdr 0x1000) []

/-- R108: the decoding of a host write by its offset and, for CTRL, by its bits (in the model's record form,
notes/assumptions/1.md). -/
def Obligations.CommandWordDecoding : Prop :=
  ∀ d : Word,
    Sys2Proof.decode (hostWriteRecord 4 0x00 d) =
      .ok (if d.getLsbD 1 then .ctrlSoftReset d else if d.getLsbD 0 then .ctrlStart d else .wrCtrl d) [] ∧
    Sys2Proof.decode (hostWriteRecord 4 0x04 d) = .ok (.wrStatusW1c d) [] ∧
    Sys2Proof.decode (hostWriteRecord 4 0x08 d) = .ok (.wrSrcAddr d) [] ∧
    Sys2Proof.decode (hostWriteRecord 4 0x0C d) = .ok (.wrSrcLen d) [] ∧
    Sys2Proof.decode (hostWriteRecord 4 0x10 d) = .ok (.wrWidth d) [] ∧
    Sys2Proof.decode (hostWriteRecord 4 0x14 d) = .ok (.wrHeight d) [] ∧
    Sys2Proof.decode (hostWriteRecord 4 0x18 d) = .ok (.wrDstAddr d) []

/-- R95, R153: a window of at least 0x4000 is in the fast class; any other has 2 to 10 leading zeros, clamped at 10,
and is in the length class of that count. No window is in two classes (in the model's record form,
notes/assumptions/1.md). -/
def Obligations.EveryWindowHasOneClass : Prop :=
  ∀ w : Half,
    (0x8000 ≤ w.toNat → Sys2Proof.decode (windowRecord w) = .ok (.vlcFast1 w) []) ∧
    (0x4000 ≤ w.toNat → w.toNat < 0x8000 → Sys2Proof.decode (windowRecord w) = .ok (.vlcFast01 w) []) ∧
    (∀ j : Fin 9, j < 8 → 2 ^ (15 - (j.val + 2)) ≤ w.toNat → w.toNat < 2 ^ (16 - (j.val + 2)) →
      Sys2Proof.decode (windowRecord w) = .ok (lengthInstr j w) []) ∧
    (w.toNat < 2 ^ 6 → Sys2Proof.decode (windowRecord w) = .ok (lengthInstr 8 w) []) ∧
    (∀ i : Instr, i.wf = true → encode i = windowRecord w → Sys2Proof.decode (windowRecord w) = .ok i [])

/-- R99: the class of a table entry by its low 16 bits, in the order of the table. R103 to R106: an RL word's kind is its
position; header and AC words carry 6 high bits and 10 low bits, and 0xFE00 is EOB in AC position only. The record form,
with its number for the position, and that the first two rows take any word are the model's choice
(notes/assumptions/1.md, 20.md). -/
def Obligations.EntryAndRlWordKinds : Prop :=
  (∀ e : Word, Sys2Proof.decode (entryRecord e) =
    .ok (if e.toNat % 2 ^ 16 = 0xFE00 then .entEob e
      else if e.toNat % 2 ^ 10 = 0x200 then .entEsc e else .entAc e) []) ∧
  ∀ w : Half,
    Sys2Proof.decode (rlRecord 0 w) = .ok .rlCnt [] ∧
    Sys2Proof.decode (rlRecord 1 w) = .ok .rlMagic [] ∧
    Sys2Proof.decode (rlRecord 2 w) = .ok (.rlHdr (BitVec.ofNat 6 (w.toNat / 2 ^ 10)) (BitVec.ofNat 10 w.toNat)) [] ∧
    Sys2Proof.decode (rlRecord 3 w) =
      .ok (if w.toNat = 0xFE00 then .rlEob
        else .rlAc (BitVec.ofNat 6 (w.toNat / 2 ^ 10)) (BitVec.ofNat 10 w.toNat)) []

/-! ### Reset -/

/-- R371: what reset leaves, in the state after power-on reset. The buffers, which the rule leaves unspecified, are not
named here. -/
def Obligations.ResetStateValues : Prop :=
  State.reset.irqEn = false ∧ State.reset.busy = false ∧ State.reset.done = false ∧ State.reset.err = false ∧
  State.reset.errCode = 0 ∧ State.reset.srcAddr = 0 ∧ State.reset.srcLen = 0 ∧ State.reset.width = 0 ∧
  State.reset.height = 0 ∧ State.reset.dstAddr = 0 ∧ State.reset.lSrc = 0 ∧ State.reset.lLen = 0 ∧
  State.reset.lW = 0 ∧ State.reset.lH = 0 ∧ State.reset.lDst = 0 ∧ State.reset.irq = false ∧
  State.reset.rom = Config.rom ∧ State.reset.mem = []

/-- R370, R304: SOFT_RESET, whatever else the write carries, and power-on reset do the same thing to every state: the
host registers and latches become 0, the constants stay; while idle memory stays too, and every admitted register then
reads 0 (R371, R372). -/
def Obligations.ResetFromAnyState : Prop :=
  ∀ (s : State) (d : Word), d.getLsbD 1 = true →
    (∀ rest, s.inbox = .powerOnReset :: rest → step s = exec (.ctrlSoftReset d) { s with inbox := rest }) ∧
    ∃ (m : Memory) (g : Engine) (old : List UnseenRange) (t : State),
      exec (.ctrlSoftReset d) s = .next t ∧
      t = { State.reset with
              rom := s.rom, mem := m, eng := g, unseenOld := old, hostData := s.hostData, inbox := s.inbox } ∧
      t.irq = false ∧ (s.busy = false → m = s.mem) ∧
      ∀ off, registerOffset off = true → ∃ u, exec (.rdReg off) t = .next u ∧ u.hostData = 0

/-- Derived from R373: a reset while BUSY reports nothing; each byte of the abandoned decode's pixel range becomes a
free byte, or is unchanged if the decode would have failed with an error; no other byte changes. The model's choice
(DEDUCED, notes/assumptions/14.md): a decode that would have been stuck or refused, and one that would have failed but
whose chunk the host has written, leave their range free too, and a byte the platform does not admit is not memory. So is
that a byte of the chunk range which is in the pixel range too becomes free (DESIGN CHOICE, notes/assumptions/37.md). -/
def Obligations.ResetDuringDecode : Prop :=
  ∀ (s t : State) (d : Word), s.busy = true → s.mem.wf → exec (.ctrlSoftReset d) s = .next t →
    t.busy = false ∧ t.done = false ∧ t.err = false ∧
    (∀ a, ¬ (s.inPixels a = true ∧ admits s.rom a = true) → t.mem.read a = s.mem.read a) ∧
    ((∀ e, s.decode ≠ .raise e) ∨ s.chunkRaced = true →
      ∀ a, s.inPixels a = true → admits s.rom a = true →
        ∃ n, s.eng.draws ≤ n ∧ t.mem.read a = Config.freeByte n) ∧
    (s.chunkRaced = false → (∃ e, s.decode = .raise e) → t.mem = s.mem)

/-! ### Host registers -/

/-- R300: a read returns the register's value and changes nothing the spec names (the host's data and the bookkeeping
of what the host has seen are the model's own, notes/assumptions/4.md, 12.md). -/
def Obligations.RegisterRead : Prop :=
  (∀ (s : State) (off : Byte), registerOffset off = true → ∃ t : State, exec (.rdReg off) s = .next t ∧
    t.hostData.toNat =
      (if off = 0x00 then 4 * s.irqEn.toNat
       else if off = 0x04 then 16 * s.errCode.toNat + 4 * s.err.toNat + 2 * s.done.toNat + s.busy.toNat
       else if off = 0x08 then s.srcAddr.toNat
       else if off = 0x0C then s.srcLen.toNat
       else if off = 0x10 then s.width.toNat
       else if off = 0x14 then s.height.toNat
       else if off = 0x18 then s.dstAddr.toNat
       else 0) ∧
    t = { s with hostData := t.hostData, unseen := t.unseen, unseenOld := t.unseenOld } ∧
    (s.Inv → s.busy = true → off = 0x04 → t.hostData = 0x1)) ∧
  (∀ off, registerOffset off = true → ∃ t, exec (.rdReg off) State.reset = .next t ∧ t.hostData = 0)

/-- R302: a CTRL write with `d[1] = 0` sets IRQ_EN and, with `d[0] = 0`, does nothing else; with `d[1] = 1` the reset
applies and nothing else of `d` takes effect. -/
def Obligations.WriteCtrl : Prop :=
  ∀ (s : State) (d : Word),
    (d.getLsbD 0 = false → d.getLsbD 1 = false →
      exec (.wrCtrl d) s = .next { s with irqEn := d.getLsbD 2 }) ∧
    (d.getLsbD 0 = true → d.getLsbD 1 = false →
      ∃ t : State, exec (.ctrlStart d) s = .next t ∧ t.irqEn = d.getLsbD 2) ∧
    (d.getLsbD 1 = true → exec (.ctrlSoftReset d) s = exec (.ctrlSoftReset 0x2) s)

/-- R303: START latches the five parameters, clears the report and sets BUSY; while BUSY it starts nothing. The fields for
races and for what the host has seen are the model's own (notes/assumptions/12.md, 13.md). -/
def Obligations.StartDecode : Prop :=
  ∀ (s : State) (d : Word), d.getLsbD 0 = true → d.getLsbD 1 = false →
    (s.busy = true → exec (.ctrlStart d) s = .next { s with irqEn := d.getLsbD 2 }) ∧
    (s.busy = false → ∃ (t : State) (old : List UnseenRange), exec (.ctrlStart d) s = .next t ∧
      t = { s with
              irqEn := d.getLsbD 2
              lSrc := s.srcAddr, lLen := s.srcLen, lW := s.width, lH := s.height, lDst := s.dstAddr
              done := false, err := false, errCode := 0, busy := true
              chunkRaced := false, pixRaced := [], unseen := .nothing, unseenOld := old } ∧
      t.irq = false)

/-- R306: DONE and ERR are cleared by writing 1, each on its own; ERRCODE goes with ERR; every other bit is ignored.
While BUSY the write does nothing, and clearing DONE lowers the interrupt line. -/
def Obligations.AcknowledgeStatus : Prop :=
  ∀ (s : State) (d : Word), ∃ t : State,
    exec (.wrStatusW1c d) s = .next t ∧
    t = { s with
            done := if d.getLsbD 1 then false else s.done
            err := if d.getLsbD 2 then false else s.err
            errCode := if d.getLsbD 2 then 0 else s.errCode } ∧
    (d.getLsbD 1 = true → t.irq = false) ∧
    (s.Inv → s.busy = true → t = s)

/-- R307: a parameter write stores its data, also while BUSY, and checks no value. -/
def Obligations.WriteParameters : Prop :=
  ∀ (s : State) (d : Word),
    exec (.wrSrcAddr d) s = .next { s with srcAddr := d } ∧
    exec (.wrSrcLen d) s = .next { s with srcLen := d } ∧
    exec (.wrWidth d) s = .next { s with width := d } ∧
    exec (.wrHeight d) s = .next { s with height := d } ∧
    exec (.wrDstAddr d) s = .next { s with dstAddr := d }

/-- R29: reserved offsets read 0 and ignore writes; the reserved bits of CTRL and STATUS read 0 and ignore writes. -/
def Obligations.ReservedOffsetsAndBits : Prop :=
  ∀ (s : State) (off : Byte) (d : Word),
    (off.toNat % 4 = 0 → 0x1C ≤ off.toNat → off.toNat ≤ 0x3C →
      exec (.wrReserved off d) s = .next s ∧ ∃ t : State, exec (.rdReg off) s = .next t ∧ t.hostData = 0) ∧
    (∃ t : State, exec (.rdReg 0x00) s = .next t ∧ t.hostData &&& 0xFFFFFFF8 = 0) ∧
    (∃ t : State, exec (.rdReg 0x04) s = .next t ∧ t.hostData &&& 0xFFFFFF08 = 0) ∧
    exec (.wrCtrl d) s = exec (.wrCtrl (d &&& 0x7)) s ∧
    exec (.ctrlStart d) s = exec (.ctrlStart (d &&& 0x7)) s ∧
    exec (.wrStatusW1c d) s = exec (.wrStatusW1c (d &&& 0x6)) s

/-- R338, R40: the line is DONE and IRQ_EN; COMPLETE sets DONE, the acknowledgement, an accepted START and SOFT_RESET
clear it, and IRQ_EN masks without clearing. -/
def Obligations.InterruptLine : Prop :=
  ∀ (s : State) (d : Word),
    State.reset.irq = false ∧
    (s.irq = true ↔ s.done = true ∧ s.irqEn = true) ∧
    (∀ t, s.busy = true → exec .complete s = .next t → t.done = true ∧ t.irq = s.irqEn) ∧
    (∀ t, exec (.wrStatusW1c d) s = .next t → d.getLsbD 1 = true → t.done = false ∧ t.irq = false) ∧
    (∀ t, exec (.ctrlStart d) s = .next t → s.busy = false → t.done = false ∧ t.irq = false) ∧
    (∀ t, exec (.ctrlSoftReset d) s = .next t → t.done = false ∧ t.irq = false) ∧
    (∀ t, exec (.wrCtrl d) s = .next t → t.done = s.done ∧ (t.irq = true ↔ s.done = true ∧ d.getLsbD 2 = true))

/-! ### The engine's step -/

/-- R333: a decode that meets every condition completes with BUSY 0 and DONE 1, leaving ERR and ERRCODE; STATUS then
reads 0x2. No register or constant changes, and no byte outside the pixel range (20_memory.md R62, R76). That the
latches keep their values, that the host has yet to see the result (`unseen`) and that the notes of races end here are
the model's choice (notes/assumptions/29.md, 12.md, 13.md). -/
def Obligations.CompleteReportsSuccess : Prop :=
  ∀ s : State, s.busy = true → s.Decodable → ∃ t : State,
    exec .complete s = .next t ∧
    t = { s with
            busy := false, done := true, unseen := .written, eng := t.eng, mem := t.mem
            chunkRaced := false, pixRaced := [] } ∧
    (s.Inv → (statusWord t).toNat = 0x2) ∧
    ((∀ b ∈ s.pixRaced, s.inPixels b = true) →
      ∀ a, ¬ (s.lDst.toNat ≤ a ∧ a < s.lDst.toNat + 3 * s.lW.toNat * s.lH.toNat) → t.mem.read a = s.mem.read a)

/-- R332, R334, R337: the first of the three checks that fails is the error reported, before the dimension limits and
before any pixel byte; STATUS reads `0x6 | (code << 4)`, and memory is exactly as it was where no host access raced. That
the latches keep their values, that the host has yet to see the end (`unseen`) and that the notes of races end here are
the model's choice (notes/assumptions/29.md, 12.md, 13.md). -/
def Obligations.CompleteReportsError : Prop :=
  ∀ s : State, s.busy = true → s.chunkAdmitted = true →
    ∀ code : BitVec 4,
      (s.lLen.toNat < 8 ∧ code = 3 ∨
        8 ≤ s.lLen.toNat ∧ chunkWord s 2 ≠ 0x3800 ∧ code = 1 ∨
        s.GoodChunk ∧ (s.lW.toInt ≤ 0 ∨ s.lH.toInt ≤ 0) ∧ code = 2) →
      ∃ t : State, exec .complete s = .next t ∧
        t = { s with
                busy := false, done := true, err := true, errCode := code, unseen := .failed
                eng := t.eng, mem := t.mem, chunkRaced := false, pixRaced := [] } ∧
        (statusWord t).toNat = 0x6 + 16 * code.toNat ∧
        (s.Unraced → t.mem = s.mem)

/-- Derived from R69: without the chunk range, or without the pixel range of a decode that reaches the compositor, the
engine has no step; a range that ends past 2^32 is not admitted. That a chunk that is too short or has a wrong magic is
stuck too, and no error, where its range is not admitted is the model's choice (DEDUCED, notes/assumptions/10.md). -/
def Obligations.CompleteStuck : Prop :=
  ∀ s : State, s.busy = true →
    ((∃ i, i < s.lLen.toNat ∧ admits s.rom (s.lSrc.toNat + i) = false) →
      exec .complete s = .fault .chunkNotAdmitted) ∧
    (0 < s.lLen.toNat → 2 ^ 32 < s.lSrc.toNat + s.lLen.toNat → exec .complete s = .fault .chunkNotAdmitted) ∧
    (s.GoodChunk → s.GoodSize →
      (∃ i, i < 3 * s.lW.toNat * s.lH.toNat ∧ admits s.rom (s.lDst.toNat + i) = false) →
      exec .complete s = .fault .pixelsNotAdmitted) ∧
    (s.GoodChunk → s.GoodSize → 2 ^ 32 < s.lDst.toNat + 3 * s.lW.toNat * s.lH.toNat →
      exec .complete s = .fault .pixelsNotAdmitted)

/-- Derived from R281: dimensions above the limits, after the check of R271, are refused. That they are refused and not
stuck where the pixel range is not admitted is the model's choice (DEDUCED, notes/assumptions/11.md). -/
def Obligations.DimensionsAboveLimitRefused : Prop :=
  ∀ s : State, s.GoodChunk → 0 < s.lW.toInt → 0 < s.lH.toInt →
    ((s.rom.maxWidth : Int) < s.lW.toInt ∨ (s.rom.maxHeight : Int) < s.lH.toInt) →
    exec .decode s = .refused .dimensionsAboveLimit ∧
    (s.busy = true → exec .complete s = .refused .dimensionsAboveLimit)

/-- R30: COMPLETE reads the latched copies only: other parameter registers change neither its outcome nor anything in
it. -/
def Obligations.CompleteUsesLatchedParameters : Prop :=
  ∀ (s : State) (a l w h d : Word),
    exec .complete { s with srcAddr := a, srcLen := l, width := w, height := h, dstAddr := d } =
      match exec .complete s with
      | .next t => .next { t with srcAddr := a, srcLen := l, width := w, height := h, dstAddr := d }
      | .fault f => .fault f
      | .refused r => .refused r

/-- Derived from R78: while BUSY, (1) a host read in the pixel range returns a free byte; (2) a host write to the chunk
range makes every pixel byte free at completion, with success or error, and leaves STATUS as the decode gives it; (3) a
host write to a pixel byte makes that byte free at completion. That the writes are noted and settled at completion, also
of a decode that fails, is the model's choice (DEDUCED, notes/assumptions/13.md). A note stands through every step until
COMPLETE answers or a reset abandons the decode. -/
def Obligations.HostRacesWithDecode : Prop :=
  ∀ s : State, s.busy = true → s.mem.wf →
    (∀ (a : Nat) (rest : List Event), s.inbox = .memRead a :: rest → s.inPixels a = true → admits s.rom a = true →
      ∃ (t : State) (n : Nat), step s = .next t ∧ t.hostData = (Config.freeByte n).setWidth 32 ∧ t.mem = s.mem) ∧
    (∀ (a : Nat) (v : Byte) (rest : List Event), s.inbox = .memWrite a v :: rest → admits s.rom a = true →
      ∃ t : State, step s = .next t ∧
        (s.inChunk a = true → t.chunkRaced = true) ∧ (s.inPixels a = true → a ∈ t.pixRaced)) ∧
    (s.chunkRaced = true → ∀ t : State, exec .complete s = .next t →
      (∃ u : State, exec .complete { s with chunkRaced := false } = .next u ∧ statusWord t = statusWord u) ∧
      ∀ a, s.inPixels a = true → admits s.rom a = true → ∃ n, t.mem.read a = Config.freeByte n) ∧
    (∀ a, a ∈ s.pixRaced → s.inPixels a = true → admits s.rom a = true →
      ∀ t : State, exec .complete s = .next t → ∃ n, t.mem.read a = Config.freeByte n) ∧
    ∀ t : State, step s = .next t →
      (∃ q, exec .complete { s with inbox := q } = .next t) ∨
      (∃ q, exec (.ctrlSoftReset 0x2) { s with inbox := q } = .next t) ∨
      (t.busy = true ∧ (s.chunkRaced = true → t.chunkRaced = true) ∧ ∀ a, a ∈ s.pixRaced → a ∈ t.pixRaced)

/-- R71, R377: until the host has read STATUS with DONE = 1, a read of a pixel byte returns any value, after an error too,
and changes no memory, and a write after an error stands (R71 (2)). Once it has read that of a decode that succeeded, it
reads the bytes as the decode left them, and reading or writing one is an ordinary access; having read that of one that
failed, which wrote nothing, the same holds but for a byte of an earlier decode whose own DONE = 1 it never read, which
reads as any value still. How the model keeps what is unseen: DEDUCED, notes/assumptions/12.md. -/
def Obligations.PixelsVisibleAfterDone : Prop :=
  ∀ s t : State, s.busy = false → s.done = true → s.unseen ≠ .nothing → exec (.rdReg 0x04) s = .next t →
    ∀ (a : Nat) (rest : List Event), s.inPixels a = true → admits s.rom a = true →
      (∃ (u : State) (n : Nat), step { s with inbox := .memRead a :: rest } = .next u ∧
        u.hostData = (Config.freeByte n).setWidth 32 ∧ u.mem = s.mem) ∧
      (s.unseen = .failed → (∀ r ∈ s.unseenOld, r.wrote = true → r.covers a = false) → ∀ v : Byte,
        step { s with inbox := .memWrite a v :: rest } = .next { s with inbox := rest, mem := s.mem.write a v }) ∧
      (s.unseen = .written ∨ s.inUnseenOld a = false →
        (∃ u, step { t with inbox := .memRead a :: rest } = .next u ∧
          u.hostData = (s.mem.read a).setWidth 32 ∧ u.mem = s.mem) ∧
        ∀ v : Byte, step { t with inbox := .memWrite a v :: rest } =
          .next { t with inbox := rest, mem := s.mem.write a v }) ∧
      (s.unseen = .failed → s.inUnseenOld a = true →
        ∃ (u : State) (n : Nat), step { t with inbox := .memRead a :: rest } = .next u ∧
          u.hostData = (Config.freeByte n).setWidth 32 ∧ u.mem = s.mem)

/-- R60, R61, R71: a host access to system memory outside a running decode's pixel range. A read returns the byte where no
decode left unseen has it; a write changes that byte and no other where no unseen decode has written it (so after a
failed one it stands, R71 (2)), and races with a running decode exactly where it is in its chunk. Past 2^32 there is no
address; an address the platform does not back with memory is refused (20_memory.md R67; the stops are DEDUCED,
notes/assumptions/17.md, and so is how the model keeps what is unseen, notes/assumptions/12.md). -/
def Obligations.HostMemoryAccess : Prop :=
  ∀ (s : State) (a : Nat) (rest : List Event),
    (2 ^ 32 ≤ a →
      (s.inbox = .memRead a :: rest → step s = .fault .noSuchAddress) ∧
      ∀ v, s.inbox = .memWrite a v :: rest → step s = .fault .noSuchAddress) ∧
    (a < 2 ^ 32 → admits s.rom a = false →
      (s.inbox = .memRead a :: rest → step s = .refused .notOrdinaryMemory) ∧
      ∀ v, s.inbox = .memWrite a v :: rest → step s = .refused .notOrdinaryMemory) ∧
    (admits s.rom a = true → (s.busy = true → s.inPixels a = false) →
      ((s.unseen ≠ .nothing → s.inPixels a = false) → (∀ r ∈ s.unseenOld, r.covers a = false) →
        s.inbox = .memRead a :: rest →
        step s = .next { s with inbox := rest, hostData := (s.mem.read a).setWidth 32 }) ∧
      ((s.unseen = .written → s.inPixels a = false) →
        (∀ r ∈ s.unseenOld, r.wrote = true → r.covers a = false) →
        s.mem.wf → ∀ v, s.inbox = .memWrite a v :: rest → ∃ t : State, step s = .next t ∧
        t = { s with inbox := rest, mem := t.mem, chunkRaced := t.chunkRaced } ∧
        t.chunkRaced = (s.chunkRaced || (s.busy && s.inChunk a)) ∧
        ∀ b, t.mem.read b = if b = a then v else s.mem.read b))

/-! ### The BitReader -/

/-- R131, R135, R136: a new reader, a skip of any length, and the test for unread input (what an operation returns is
held in the model's own `res`, notes/assumptions/4.md). -/
def Obligations.ReaderCreateSkipAndMore : Prop :=
  ∀ s : State,
    (∀ start : Nat, exec (.brNew start) s = .next (s.setEng { s.eng with
      br := { start := start, pos := 0
              nwords := if start ≤ s.lLen.toNat then (s.lLen.toNat - start) / 2 else 0 } })) ∧
    (∀ n : Nat, exec (.brSkipBits n) s = .next (s.setEng { s.eng with
      br := { s.eng.br with pos := s.eng.br.pos + n } })) ∧
    exec .brHasMore s = .next (s.setEng { s.eng with res := if s.eng.br.pos < inputBits s then 1 else 0 })

/-- R132 to R134: the bits a read or a peek returns, and how far each moves the cursor. R138: reads and peeks of more
than 16 bits are refused. What an operation returns is held in the model's own `res` (notes/assumptions/4.md). -/
def Obligations.ReaderReadsAndPeeks : Prop :=
  (∀ (s : State) (n : Nat), 16 < n →
    exec (.brReadBits n) s = .refused .readTooWide ∧ exec (.brPeekBits n) s = .refused .readTooWide) ∧
  ∀ (s : State) (n : Nat), s.chunkAdmitted = true → n ≤ 16 →
    nextBits s n < 2 ^ n ∧
    exec .brReadBit s = .next (s.setEng { s.eng with
      res := streamBit s s.eng.br.pos, br := { s.eng.br with pos := s.eng.br.pos + 1 } }) ∧
    exec (.brReadBits n) s = .next (s.setEng { s.eng with
      res := nextBits s n, br := { s.eng.br with pos := s.eng.br.pos + n } }) ∧
    exec (.brPeekBits n) s = .next (s.setEng { s.eng with res := nextBits s n })

/-! ### The Huffman codebook -/

/-- R152 to R157: a window of the fast class reads `FAST[(w[15:12] - 4) * 2]`; a window of a length class reads table
`LC[LC_SEL[lz]]` at the `LC_NBITS` bits after the first `lz`, masked; an index past the end reads the last entry; the
reader advances by the entry's count. That the result is held in the model's own `huff`, and that a row takes its operand
as the window whatever the bits at the cursor, are the model's choice (DESIGN CHOICE, notes/assumptions/30.md, 33.md). -/
def Obligations.LookupByWindowClass : Prop :=
  ∀ (s : State) (w : Half),
    (4 ≤ w.toNat / 2 ^ 12 →
      exec (.vlcFast01 w) s = .next (s.setEng (s.eng.afterLookup s.rom.fast ((w.toNat / 2 ^ 12 - 4) * 2))) ∧
      exec (.vlcFast1 w) s = .next (s.setEng (s.eng.afterLookup s.rom.fast ((w.toNat / 2 ^ 12 - 4) * 2)))) ∧
    ∀ j : Fin 9,
      exec (lengthInstr j w) s = .next (s.setEng (s.eng.afterLookup s.rom.lc[s.rom.lcSel[j]]
        ((((w.toNat <<< (j.val + 2)) &&& 0xFFFF) >>> (16 - (s.rom.lcNbits[s.rom.lcSel[j]]).val))
          &&& (s.rom.lcMask[s.rom.lcSel[j]]).toNat)))

/-- R150, R151: HUFF_DECODE_NEXT does what the row of the 16 bits at the cursor does (the result in the model's own
`huff`, notes/assumptions/30.md). -/
def Obligations.HuffDecodeNextRunsItsWindow : Prop :=
  ∀ s : State, s.chunkAdmitted = true → ∃ t : State,
    exec .huffDecodeNext s = .next t ∧ exec (windowInstr (BitVec.ofNat 16 (nextBits s 16))) s = .next t

/-! ### The depacker -/

/-- Derived from R177, R178: a block header of 22 bits, in both orders of its fields and both packings of the scale. The
numbering of the operand's bits, the first of the stream in bit 21, that the row acts inside a block too, and that it takes
its operand as the header whatever the bits at the cursor are the model's choice (DESIGN CHOICE,
notes/assumptions/25.md, 31.md, 33.md). -/
def Obligations.BlockHeaderPacking : Prop :=
  ∀ (s : State) (h : BitVec 22), s.depackGoes →
    ∀ (qm dm : Nat) (qs ds : Bool),
      (s.rom.hdrSignFirst = false →
        h.toNat = qm * 2 ^ 12 + qs.toNat * 2 ^ 11 + dm * 2 + ds.toNat) →
      (s.rom.hdrSignFirst = true →
        h.toNat = qs.toNat * 2 ^ 21 + qm * 2 ^ 11 + ds.toNat * 2 ^ 10 + dm) →
      qm < 2 ^ 10 → dm < 2 ^ 10 →
      ∃ (r : RlStream) (w : Half),
        exec (.blkHdr h) s = .next (s.setEng { s.eng with
          br := { s.eng.br with pos := s.eng.br.pos + 22 }, rl := r, inBlock := true }) ∧
        RlWrites s.eng.rl w r ∧
        (w.toNat : Int) =
          (match s.rom.qscalePack with
            | .magnitude => ((qm : Int) % 64)
            | .twos => ((if qs then -(qm : Int) else qm) % 64)) * 1024
          + (if ds then -(dm : Int) else dm) % 1024

/-- R180: an EOB entry writes 0xFE00 and ends the block. R182: an AC entry writes its low 16 bits, whatever the run.
R181, R100: an escape's raw word is the next 16 bits, written verbatim, and the block goes on. Derived: that ENT_ESC reads
the raw word itself, that ESC_RAW does the same with its operand, and that the entry rows do not move the reader by
`consumed` is the model's split of R170's pass (DESIGN CHOICE, notes/assumptions/21.md), and so is that they act outside
a block too (notes/assumptions/31.md) and with the entry they are given (notes/assumptions/33.md). -/
def Obligations.EntryEffects : Prop :=
  ∀ (s : State) (e : Word), s.eng.rl.o < s.eng.rl.cap →
    (∃ r, exec (.entEob e) s = .next (s.setEng { s.eng with rl := r, inBlock := false }) ∧
      RlWrites s.eng.rl 0xFE00 r) ∧
    (∃ r, exec (.entAc e) s = .next (s.setEng { s.eng with rl := r }) ∧
      RlWrites s.eng.rl (BitVec.ofNat 16 e.toNat) r) ∧
    (s.chunkAdmitted = true → ∃ r, exec (.entEsc e) s = .next (s.setEng { s.eng with
        br := { s.eng.br with pos := s.eng.br.pos + 16 }, rl := r }) ∧
      RlWrites s.eng.rl (BitVec.ofNat 16 (nextBits s 16)) r) ∧
    (∀ (run : BitVec 6) (lvl : BitVec 10), ∃ r, exec (.escRaw run lvl) s = .next (s.setEng { s.eng with
        br := { s.eng.br with pos := s.eng.br.pos + 16 }, rl := r }) ∧
      RlWrites s.eng.rl (BitVec.ofNat 16 (run.toNat * 2 ^ 10 + lvl.toNat)) r)

/-- With no capacity left, no element writes a word or consumes a bit, and with no input left a header does neither
(derived from the guards R176, R179; as single operations, and whatever the depacker's position: DESIGN CHOICE,
notes/assumptions/19.md, 31.md). The other elements do act with capacity and without input. -/
def Obligations.ExhaustionStopsElements : Prop :=
  ∀ (s : State) (h : BitVec 22) (e : Word) (run : BitVec 6) (lvl : BitVec 10),
    (¬ s.depackGoes → exec (.blkHdr h) s = .next s) ∧
    (s.eng.rl.cap ≤ s.eng.rl.o →
      exec (.entAc e) s = .next s ∧ exec (.entEsc e) s = .next s ∧ exec (.escRaw run lvl) s = .next s ∧
      exec (.entEob e) s = .next (s.setEng { s.eng with inBlock := false }))

/-- R174, R102: word 0 is `min(cap, 0xFFFF)`, word 1 the magic; no other word changes. That the rows take any word and
leave the write index as it is, which R170 sets to 2 beside them, is the model's choice (DESIGN CHOICE,
notes/assumptions/20.md). -/
def Obligations.CountAndMagicWords : Prop :=
  ∀ s : State, 2 ≤ s.eng.rl.cap →
    (∃ r : RlStream, exec .rlCnt s = .next (s.setEng { s.eng with rl := r }) ∧
      (r.read 0).toNat = min s.eng.rl.cap 0xFFFF ∧ r.cap = s.eng.rl.cap ∧ r.o = s.eng.rl.o ∧
      ∀ i, i ≠ 0 → r.read i = s.eng.rl.read i) ∧
    (∃ r : RlStream, exec .rlMagic s = .next (s.setEng { s.eng with rl := r }) ∧
      r.read 1 = 0x3800 ∧ r.cap = s.eng.rl.cap ∧ r.o = s.eng.rl.o ∧
      ∀ i, i ≠ 1 → r.read i = s.eng.rl.read i)

/-- R171, R172: the two errors of DEPACK, as a single operation: the error is returned (in the model's own field,
notes/assumptions/18.md) and nothing else changes; DECODE returns the same. -/
def Obligations.DepackErrors : Prop :=
  ∀ s : State, s.chunkAdmitted = true →
    (s.lLen.toNat < 8 →
      exec .depack s = .next (s.setEng { s.eng with raised := some .truncatedStream }) ∧
      exec .decode s = .next (s.setEng { s.eng with raised := some .truncatedStream })) ∧
    (8 ≤ s.lLen.toNat → chunkWord s 2 ≠ 0x3800 →
      exec .depack s = .next (s.setEng { s.eng with raised := some .malformedStream }) ∧
      exec .decode s = .next (s.setEng { s.eng with raised := some .malformedStream }))

/-- R170, R175, R176, R179, R183: DEPACK of a good chunk is the elements found at the bit cursor, taken one after
another from a fresh stream of `max(16, 2 * length)` words and a reader at byte 8, then EOB padding. The factor 2 is
PRESUMED (notes/assumptions/8.md), the fresh stream DEDUCED (notes/assumptions/22.md), and the rows' split of a pass
and the fields that hold their results DESIGN CHOICE (notes/assumptions/21.md, 30.md, 31.md). -/
def Obligations.DepackIsItsElements : Prop :=
  ∀ s : State, s.GoodChunk → ∃ s0 u t : State,
    s0 = s.setEng { s.eng with
      br := { start := 8, pos := 0, nwords := (s.lLen.toNat - 8) / 2 }
      rl := s0.eng.rl, inBlock := false, raised := none } ∧
    s0.eng.rl.cap = max 16 (2 * chunkWord s 0) ∧ s0.eng.rl.o = 2 ∧
    (s0.eng.rl.read 0).toNat = min s0.eng.rl.cap 0xFFFF ∧ s0.eng.rl.read 1 = 0x3800 ∧
    DepackRuns s0 u ∧
    exec .depack s = .next t ∧
    t = s.setEng { u.eng with rl := t.eng.rl } ∧
    t.eng.rl.cap = u.eng.rl.cap ∧ t.eng.rl.o = t.eng.rl.cap ∧
    (∀ i, i < u.eng.rl.o → t.eng.rl.read i = u.eng.rl.read i) ∧
    (∀ i, u.eng.rl.o ≤ i → t.eng.rl.read i = 0xFE00)

/-- R173, R184: the stream DEPACK leaves has exactly `cap` words, at least 16 and at most 131070, each written (the factor
2 of the capacity is PRESUMED, notes/assumptions/8.md). -/
def Obligations.DepackedStreamShape : Prop :=
  ∀ s : State, s.GoodChunk → ∃ t : State, exec .depack s = .next t ∧
    t.eng.rl.cap = max 16 (2 * chunkWord s 0) ∧ 16 ≤ t.eng.rl.cap ∧ t.eng.rl.cap ≤ 131070 ∧
    t.eng.rl.words.length = t.eng.rl.cap ∧ t.eng.rl.o = t.eng.rl.cap ∧
    (t.eng.rl.read 0).toNat = min t.eng.rl.cap 0xFFFF ∧ t.eng.rl.read 1 = 0x3800

/-! ### The IQ table and the block decoder -/

/-- R200, R202, R203: the tables by their formulas where the exact values fit s32, and no entry below 1 ever. -/
def Obligations.IqTableValues : Prop :=
  ∀ (rom : Config.Rom) (i : Fin 64),
    let p : Int := rom.aanF[i.val / 8] * rom.aanF[i.val % 8]
    let q : Int := rom.baseQuant[i] * aanScale rom i
    1 ≤ iq rom i ∧
    (p + 8192 < 2 ^ 31 → aanScale rom i = floorShift (p + 8192) 14) ∧
    (p + 8192 < 2 ^ 31 → q + 2048 < 2 ^ 31 → iq rom i = max (1 : Int) (floorShift (q + 2048) 12))

/-- R206, R207: a header word clears the block, sets the DC to `IQ[0] * dc`, and starts at `k = 0`; a DC outside s32 is
any s32 value (R213). R208: EOB in AC position ends the block and moves the cursor past it. That the rows do so at every
state, inside a block or not, and with the word of the row whatever word stands at the cursor, is the model's choice
(DESIGN CHOICE, notes/assumptions/28.md, 32.md, 33.md), and so is the row's share of R204's pass
(notes/assumptions/35.md). -/
def Obligations.HeaderAndEobWordEffects : Prop :=
  ∀ (s : State) (qs : BitVec 6) (dc : BitVec 10), ∃ fb : Vector Int 64,
    exec .rlEob s = .next (s.setEng { s.eng with
      blk := { s.eng.blk with c := s.eng.blk.c + 1, inside := false } }) ∧
    exec (.rlHdr qs dc) s = .next (s.setEng { s.eng with
      blk := { fb := fb, qs := qs, k := 0, c := s.eng.blk.c + 1, inside := true }, draws := s.eng.draws + 1 }) ∧
    (∀ i : Fin 64, i ≠ 0 → fb[i] = 0) ∧
    (-2 ^ 31 ≤ iq s.rom 0 * dc.toInt → iq s.rom 0 * dc.toInt < 2 ^ 31 → fb[0] = iq s.rom 0 * dc.toInt) ∧
    -2 ^ 31 ≤ fb[0] ∧ fb[0] < 2 ^ 31

/-- R209, R210: an AC word moves to `k + run + 1` and, below 64, writes `(IQ[zz] * qs * lvl) >> 3` at `ZIGZAG[k]`; no
other coefficient changes. Outside s32 the coefficient is any s32 value (R213). Derived: that the row does so at every
state, inside a block or not, and with the word of the row whatever word stands at the cursor, is the model's choice
(DESIGN CHOICE, notes/assumptions/28.md, 32.md, 33.md), and so is the row's share of R204's pass
(notes/assumptions/35.md). -/
def Obligations.AcWordEffect : Prop :=
  ∀ (s : State) (run : BitVec 6) (lvl : BitVec 10) (h : s.eng.blk.k + run.toNat + 1 < 64),
    let zz : Fin 64 := s.rom.zigzag[s.eng.blk.k + run.toNat + 1]
    let p : Int := iq s.rom zz * s.eng.blk.qs.toNat
    ∃ fb : Vector Int 64,
      exec (.rlAc run lvl) s = .next (s.setEng { s.eng with
        blk := { s.eng.blk with fb := fb, k := s.eng.blk.k + run.toNat + 1, c := s.eng.blk.c + 1 }
        draws := s.eng.draws + 1 }) ∧
      (∀ i : Fin 64, i ≠ zz → fb[i] = s.eng.blk.fb[i]) ∧
      (p < 2 ^ 31 → -2 ^ 31 ≤ p * lvl.toInt → p * lvl.toInt < 2 ^ 31 → fb[zz] = floorShift (p * lvl.toInt) 3) ∧
      -2 ^ 31 ≤ fb[zz] ∧ fb[zz] < 2 ^ 31

/-- R209, R211: at `k >= 64` the word writes nothing and ends the block; the cursor is left after it, or after the next
EOB word under SKIP_TO_EOB. Derived: that the row does so at every state, inside a block or not, and whatever word stands
at the cursor, is the model's choice (DESIGN CHOICE, notes/assumptions/28.md, 32.md, 33.md), and so is the row's share of
R204's pass, the discarding under SKIP_TO_EOB with it (notes/assumptions/35.md). -/
def Obligations.PositionOverflowStops : Prop :=
  ∀ (s : State) (run : BitVec 6) (lvl : BitVec 10), 64 ≤ s.eng.blk.k + run.toNat + 1 → ∃ c : Nat,
    exec (.rlAc run lvl) s = .next (s.setEng { s.eng with
      blk := { s.eng.blk with k := s.eng.blk.k + run.toNat + 1, c := c, inside := false }
      draws := s.eng.draws + 1 }) ∧
    (s.rom.kovfResync = .none → c = s.eng.blk.c + 1) ∧
    (s.rom.kovfResync = .skipToEob →
      s.eng.blk.c + 1 < c ∧ s.eng.rl.read (c - 1) = 0xFE00 ∧
      ∀ j, s.eng.blk.c + 1 ≤ j → j < c - 1 → s.eng.rl.read j ≠ 0xFE00)

/-- R204, R206: DECODE_BLOCK is the word at the cursor taken as a header, then the words after it taken in AC position
one by one until the block ends. That it is so at a cursor below 2 too, which R204 does not give, and how the pass is
split over the rows are the model's choice (DESIGN CHOICE, notes/assumptions/32.md, 35.md). -/
def Obligations.DecodeBlockIsItsWords : Prop :=
  ∀ s : State,
    let h := s.eng.rl.read s.eng.blk.c
    ∃ t u : State,
      exec (.rlHdr (BitVec.ofNat 6 (h.toNat / 2 ^ 10)) (BitVec.ofNat 10 h.toNat)) s = .next t ∧
      BlockRuns t u ∧ exec .decodeBlock s = .next u

/-- R384, R209: a block reads at least 2 and at most 65 RL words, or, skipping to EOB, no further than the stream's
end (at a cursor below 2 too: DESIGN CHOICE, notes/assumptions/32.md). -/
def Obligations.BlockReadsBounded : Prop :=
  ∀ s t : State, exec .decodeBlock s = .next t →
    t.eng.blk.inside = false ∧ s.eng.blk.c + 2 ≤ t.eng.blk.c ∧
    (s.rom.kovfResync = .none → t.eng.blk.c ≤ s.eng.blk.c + 65) ∧
    (s.rom.kovfResync = .skipToEob → t.eng.blk.c ≤ max (s.eng.blk.c + 65) s.eng.rl.cap + 1)

/-- R212: when `ZIGZAG` is a permutation that fixes 0, no AC word overwrites the DC of a block (at a cursor below 2 too:
DESIGN CHOICE, notes/assumptions/32.md). -/
def Obligations.AcWordsKeepDc : Prop :=
  ∀ s t : State, s.rom.wf = true → exec .decodeBlock s = .next t →
    -2 ^ 31 ≤ iq s.rom 0 * (BitVec.ofNat 10 (s.eng.rl.read s.eng.blk.c).toNat).toInt →
    iq s.rom 0 * (BitVec.ofNat 10 (s.eng.rl.read s.eng.blk.c).toNat).toInt < 2 ^ 31 →
    t.eng.blk.fb[0] = iq s.rom 0 * (BitVec.ofNat 10 (s.eng.rl.read s.eng.blk.c).toNat).toInt

/-- R205: past the stream every word reads 0xFE00: the header is qscale 63, DC -512, and the AC word after it is EOB. -/
def Obligations.BlockPastStreamEnd : Prop :=
  ∀ s : State, s.eng.rl.cap ≤ s.eng.blk.c → ∃ t : State, exec .decodeBlock s = .next t ∧
    t.eng.blk.qs = 63 ∧ t.eng.blk.k = 0 ∧ t.eng.blk.c = s.eng.blk.c + 2 ∧ t.eng.blk.inside = false ∧
    (∀ i : Fin 64, i ≠ 0 → t.eng.blk.fb[i] = 0) ∧
    (iq s.rom 0 * 512 ≤ 2 ^ 31 → t.eng.blk.fb[0] = iq s.rom 0 * -512)

/-! ### The inverse DCT and the macroblock assembler -/

/-- R230, R234, R235: IDCT8X8 writes one spatial block; each sample is within 1 of the exact real sample, and is not
clamped short of s32, outside which it is any s32 value (R213). -/
def Obligations.TransformWithinTolerance : Prop :=
  ∀ (s : State) (b : Fin 6), ∃ sb : Vector (Vector Int 64) 6,
    exec (.idct8x8 b) s = .next (s.setEng { s.eng with sb := sb, draws := s.eng.draws + 64 }) ∧
    (∀ c : Fin 6, c ≠ b → sb[c] = s.eng.sb[c]) ∧
    ∀ i : Fin 64,
      (|Config.idctReal (fun j => s.eng.blk.fb[j]) i| ≤ 2 ^ 31 - 1 →
        |(sb[b][i] : ℝ) - Config.idctReal (fun j => s.eng.blk.fb[j]) i| < 1) ∧
      -2 ^ 31 ≤ sb[b][i] ∧ sb[b][i] < 2 ^ 31

/-- R236, R234: for a block with only a DC each sample is within 1 of `FB[0] / 8` and exactly that where it is whole, so
that two samples differ by 1 at most. R234 assumes no more of the hardware's transform: where `FB[0] / 8` is not whole
it may give either neighbour. -/
def Obligations.DcOnlyBlockWithinOneOfDc : Prop :=
  ∀ (s : State) (b : Fin 6), (∀ i : Fin 64, i ≠ 0 → s.eng.blk.fb[i] = 0) →
    -2 ^ 31 ≤ s.eng.blk.fb[0] → s.eng.blk.fb[0] < 2 ^ 31 →
    ∃ t : State, exec (.idct8x8 b) s = .next t ∧
      ∀ i : Fin 64, |8 * t.eng.sb[b][i] - s.eng.blk.fb[0]| < 8 ∧
        ((8 : Int) ∣ s.eng.blk.fb[0] → 8 * t.eng.sb[b][i] = s.eng.blk.fb[0]) ∧
        ∀ j : Fin 64, |t.eng.sb[b][i] - t.eng.sb[b][j]| ≤ 1

/-- R233, R234: the reference transform has the property that the hardware's is held to, for every way of resolving
ties. -/
def Obligations.ReferenceTransformIsClose : Prop := ∀ ties : Config.RoundTies, Config.IdctClose (Config.refIdct ties)

/-- R250 to R256: every pixel of the tile from its chroma and luma samples. A channel with an intermediate outside s32
is any byte (R213). -/
def Obligations.RenderedPixels : Prop :=
  ∀ s : State, ∃ px : Tile,
    exec .renderMb s = .next (s.setEng { s.eng with px := px, draws := s.eng.draws + 768 }) ∧
    ∀ y x : Fin 16,
      let ci : Fin 64 := ⟨y.val / 2 * 8 + x.val / 2, by omega⟩
      let u : Int := s.eng.sb[0][ci]
      let v : Int := s.eng.sb[1][ci]
      let cb := if s.rom.chromaSwap then v else u
      let cr := if s.rom.chromaSwap then u else v
      let l := lumaSample s.eng y x
      let fits (vs : List Int) : Prop := ∀ z ∈ vs, -2 ^ 31 ≤ z ∧ z < 2 ^ 31
      let pr := 1436 * cr
      let pg := 352 * cb + 731 * cr
      let pb := 1815 * cb
      (fits [pr, l + floorShift pr 10, l + floorShift pr 10 + 128] →
        (px[y][x].r.toNat : Int) = min (max (l + floorShift pr 10 + 128) 0) 255) ∧
      (fits [352 * cb, 731 * cr, pg, l - floorShift pg 10, l - floorShift pg 10 + 128] →
        (px[y][x].g.toNat : Int) = min (max (l - floorShift pg 10 + 128) 0) 255) ∧
      (fits [pb, l + floorShift pb 10, l + floorShift pb 10 + 128] →
        (px[y][x].b.toNat : Int) = min (max (l + floorShift pb 10 + 128) 0) 255)

/-- R257: zero chroma gives grey, and six zero blocks give (128, 128, 128) everywhere. -/
def Obligations.ZeroChromaIsGrey : Prop :=
  ∀ s : State, (∀ i : Fin 64, s.eng.sb[0][i] = 0 ∧ s.eng.sb[1][i] = 0) → ∃ t : State,
    exec .renderMb s = .next t ∧
    (∀ y x : Fin 16, -2 ^ 31 ≤ lumaSample s.eng y x → lumaSample s.eng y x + 128 < 2 ^ 31 →
      (t.eng.px[y][x].b.toNat : Int) = min (max (lumaSample s.eng y x + 128) 0) 255 ∧
      t.eng.px[y][x].g = t.eng.px[y][x].b ∧ t.eng.px[y][x].r = t.eng.px[y][x].b) ∧
    ((∀ (q : Fin 6) (j : Fin 64), s.eng.sb[q][j] = 0) → ∀ y x : Fin 16, t.eng.px[y][x] = ⟨128, 128, 128⟩)

/-! ### The frame -/

/-- R270: DECODE as a single operation completes on a good chunk, good dimensions and an admitted pixel range: it
writes no register and no byte outside the pixel range, and in it the frame of the stream that DEPACK leaves (R279);
non-positive dimensions are its other error (R271), returned in the model's own field (notes/assumptions/18.md). That it
runs alone, at any state and with nothing left unseen, is the model's choice (DESIGN CHOICE, notes/assumptions/36.md). -/
def Obligations.DecodeOperation : Prop :=
  ∀ s : State,
    (s.Decodable → ∃ t d : State, exec .decode s = .next t ∧ t = { s with eng := t.eng, mem := t.mem } ∧
      (∀ a, ¬ (s.lDst.toNat ≤ a ∧ a < s.lDst.toNat + 3 * s.lW.toNat * s.lH.toNat) → t.mem.read a = s.mem.read a) ∧
      exec .depack s = .next d ∧ (s.mem.wf → s.FrameIn d t.mem)) ∧
    (s.GoodChunk → s.lW.toInt ≤ 0 ∨ s.lH.toInt ≤ 0 →
      exec .decode s = .next (s.setEng { s.eng with raised := some .invalidDimensions }))

/-- R273 to R279, R66: after a decode, pixel `(x, y)` of the image holds, blue first, the pixel of row `(H - 1 - y)
mod 16`, column `x mod 16` of the tile of macroblock number `(x div 16) * NM + (H - 1 - y) div 16` of the stream that
DEPACK leaves, the macroblocks being decoded one after another from RL word 2. -/
def Obligations.FramePixelPlacement : Prop :=
  ∀ s t d : State, s.busy = true → s.Decodable → s.Unraced → s.mem.wf →
    exec .complete s = .next t → exec .depack s = .next d → s.FrameIn d t.mem

/-- R280: the byte addresses that the slices of a frame write are those of the pixel range, each exactly once. -/
def Obligations.EveryPixelByteWrittenOnce : Prop :=
  ∀ (w h dst : Nat) (st : Nat → List PixelRow),
    (((List.range ((w + 15) / 16)).flatMap (fun i => sliceCells dst w h i (st i))).map Prod.fst).Perm
      (List.range' dst (3 * w * h))

/-- R282, R41: what a decode writes is a function of the constants, the chunk bytes, the dimensions and the free values
alone: two decodes of equal chunks leave equal pixel bytes, whatever the internal buffers, the registers, the rest of
memory and the place of the pixel range. -/
def Obligations.DecodeIsDeterministic : Prop :=
  ∀ s s' t t' : State,
    s.busy = true → s.Decodable → s.Unraced → s.mem.wf →
    s'.busy = true → s'.Decodable → s'.Unraced → s'.mem.wf →
    s.rom = s'.rom → s.lLen = s'.lLen → s.lW = s'.lW → s.lH = s'.lH → s.eng.draws = s'.eng.draws →
    (∀ i, chunkByte s i = chunkByte s' i) →
    exec .complete s = .next t → exec .complete s' = .next t' →
    ∀ i, i < 3 * s.lW.toNat * s.lH.toNat →
      t.mem.read (s.lDst.toNat + i) = t'.mem.read (s'.lDst.toNat + i)

/-! ### The whole machine -/

/-- The invariant holds after reset (R23, R330, R371). -/
def Obligations.ResetKeepsInvariant : Prop := State.reset.Inv

/-- Every step keeps the invariant R23 states of STATUS, the error codes of R330 and the canonical form of memory. -/
def Obligations.StepKeepsInvariant : Prop := ∀ s t : State, s.Inv → step s = .next t → t.Inv

/-- An operation of the pipeline changes the internal buffers and nothing else: no register, flag, latch, constant or
byte of memory (10_state.md R39, 40_bitreader.md section header, 41_huffman.md R158). -/
def Obligations.InternalOperationsFrame : Prop :=
  ∀ (i : Instr) (s t : State), isInternal i = true → exec i s = .next t → t = s.setEng t.eng

/-- The constant tables never change, whatever is presented (20_memory.md R74, 70_reset_and_hazards.md R375). -/
def Obligations.ConstantTablesNeverChange : Prop :=
  (∀ (i : Instr) (s t : State), exec i s = .next t → t.rom = s.rom) ∧
  (∀ s t : State, step s = .next t → t.rom = s.rom)

/-- DONE rises only by COMPLETE, BUSY only by START (R303, R340), and the latches change only by START and reset (R30;
that COMPLETE keeps them is DESIGN CHOICE, notes/assumptions/29.md). -/
def Obligations.OnlyStartAndCompleteReport : Prop :=
  ∀ (i : Instr) (s t : State), exec i s = .next t →
    (s.done = false → t.done = true → i = .complete ∧ s.busy = true) ∧
    (s.busy = false → t.busy = true → ∃ d, i = .ctrlStart d) ∧
    (s.err = false → t.err = true → i = .complete) ∧
    ((t.lSrc, t.lLen, t.lW, t.lH, t.lDst) ≠ (s.lSrc, s.lLen, s.lW, s.lH, s.lDst) →
      ∃ d, i = .ctrlStart d ∨ i = .ctrlSoftReset d)
end

