-- ==== Sys2Proof/Laws/Memory.lean ====
section
/-! SUPPORT. System memory: reading after writing, the canonical form, and admission of ranges. -/

namespace Sys2Proof.Machine

namespace Memory

/-! ### One byte -/

theorem read_put_of_ne (m : Memory) {a b : Nat} (v : Byte) (h : b ≠ a) : (put a v m).read b = m.read b := by
  induction m with
  | nil => unfold put; split <;> simp [read, h.symm]
  | cons c t ih =>
    obtain ⟨k, x⟩ := c
    have h' : a ≠ b := h.symm
    unfold put
    split_ifs with h1 h2 h3 h4
    · rfl
    · simp [read, h']
    · subst h3; simp [read, h']
    · subst h3; simp [read, h']
    · simp only [read, ih]

/-- An address below every listed one is not listed. -/
theorem read_of_lt (m : Memory) {a : Nat} (h : ∀ c ∈ m, a < c.1) : m.read a = unlisted := by
  induction m with
  | nil => rfl
  | cons c t ih =>
    have h0 := h c (by simp)
    have : c.1 ≠ a := by omega
    simp only [read, this, if_false]
    exact ih fun x hx => h x (by simp [hx])

theorem read_put_self {m : Memory} (hm : m.Pairwise (fun x y => x.1 < y.1)) (a : Nat) (v : Byte) :
    (put a v m).read a = v := by
  induction m with
  | nil => unfold put; split <;> simp_all [read]
  | cons c t ih =>
    obtain ⟨k, x⟩ := c
    rw [List.pairwise_cons] at hm
    unfold put
    split_ifs with h1 h2 h3 h4
    · subst h2
      exact read_of_lt _ fun c hc => by
        rcases List.mem_cons.1 hc with rfl | hc
        · exact h1
        · exact h1.trans (hm.1 c hc)
    · simp [read]
    · subst h3; subst h4
      exact read_of_lt _ fun c hc => hm.1 c hc
    · simp [read]
    · have : k ≠ a := fun h => h3 h.symm
      simp only [read, this, if_false]
      exact ih hm.2

theorem mem_put {m : Memory} {a : Nat} {v : Byte} {c : Host.Cell} (h : c ∈ put a v m) :
    c ∈ m ∨ (c = (a, v) ∧ v ≠ unlisted) := by
  induction m with
  | nil => unfold put at h; split at h <;> simp_all
  | cons d t ih =>
    obtain ⟨k, x⟩ := d
    unfold put at h
    split_ifs at h <;> simp only [List.mem_cons] at h ⊢ <;> tauto

theorem put_wf {m : Memory} (hm : m.wf) {a : Nat} (ha : a < Config.addrLimit) (v : Byte) : (put a v m).wf := by
  refine ⟨?_, fun c hc => ?_⟩
  · have hp := hm.1
    clear hm
    induction m with
    | nil => unfold put; split <;> simp
    | cons d t ih =>
      obtain ⟨k, x⟩ := d
      rw [List.pairwise_cons] at hp
      unfold put
      split_ifs with h1 h2 h3 h4
      · exact List.pairwise_cons.2 hp
      · refine List.pairwise_cons.2 ⟨fun c hc => ?_, List.pairwise_cons.2 hp⟩
        rcases List.mem_cons.1 hc with rfl | hc
        · exact h1
        · exact h1.trans (hp.1 c hc)
      · exact hp.2
      · exact List.pairwise_cons.2 ⟨fun c hc => h3 ▸ hp.1 c hc, hp.2⟩
      · refine List.pairwise_cons.2 ⟨fun c hc => ?_, ih hp.2⟩
        rcases mem_put hc with hc | ⟨rfl, _⟩
        · exact hp.1 c hc
        · show k < a; omega
  · rcases mem_put hc with hc | ⟨rfl, hv⟩
    · exact hm.2 c hc
    · exact ⟨ha, hv⟩

/-- Reading one byte after writing one. -/
theorem read_write {m : Memory} (hm : m.wf) {a : Nat} (ha : a < Config.addrLimit) (v : Byte) (b : Nat) :
    (m.write a v).read b = if b = a then v else m.read b := by
  unfold write
  rw [if_pos ha]
  split
  · rename_i h; subst h; exact read_put_self hm.1 b v
  · exact read_put_of_ne m v (by assumption)

theorem read_write_of_ne (m : Memory) {a b : Nat} (v : Byte) (h : b ≠ a) : (m.write a v).read b = m.read b := by
  unfold write; split
  · exact read_put_of_ne m v h
  · rfl

theorem write_wf {m : Memory} (hm : m.wf) (a : Nat) (v : Byte) : (m.write a v).wf := by
  unfold write; split
  · exact put_wf hm (by assumption) v
  · exact hm

/-! ### Many bytes -/

theorem writeAll_nil (m : Memory) : m.writeAll [] = m := rfl

theorem writeAll_cons (m : Memory) (c : Host.Cell) (l : List Host.Cell) :
    m.writeAll (c :: l) = (m.write c.1 c.2).writeAll l := rfl

theorem writeAll_append (m : Memory) (k l : List Host.Cell) : m.writeAll (k ++ l) = (m.writeAll k).writeAll l := by
  simp [writeAll, List.foldl_append]

theorem writeAll_wf {m : Memory} (hm : m.wf) (l : List Host.Cell) : (m.writeAll l).wf := by
  induction l generalizing m with
  | nil => exact hm
  | cons c t ih => exact ih (write_wf hm _ _)

/-- The frame of a list of writes. -/
theorem read_writeAll_of_not_mem (m : Memory) {l : List Host.Cell} {b : Nat} (h : ∀ c ∈ l, c.1 ≠ b) :
    (m.writeAll l).read b = m.read b := by
  induction l generalizing m with
  | nil => rfl
  | cons c t ih =>
    rw [writeAll_cons, ih _ fun d hd => h d (by simp [hd]), read_write_of_ne _ _ (h c (by simp)).symm]

/-- What a list of writes to distinct addresses leaves at one of them. -/
theorem read_writeAll_of_mem {m : Memory} (hm : m.wf) {l : List Host.Cell} (hl : (l.map Prod.fst).Nodup)
    {c : Host.Cell} (hc : c ∈ l) (ha : c.1 < Config.addrLimit) : (m.writeAll l).read c.1 = c.2 := by
  induction l generalizing m with
  | nil => simp at hc
  | cons d t ih =>
    rw [List.map_cons, List.nodup_cons] at hl
    rw [writeAll_cons]
    rcases List.mem_cons.1 hc with rfl | hc
    · rw [read_writeAll_of_not_mem, read_write hm ha, if_pos rfl]
      intro x hx he
      exact hl.1 (he ▸ List.mem_map_of_mem hx)
    · exact ih (write_wf hm _ _) hl.2 hc

/-- What a list of writes leaves at an address it writes: the value of one of its cells there. -/
theorem read_writeAll_exists {m : Memory} (hm : m.wf) {l : List Host.Cell} {a : Nat}
    (ha : a ∈ l.map Prod.fst) (hl : a < Config.addrLimit) : ∃ c ∈ l, c.1 = a ∧ (m.writeAll l).read a = c.2 := by
  induction l generalizing m with
  | nil => simp at ha
  | cons d t ih =>
    rw [writeAll_cons]
    by_cases ht : a ∈ t.map Prod.fst
    · obtain ⟨c, hc, h1, h2⟩ := ih (write_wf hm _ _) ht
      exact ⟨c, by simp [hc], h1, h2⟩
    · have hd : d.1 = a := by simpa [ht, eq_comm] using ha
      refine ⟨d, by simp, hd, ?_⟩
      rw [read_writeAll_of_not_mem _ fun c hc he => ht (List.mem_map.2 ⟨c, hc, he⟩), ← hd,
        read_write hm (hd ▸ hl), if_pos rfl]

theorem wf_nil : wf [] := by simp [wf]

/-- Canonical memories that read alike are equal data. -/
theorem wf_ext {m n : Memory} (hm : m.wf) (hn : n.wf) (h : ∀ a, m.read a = n.read a) : m = n := by
  induction m generalizing n with
  | nil =>
    cases n with
    | nil => rfl
    | cons c t =>
      have := h c.1
      simp only [read, if_true] at this
      exact absurd this.symm (hn.2 c (by simp)).2
  | cons c t ih =>
    have hct := List.pairwise_cons.1 hm.1
    have hc := hm.2 c (by simp)
    cases n with
    | nil =>
      have := h c.1
      simp only [read, if_true] at this
      exact absurd this hc.2
    | cons d u =>
      have hdu := List.pairwise_cons.1 hn.1
      have hd := hn.2 d (by simp)
      have hkey : c.1 = d.1 := by
        rcases lt_trichotomy c.1 d.1 with hlt | heq | hgt
        · have h1 := h c.1
          rw [read_of_lt (d :: u) (fun x hx => by
            rcases List.mem_cons.1 hx with rfl | hx
            · exact hlt
            · exact hlt.trans (hdu.1 x hx))] at h1
          simp only [read, if_true] at h1
          exact absurd h1 hc.2
        · exact heq
        · have h1 := h d.1
          rw [read_of_lt (c :: t) (fun x hx => by
            rcases List.mem_cons.1 hx with rfl | hx
            · exact hgt
            · exact hgt.trans (hct.1 x hx))] at h1
          simp only [read, if_true] at h1
          exact absurd h1.symm hd.2
      have hval : c.2 = d.2 := by
        have h1 := h c.1
        simpa [read, hkey] using h1
      have hcd : c = d := Prod.ext hkey hval
      subst hcd
      congr 1
      refine ih ⟨hct.2, fun x hx => hm.2 x (by simp [hx])⟩ ⟨hdu.2, fun x hx => hn.2 x (by simp [hx])⟩ fun a => ?_
      by_cases ha : c.1 = a
      · subst ha
        rw [read_of_lt t hct.1, read_of_lt u hdu.1]
      · have h1 := h a
        simpa [read, ha] using h1

end Memory

/-! ### Admission (R69) -/

theorem rangeAdmitted_iff {rom : Config.Rom} {base len : Nat} :
    rangeAdmitted rom base len = true ↔ ∀ a, base ≤ a → a < base + len → admits rom a = true := by
  unfold rangeAdmitted
  rw [List.all_eq_true]
  constructor
  · intro h a h1 h2
    have := h (a - base) (List.mem_range.2 (by omega))
    rwa [Nat.add_sub_cancel' h1] at this
  · intro h i hi
    exact h _ (by omega) (by have := List.mem_range.1 hi; omega)

theorem admits_lt {rom : Config.Rom} {a : Nat} (h : admits rom a = true) : a < Config.addrLimit := by
  unfold admits at h; simp at h; exact h.1

end Sys2Proof.Machine
end

