-- ==== Sys2Proof/Laws/BitReader.lean ====
section
/-! SUPPORT. The BitReader: the model's bits are the spec's (40_bitreader.md R130, R133), reads stay in range and
compose, and an admitted chunk admits every read. -/

namespace Sys2Proof.Machine

theorem chunk_toNat (s : State) (i : Nat) : (s.chunk i).toNat = chunkByte s i := by
  unfold State.chunk chunkByte; split <;> rfl

theorem chunkByte_lt (s : State) (i : Nat) : chunkByte s i < 256 := by
  rw [← chunk_toNat]; exact (s.chunk i).isLt

/-- `CB(i) | (CB(i+1) << 8)` has no carry between its bytes. -/
theorem chunkWord_eq (s : State) (i : Nat) : chunkWord s i = chunkByte s i + 256 * chunkByte s (i + 1) := by
  unfold chunkWord
  rw [Nat.or_comm, Nat.shiftLeft_add_eq_or_of_lt (b := chunkByte s i) (i := 8) (chunkByte_lt s i)
    (chunkByte s (i + 1)) |>.symm, Nat.shiftLeft_eq]
  omega

theorem chunkHalf_eq (s : State) (i : Nat) : chunkHalf s.chunk i = chunkWord s i := by
  rw [chunkWord_eq, chunkHalf, u16le]
  simp [ofBytesLE, chunk_toNat]

theorem chunkWord_lt (s : State) (i : Nat) : chunkWord s i < 2 ^ 16 := by
  have h1 := chunkByte_lt s i
  have h2 := chunkByte_lt s (i + 1)
  rw [chunkWord_eq]; omega

theorem bitAt_eq (s : State) (i : Nat) : s.eng.br.bitAt s.chunk i = streamBit s i := by
  unfold BitReader.bitAt streamBit
  rw [chunkHalf_eq, Nat.and_one_is_mod, Nat.shiftRight_eq_div_pow]
  rfl

theorem streamBit_lt (s : State) (i : Nat) : streamBit s i < 2 := by
  unfold streamBit; split
  · rw [Nat.and_one_is_mod]; omega
  · omega

theorem nextBits_succ (s : State) (n : Nat) :
    nextBits s (n + 1) = 2 * nextBits s n + streamBit s (s.eng.br.pos + n) := by
  have h := streamBit_lt s (s.eng.br.pos + n)
  unfold nextBits
  rw [List.range_succ, List.foldl_append]
  simp only [List.foldl_cons, List.foldl_nil]
  rw [← Nat.shiftLeft_add_eq_or_of_lt (i := 1) (by simpa using h), Nat.shiftLeft_eq]
  omega

/-- The bits a read returns are those of the spec's loop. -/
theorem peek_eq (s : State) (n : Nat) : s.eng.br.peek s.chunk n = nextBits s n := by
  induction n with
  | zero => rfl
  | succ n ih => rw [BitReader.peek, ih, nextBits_succ, bitAt_eq]

theorem nextBits_lt (s : State) (n : Nat) : nextBits s n < 2 ^ n := by
  induction n with
  | zero => simp [nextBits]
  | succ n ih =>
    have h := streamBit_lt s (s.eng.br.pos + n)
    rw [nextBits_succ, pow_succ]; omega

/-- Two reads in a row return the same bits as one. -/
theorem peek_add (cb : Nat → Byte) (br : BitReader) (n m : Nat) :
    br.peek cb (n + m) = br.peek cb n * 2 ^ m + (br.skip n).peek cb m := by
  induction m with
  | zero => simp [BitReader.peek]
  | succ m ih =>
    rw [← Nat.add_assoc, BitReader.peek, ih, BitReader.peek, pow_succ]
    have : (br.skip n).bitAt cb ((br.skip n).pos + m) = br.bitAt cb (br.pos + (n + m)) :=
      Nat.add_assoc br.pos n m ▸ rfl
    rw [this]; ring

theorem chunkByteAdmitted_of_admitted {s : State} (h : s.chunkAdmitted = true) (i : Nat) :
    s.chunkByteAdmitted i = true := by
  unfold State.chunkByteAdmitted
  by_cases hi : s.lLen.toNat ≤ i
  · simp [hi]
  · simp [rangeAdmitted_iff.1 h (s.lSrc.toNat + i) (by omega) (by omega)]

/-- An admitted chunk range admits every read of the bitstream (R69). -/
theorem bitsAdmitted_of_admitted {s : State} (h : s.chunkAdmitted = true) (n : Nat) : s.bitsAdmitted n = true := by
  unfold State.bitsAdmitted
  simp [chunkByteAdmitted_of_admitted h]

theorem hasMore_iff (s : State) : s.eng.br.hasMore = true ↔ s.eng.br.pos < inputBits s := by
  unfold BitReader.hasMore inputBits; exact decide_eq_true_iff

theorem window_eq (s : State) : s.eng.br.window s.chunk = BitVec.ofNat 16 (nextBits s 16) := by
  rw [BitReader.window, peek_eq]

end Sys2Proof.Machine
end

