-- ==== Sys2Proof/Laws/Decode.lean ====
section
/-! SUPPORT. Bytes out and back in, the packing of RL words, and what the decoder reads from each record the encoder
writes. -/

namespace Sys2Proof

open Machine

/-! ### Bytes -/

theorem ofBytesLE_bytesLE (k n : Nat) (h : n < 256 ^ k) : ofBytesLE (bytesLE n k) = n := by
  induction k generalizing n with
  | zero => simp [bytesLE, ofBytesLE] at *; omega
  | succ k ih =>
    have h' : n / 256 < 256 ^ k := by rw [pow_succ] at h; omega
    simp only [bytesLE, ofBytesLE, ih _ h', BitVec.toNat_ofNat]
    omega

theorem ofBytesLE_four (n : Nat) (h : n < 2 ^ 32) :
    ofBytesLE [BitVec.ofNat 8 n, BitVec.ofNat 8 (n / 256), BitVec.ofNat 8 (n / 256 / 256),
      BitVec.ofNat 8 (n / 256 / 256 / 256)] = n := ofBytesLE_bytesLE 4 n (by simpa using h)

theorem ofBytesLE_three (n : Nat) (h : n < 2 ^ 24) :
    ofBytesLE [BitVec.ofNat 8 n, BitVec.ofNat 8 (n / 256), BitVec.ofNat 8 (n / 256 / 256)] = n :=
  ofBytesLE_bytesLE 3 n (by simpa using h)

theorem ofBytesLE_two (n : Nat) (h : n < 2 ^ 16) :
    ofBytesLE [BitVec.ofNat 8 n, BitVec.ofNat 8 (n / 256)] = n := ofBytesLE_bytesLE 2 n (by simpa using h)

theorem word_bytes (d : Word) : BitVec.ofNat 32 (ofBytesLE [BitVec.ofNat 8 d.toNat, BitVec.ofNat 8 (d.toNat / 256),
    BitVec.ofNat 8 (d.toNat / 256 / 256), BitVec.ofNat 8 (d.toNat / 256 / 256 / 256)]) = d := by
  rw [ofBytesLE_four _ d.isLt]; simp

theorem half_bytes (w : Half) :
    BitVec.ofNat 16 (ofBytesLE [BitVec.ofNat 8 w.toNat, BitVec.ofNat 8 (w.toNat / 256)]) = w := by
  rw [ofBytesLE_two _ w.isLt]; simp

/-! ### RL words -/

@[simp] theorem rlHigh_rlWord (hi : BitVec 6) (lo : BitVec 10) : rlHigh (rlWord hi lo) = hi := by
  unfold rlHigh rlWord
  ext i hi'
  rw [BitVec.getElem_extractLsb', BitVec.getLsbD_append, if_neg (by omega), Nat.add_sub_cancel_left,
    BitVec.getLsbD_eq_getElem hi']

@[simp] theorem rlLow_rlWord (hi : BitVec 6) (lo : BitVec 10) : rlLow (rlWord hi lo) = lo := by
  unfold rlLow rlWord
  ext i hi'
  rw [BitVec.getElem_extractLsb', BitVec.getLsbD_append, if_pos (by omega), Nat.zero_add,
    BitVec.getLsbD_eq_getElem hi']

/-! ### Records by layer -/

theorem decode_layerHostRead (t : List Byte) : decode (layerHostRead :: t) = decodeHostRead t := rfl
theorem decode_layerHostWrite (t : List Byte) : decode (layerHostWrite :: t) = decodeHostWrite t := rfl
theorem decode_layerEngine (t : List Byte) : decode (layerEngine :: t) = decodeEngine t := rfl
theorem decode_layerHeader (t : List Byte) : decode (layerHeader :: t) = decodeHeader t := rfl
theorem decode_layerRaw (t : List Byte) : decode (layerRaw :: t) = decodeRaw t := rfl
theorem decode_layerWindow (t : List Byte) : decode (layerWindow :: t) = decodeWindow t := rfl
theorem decode_layerEntry (t : List Byte) : decode (layerEntry :: t) = decodeEntry t := rfl
theorem decode_layerRl (t : List Byte) : decode (layerRl :: t) = decodeRl t := rfl

theorem accessError_none {off : Byte} (h : registerOffset off = true) : accessError accessWidth off = none := by
  simp [registerOffset] at h
  unfold accessError
  rw [if_neg (by simp; exact h.1), if_neg (by omega)]

theorem decode_hostWrite {off : Byte} (h : registerOffset off = true) (d : Word) :
    decode (hostWriteRecord accessWidth off d) = .ok (writeInstr off d) [] := by
  rw [hostWriteRecord, decode_layerHostWrite]
  simp only [bytesLE]
  simp only [decodeHostWrite, accessError_none h, word_bytes]

theorem decode_ctrl (d : Word) : decode (hostWriteRecord accessWidth 0x00 d) = .ok (ctrlInstr d) [] :=
  decode_hostWrite (by decide) d

theorem decode_window (w : Half) : decode (windowRecord w) = .ok (windowInstr w) [] := by
  rw [windowRecord, decode_layerWindow]
  simp only [bytesLE]
  simp only [decodeWindow, half_bytes]

theorem decode_entry (e : Word) : decode (entryRecord e) = .ok (entryInstr e) [] := by
  rw [entryRecord, decode_layerEntry]
  simp only [bytesLE]
  simp only [decodeEntry, word_bytes]

theorem decode_rl (p : Byte) (w : Half) {i : Instr} (h : rlInstr p w = some i) : decode (rlRecord p w) = .ok i [] := by
  rw [rlRecord, decode_layerRl]
  simp only [bytesLE]
  simp only [decodeRl, half_bytes, h]

theorem decode_engineOperand {op : Byte} {n : Nat} (hn : n < 2 ^ 32) (hp : plainInstr op = none)
    (h0 : (operandInstr op 0).isSome) {i : Instr} (h : operandInstr op n = some (.ok i [])) :
    decode (engineOperandRecord op n) = .ok i [] := by
  obtain ⟨r, hr⟩ := Option.isSome_iff_exists.1 h0
  rw [engineOperandRecord, decode_layerEngine]
  simp only [bytesLE]
  simp only [decodeEngine, hp, hr, ofBytesLE_four n hn, h, DecodeResult.withRest]

/-! ### Windows and entries -/

theorem windowInstr_fast1 {w : Half} (h : windowTop w 15 = 1) : windowInstr w = .vlcFast1 w := by
  unfold windowInstr; rw [if_pos h]

theorem windowInstr_fast01 {w : Half} (h : windowTop w 14 = 1) : windowInstr w = .vlcFast01 w := by
  unfold windowInstr windowTop at *
  rw [if_neg (by omega), if_pos h]

/-- The tests of the decoder before the one for `n` are the tests of wider windows. -/
theorem windowTop_ne {w : Half} {n m : Nat} (h : windowTop w n = 1) (hm : n < m) : windowTop w m ≠ 1 := by
  unfold windowTop at *
  have h1 : w.toNat / 2 ^ m = w.toNat / 2 ^ n / 2 ^ (m - n) := by
    rw [Nat.div_div_eq_div_mul, ← pow_add, Nat.add_sub_cancel' hm.le]
  rw [h1, h, Nat.div_eq_of_lt]
  · norm_num
  · exact Nat.one_lt_two_pow (by omega)

theorem windowTop_zero {w : Half} {n m : Nat} (h : windowTop w n = 0) (hm : n ≤ m) : windowTop w m ≠ 1 := by
  unfold windowTop at *
  have h1 : w.toNat / 2 ^ m = w.toNat / 2 ^ n / 2 ^ (m - n) := by
    rw [Nat.div_div_eq_div_mul, ← pow_add, Nat.add_sub_cancel' hm]
  rw [h1, h]; simp

/-! ### What the decoder answers is well formed -/

/-- The rejection test passes only a 32-bit access at a register offset. -/
theorem accessError_eq_none {width off : Byte} (h : accessError width off = none) :
    width = accessWidth ∧ registerOffset off = true := by
  unfold accessError at h
  split_ifs at h with h1 h2
  simp only [not_or, Decidable.not_not] at h1
  exact ⟨h1.1, by unfold registerOffset; simp [h1.2]; omega⟩

theorem byte_eq {a b : Byte} (h : a.toNat = b.toNat) : a = b := BitVec.eq_of_toNat_eq h

theorem ctrlInstr_wf (d : Word) : (ctrlInstr d).wf = true := by
  unfold ctrlInstr
  split_ifs <;> simp only [Instr.wf, decide_eq_true_eq] <;> omega

/-- A register offset that none of the seven registers has is reserved. -/
theorem writeInstr_cases {off : Byte} (h : registerOffset off = true) (d : Word) :
    writeInstr off d = ctrlInstr d ∨ writeInstr off d = .wrStatusW1c d ∨ writeInstr off d = .wrSrcAddr d ∨
      writeInstr off d = .wrSrcLen d ∨ writeInstr off d = .wrWidth d ∨ writeInstr off d = .wrHeight d ∨
      writeInstr off d = .wrDstAddr d ∨ (writeInstr off d = .wrReserved off d ∧ reservedOffset off = true) := by
  by_cases hr : 0x1C ≤ off.toNat
  · have hres : reservedOffset off = true := by unfold reservedOffset; simp [h, hr]
    have ne : ∀ b : Byte, b.toNat < 0x1C → off ≠ b := fun b hb he => by subst he; omega
    right; right; right; right; right; right; right
    refine ⟨?_, hres⟩
    unfold writeInstr
    rw [if_neg (ne 0x00 (by decide)), if_neg (ne 0x04 (by decide)), if_neg (ne 0x08 (by decide)),
      if_neg (ne 0x0C (by decide)), if_neg (ne 0x10 (by decide)), if_neg (ne 0x14 (by decide)),
      if_neg (ne 0x18 (by decide))]
  · simp only [registerOffset, Bool.and_eq_true, decide_eq_true_eq] at h
    have : off.toNat = 0 ∨ off.toNat = 4 ∨ off.toNat = 8 ∨ off.toNat = 12 ∨ off.toNat = 16 ∨ off.toNat = 20 ∨
        off.toNat = 24 := by omega
    rcases this with h | h | h | h | h | h | h
    · rw [byte_eq (b := 0x00) h]; exact .inl rfl
    · rw [byte_eq (b := 0x04) h]; exact .inr (.inl rfl)
    · rw [byte_eq (b := 0x08) h]; exact .inr (.inr (.inl rfl))
    · rw [byte_eq (b := 0x0C) h]; exact .inr (.inr (.inr (.inl rfl)))
    · rw [byte_eq (b := 0x10) h]; exact .inr (.inr (.inr (.inr (.inl rfl))))
    · rw [byte_eq (b := 0x14) h]; exact .inr (.inr (.inr (.inr (.inr (.inl rfl)))))
    · rw [byte_eq (b := 0x18) h]; exact .inr (.inr (.inr (.inr (.inr (.inr (.inl rfl))))))

theorem writeInstr_wf {off : Byte} (h : registerOffset off = true) (d : Word) : (writeInstr off d).wf = true := by
  rcases writeInstr_cases h d with h | h | h | h | h | h | h | ⟨h, hr⟩ <;> rw [h]
  · exact ctrlInstr_wf d
  all_goals first | rfl | exact hr

theorem plainInstr_wf {op : Byte} {i : Instr} (h : plainInstr op = some i) : i.wf = true := by
  unfold plainInstr at h
  split_ifs at h <;> (injection h with h; subst h; rfl)

/-- An engine operation with an operand answers a well-formed instruction and leaves no bytes of its own. -/
theorem operandInstr_ok {op : Byte} {n : Nat} (hn : n < 2 ^ 32) {i : Instr} {rest : List Byte}
    (h : operandInstr op n = some (.ok i rest)) : i.wf = true ∧ rest = [] := by
  unfold operandInstr at h
  by_cases h1 : op = 0x01
  · rw [if_pos h1] at h; injection h with h; injection h with h h'; subst h; exact ⟨by simpa [Instr.wf] using hn, h'.symm⟩
  rw [if_neg h1] at h
  by_cases h3 : op = 0x03
  · rw [if_pos h3] at h; split_ifs at h with hk
    · injection h with h; injection h with h h'; subst h; exact ⟨by simpa [Instr.wf] using hk, h'.symm⟩
    · injection h with h; cases h
  rw [if_neg h3] at h
  by_cases h4 : op = 0x04
  · rw [if_pos h4] at h; split_ifs at h with hk
    · injection h with h; injection h with h h'; subst h; exact ⟨by simpa [Instr.wf] using hk, h'.symm⟩
    · injection h with h; cases h
  rw [if_neg h4] at h
  by_cases h5 : op = 0x05
  · rw [if_pos h5] at h; injection h with h; injection h with h h'; subst h; exact ⟨by simpa [Instr.wf] using hn, h'.symm⟩
  rw [if_neg h5] at h
  by_cases hA : op = 0x0A
  · rw [if_pos hA] at h; split_ifs at h with hk
    · injection h with h; injection h with h h'; subst h; exact ⟨rfl, h'.symm⟩
    · injection h with h; cases h
  rw [if_neg hA] at h
  cases h

theorem windowTop_one_iff {w : Half} {n : Nat} : windowTop w n = 1 ↔ 2 ^ n ≤ w.toNat ∧ w.toNat < 2 ^ (n + 1) := by
  unfold windowTop
  rw [Nat.div_eq_iff (by positivity), pow_succ]
  have := Nat.one_le_two_pow (n := n)
  omega

theorem windowInstr_wf (w : Half) : (windowInstr w).wf = true := by
  unfold windowInstr
  split_ifs <;> simp only [Instr.wf, decide_eq_true_eq] <;> try assumption
  simp only [windowTop_one_iff] at *
  unfold windowTop
  have := w.isLt
  norm_num at *; omega

theorem entryInstr_wf (e : Word) : (entryInstr e).wf = true := by
  unfold entryInstr
  cases h : entryClass e <;> simp [Instr.wf, h]

theorem rlWord_parts (w : Half) : rlWord (rlHigh w) (rlLow w) = w := by
  apply BitVec.eq_of_toNat_eq
  have h1 := (rlLow w).isLt
  have h2 := w.isLt
  rw [rlWord, BitVec.toNat_append, ← Nat.shiftLeft_add_eq_or_of_lt h1, Nat.shiftLeft_eq]
  simp [rlHigh, rlLow, Nat.shiftRight_eq_div_pow]
  omega

theorem rlInstr_wf {p : Byte} {w : Half} {i : Instr} (h : rlInstr p w = some i) : i.wf = true := by
  unfold rlInstr at h
  split_ifs at h <;> injection h with h <;> subst h <;> try rfl
  unfold acInstr
  split_ifs with hw
  · rfl
  · simp only [Instr.wf, decide_eq_true_eq, rlWord_parts]; exact hw

end Sys2Proof
end

