-- ==== Sys2Proof/Laws/Huffman.lean ====
section
/-! SUPPORT. Table entries and windows: the model's lookup is the spec's clamped read (41_huffman.md R155), and the
window's class is the one its bits decode to (R95, R153). -/

namespace Sys2Proof.Machine

/-! ### Entries -/

theorem entryWord_eq (x : Word) : entryWord x = BitVec.ofNat 16 x.toNat := by
  apply BitVec.eq_of_toNat_eq; simp [entryWord]

theorem entryLevel_eq (x : Word) : entryLevel x = BitVec.ofNat 10 x.toNat := by
  apply BitVec.eq_of_toNat_eq; simp [entryLevel]

theorem entryRun_eq (x : Word) : entryRun x = BitVec.ofNat 6 (x.toNat / 2 ^ 10) := by
  apply BitVec.eq_of_toNat_eq; simp [entryRun, Nat.shiftRight_eq_div_pow]

theorem entryConsumed_eq (x : Word) : entryConsumed x = BitVec.ofNat 16 (x.toNat / 2 ^ 16) := by
  apply BitVec.eq_of_toNat_eq; simp [entryConsumed, Nat.shiftRight_eq_div_pow]

theorem entryConsumed_toNat (x : Word) : (entryConsumed x).toNat = x.toNat / 2 ^ 16 := by
  have := x.isLt
  rw [entryConsumed_eq, BitVec.toNat_ofNat, Nat.mod_eq_of_lt (by omega)]

theorem entryClass_eq (x : Word) : entryClass x = classOf x := by
  unfold entryClass classOf
  have h1 : entryWord x = Config.eob ↔ x.toNat % 2 ^ 16 = 0xFE00 := by
    rw [← BitVec.toNat_inj, entryWord_eq]; simp [Config.eob]
  have h2 : entryLevel x = 0x200 ↔ x.toNat % 2 ^ 10 = 0x200 := by
    rw [← BitVec.toNat_inj, entryLevel_eq]; simp
  simp only [h1, h2]

/-- The entry is what its three fields say. -/
theorem toEntry_huffResult (x : Word × Hit) : (huffResult x).toEntry = x.1 := by
  have hx := x.1.isLt
  apply BitVec.eq_of_toNat_eq
  have h : (huffResult x).toEntry.toNat =
      (entryConsumed x.1).toNat * 2 ^ 16 + (entryRun x.1).toNat * 2 ^ 10 + (entryLevel x.1).toNat := by
    have h1 := (entryRun x.1).isLt
    have h2 := (entryLevel x.1).isLt
    simp only [HuffResult.toEntry, huffResult, BitVec.toNat_append]
    rw [← Nat.shiftLeft_add_eq_or_of_lt h1, ← Nat.shiftLeft_add_eq_or_of_lt h2]
    simp only [Nat.shiftLeft_eq]
    omega
  rw [h, entryConsumed_toNat, entryRun_eq, entryLevel_eq]
  simp only [BitVec.toNat_ofNat]
  omega

/-! ### Lookup -/

theorem lookup_eq (t : Config.Table) (idx : Nat) : lookup t idx = (tableAt t idx, hitAt t idx) := by
  unfold lookup tableAt hitAt
  have hne : t.entries ≠ [] := List.cons_ne_nil _ _
  have hpos : 0 < t.entries.length := List.length_pos_iff.2 hne
  by_cases h : idx < t.entries.length
  · have hm : min idx (t.entries.length - 1) = idx := by omega
    simp [hm, h, List.getD_eq_getElem?_getD]
  · have hm : min idx (t.entries.length - 1) = t.entries.length - 1 := by omega
    rw [hm, List.getElem?_eq_none (by omega), if_neg h, List.getD_eq_getElem?_getD,
      List.getElem?_eq_getElem (by omega), Option.getD_some]
    show (t.entries.getLast hne, _) = _
    rw [List.getLast_eq_getElem]

theorem huffTook_lookup (g : Engine) (t : Config.Table) (idx : Nat) :
    g.huffTook (lookup t idx) = g.afterLookup t idx := by
  rw [lookup_eq, Engine.huffTook, Engine.afterLookup]
  simp only [BitReader.skip, entryConsumed_toNat]
  simp only [huffResult, entryClass_eq, entryRun_eq, entryLevel_eq, entryConsumed_eq]

theorem lengthIndex_eq (w mask : Half) (lz nbits : Nat) :
    lengthIndex w lz nbits mask = (((w.toNat <<< lz) &&& 0xFFFF) >>> (16 - nbits)) &&& mask.toNat := by
  have h : (w.toNat <<< lz) &&& 0xFFFF = (w.toNat <<< lz) % 2 ^ 16 := Nat.and_two_pow_sub_one_eq_mod _ 16
  rw [h]
  simp [lengthIndex]

/-! ### Classes -/

/-- A window with exactly `n` leading zeros, read from bit `15 - n`. -/
theorem leadingZeros_of_top {w : Half} {n : Nat} (hn : n < 16) (h : windowTop w (15 - n) = 1) : clz16 w = n := by
  have key : ∀ m, m ≤ 16 → w.toNat < 2 ^ m → 2 ^ (15 - n) ≤ w.toNat → leadingZeros w m + (15 - n + 1) = m := by
    intro m
    induction m with
    | zero => intro _ h1 h2; have := Nat.one_le_two_pow (n := 15 - n); omega
    | succ m ih =>
      intro hm h1 h2
      by_cases hb : w.toNat < 2 ^ m
      · have : w.getLsbD m = false := by
          rw [BitVec.getLsbD, Nat.testBit_lt_two_pow hb]
        have h3 := ih (by omega) hb h2
        rw [leadingZeros, this]
        simp only [Bool.false_eq_true, if_false]
        omega
      · have h4 : 15 - n = m := by
          have h5 : w.toNat < 2 ^ (15 - n + 1) := by
            unfold windowTop at h
            rw [Nat.div_eq_iff (by positivity)] at h
            rw [pow_succ]; omega
          have h6 : 2 ^ m < 2 ^ (15 - n + 1) := by omega
          have h7 : 2 ^ (15 - n) < 2 ^ (m + 1) := by omega
          have := (Nat.pow_lt_pow_iff_right (by norm_num : 1 < 2)).1 h6
          have := (Nat.pow_lt_pow_iff_right (by norm_num : 1 < 2)).1 h7
          omega
        have h8 : w.getLsbD m = true := by
          rw [BitVec.getLsbD, Nat.testBit_eq_decide_div_mod_eq, ← h4]
          unfold windowTop at h
          simp [h]
        rw [leadingZeros, h8]
        simp; omega
  have h1 : 2 ^ (15 - n) ≤ w.toNat := by
    unfold windowTop at h
    rw [Nat.div_eq_iff (by positivity)] at h; omega
  have := key 16 le_rfl w.isLt h1
  unfold clz16; omega

theorem leadingZeros_of_small {w : Half} {k : Nat} (h : w.toNat < 2 ^ k) (m : Nat) : m ≤ leadingZeros w m + k := by
  induction m with
  | zero => omega
  | succ m ih =>
    by_cases hb : w.getLsbD m = true
    · have : m < k := by
        by_contra hc
        have : w.toNat < 2 ^ m := lt_of_lt_of_le h (Nat.pow_le_pow_right (by norm_num) (by omega))
        rw [BitVec.getLsbD, Nat.testBit_lt_two_pow this] at hb
        simp at hb
      rw [leadingZeros, hb]; simp; omega
    · rw [leadingZeros]; simp only [hb]; simp; omega

/-- What a window's row does is the lookup of HUFF_DECODE_NEXT (R150). -/
theorem exec_windowInstr (w : Half) (s : State) :
    exec (windowInstr w) s = .next (s.setEng (s.eng.huffTook (windowEntry s.rom w))) := by
  have hw := w.isLt
  have len : ∀ j : Fin 9, windowTop w (13 - j.val) = 1 → windowEntry s.rom w = lengthEntry s.rom j w := by
    intro j hj
    have h1 := windowTop_one_iff.1 hj
    have h2 : 2 ^ (13 - j.val + 1) ≤ 2 ^ 14 := Nat.pow_le_pow_right (by norm_num) (by omega)
    have h3 : clz16 w = j.val + 2 := leadingZeros_of_top (by omega) (by rw [← hj]; congr 1; omega)
    rw [windowEntry, if_neg (by norm_num at h2; omega), lengthClass]
    congr 1
    apply Fin.ext; simp [h3]; omega
  have fast : 0x4000 ≤ w.toNat → windowEntry s.rom w = fastEntry s.rom w := fun h => by rw [windowEntry, if_pos h]
  unfold windowInstr
  split_ifs with h1 h2 h3 h4 h5 h6 h7 h8 h9 h10
  · rw [fast (by have := windowTop_one_iff.1 h1; omega)]; rfl
  · rw [fast (by have := windowTop_one_iff.1 h2; omega)]; rfl
  · rw [len 0 h3]; rfl
  · rw [len 1 h4]; rfl
  · rw [len 2 h5]; rfl
  · rw [len 3 h6]; rfl
  · rw [len 4 h7]; rfl
  · rw [len 5 h8]; rfl
  · rw [len 6 h9]; rfl
  · rw [len 7 h10]; rfl
  · have hs : w.toNat < 2 ^ 6 := by
      rw [windowTop_one_iff] at h1 h2 h3 h4 h5 h6 h7 h8 h9 h10
      norm_num at *; omega
    have h := leadingZeros_of_small hs 16
    have hc : lengthClass w = 8 := by
      apply Fin.ext; unfold lengthClass clz16; simp; omega
    rw [windowEntry, if_neg (by norm_num at hs; omega), hc]; rfl

end Sys2Proof.Machine
end

