-- ==== Sys2Proof/Laws/Depacker.lean ====
section
/-! SUPPORT. The RL array, the effect of each bitstream element on it, and DEPACK as the elements it takes
(42_vlc_depacker.md R170 to R184). -/

namespace Sys2Proof.Machine

/-! ### The RL array -/

theorem listPut_getD {α : Type} (l : List α) (i : Nat) (x fill : α) (j : Nat) :
    ((listPut l i x fill)[j]?).getD fill = if j = i then x else (l[j]?).getD fill := by
  unfold listPut
  by_cases hi : i < l.length
  · rw [if_pos hi, List.getElem?_set]
    by_cases hj : i = j
    · subst hj; simp [hi]
    · rw [if_neg hj, if_neg (Ne.symm hj)]
  · rw [if_neg hi]
    by_cases h1 : j < l.length
    · have hne : j ≠ i := by omega
      rw [List.append_assoc, List.getElem?_append_left h1, if_neg hne]
    · rw [List.append_assoc, List.getElem?_append_right (by omega), List.getElem?_eq_none (l := l) (by omega)]
      by_cases h2 : j < i
      · rw [List.getElem?_append_left (by simp; omega), List.getElem?_replicate_of_lt (by omega), if_neg (by omega)]
        rfl
      · rw [List.getElem?_append_right (by simp; omega)]
        by_cases h3 : j = i
        · subst h3; simp
        · rw [if_neg h3, List.getElem?_eq_none (by simp; omega)]

theorem listPut_length {α : Type} (l : List α) (i : Nat) (x fill : α) :
    (listPut l i x fill).length = max l.length (i + 1) := by
  unfold listPut; split
  · rw [List.length_set]; omega
  · simp; omega

namespace RlStream

@[simp] theorem set_cap (r : RlStream) (i : Nat) (w : Half) : (r.set i w).cap = r.cap := rfl
@[simp] theorem set_o (r : RlStream) (i : Nat) (w : Half) : (r.set i w).o = r.o := rfl

theorem read_set (r : RlStream) (i : Nat) (w : Half) (j : Nat) :
    (r.set i w).read j = if j = i ∧ j < r.cap then w else r.read j := by
  unfold read
  rw [set_cap]
  by_cases hj : j < r.cap
  · rw [if_pos hj, set, listPut_getD, if_pos hj]
    simp only [hj, and_true]
  · rw [if_neg hj, if_neg (by omega), if_neg hj]

theorem read_past (r : RlStream) {c : Nat} (h : r.cap ≤ c) : r.read c = Config.eob := by
  rw [read, if_neg (by omega)]

/-- The read depends on the words and the capacity alone. -/
theorem read_congr {r r' : RlStream} (h1 : r.words = r'.words) (h2 : r.cap = r'.cap) (c : Nat) :
    r.read c = r'.read c := by unfold read; rw [h1, h2]

@[simp] theorem emit_cap (r : RlStream) (w : Half) : (r.emit w).cap = r.cap := by unfold emit; split <;> rfl

theorem emit_full (r : RlStream) (w : Half) (h : r.cap ≤ r.o) : r.emit w = r := by
  rw [emit, if_neg (by omega)]

theorem emit_eq (r : RlStream) (w : Half) (h : r.o < r.cap) : r.emit w = { r.set r.o w with o := r.o + 1 } := by
  rw [emit, if_pos h]

/-- Everything a write at the index does. -/
theorem emit_writes (r : RlStream) (w : Half) (h : r.o < r.cap) : RlWrites r w (r.emit w) := by
  have hr : ∀ c, (r.emit w).read c = (r.set r.o w).read c := fun c => by
    rw [emit_eq r w h]; exact read_congr rfl rfl c
  exact
    { cap := emit_cap r w
      index := by rw [emit_eq r w h]
      word := by rw [hr, read_set, if_pos ⟨rfl, h⟩]
      others := fun i hi => by rw [hr, read_set, if_neg (by tauto)] }

theorem emit_length (r : RlStream) (w : Half) (h : r.o < r.cap) (hl : r.words.length = r.o) :
    (r.emit w).words.length = (r.emit w).o := by
  rw [emit_eq r w h]
  simp only [set, listPut_length]
  omega

theorem pad_read (r : RlStream) (hl : r.words.length = r.o) (h : r.o ≤ r.cap) (i : Nat) :
    r.pad.read i = if i < r.o then r.read i else Config.eob := by
  unfold read pad
  by_cases h1 : i < r.cap
  · simp only [h1, if_true]
    by_cases h2 : i < r.o
    · rw [if_pos h2, List.getElem?_append_left (by omega)]
    · rw [if_neg h2, List.getElem?_append_right (by omega), List.getElem?_replicate_of_lt (by omega)]; rfl
  · simp only [h1, if_false, ite_self]

theorem pad_length (r : RlStream) (hl : r.words.length = r.o) (h : r.o ≤ r.cap) : r.pad.words.length = r.cap := by
  simp [pad, hl]; omega

@[simp] theorem pad_cap (r : RlStream) : r.pad.cap = r.cap := rfl

theorem pad_o (r : RlStream) (h : r.o ≤ r.cap) : r.pad.o = r.cap := by simp [pad, h]

end RlStream

/-! ### Elements -/

theorem rlWord_ofNat (hi : BitVec 6) (lo : BitVec 10) : rlWord hi lo = BitVec.ofNat 16 (hi.toNat * 2 ^ 10 + lo.toNat) := by
  have h1 := hi.isLt
  have h2 := lo.isLt
  apply BitVec.eq_of_toNat_eq
  rw [BitVec.toNat_ofNat, rlWord, BitVec.toNat_append, ← Nat.shiftLeft_add_eq_or_of_lt h2, Nat.shiftLeft_eq,
    Nat.mod_eq_of_lt (by omega)]

/-- A pass writes one word and leaves the capacity (R184). -/
theorem depackPass_rl (rom : Config.Rom) (cb : Nat → Byte) (g : Engine) (ho : g.rl.o < g.rl.cap)
    (hm : g.br.hasMore = true) : ∃ w, (depackPass rom cb g).rl = g.rl.emit w := by
  unfold depackPass
  split
  · set g' := g.huffTook (windowEntry rom (g.br.window cb)) with hg'
    have h' : g'.rl = g.rl := rfl
    simp only [Engine.entry]
    split
    · exact ⟨Config.eob, rfl⟩
    · refine ⟨g'.br.window cb, ?_⟩
      simp only [Engine.entryEsc, Engine.rawWord]
      rw [if_pos (by rw [h']; exact ho), h']
    · exact ⟨_, rfl⟩
  · unfold Engine.header
    rw [if_pos ⟨ho, hm⟩]
    exact ⟨_, rfl⟩

/-- The parts of the engine that the depacker does not touch. -/
structure SameRest (g g' : Engine) : Prop where
  blk    : g'.blk = g.blk
  sb     : g'.sb = g.sb
  px     : g'.px = g.px
  st     : g'.st = g.st
  res    : g'.res = g.res
  raised : g'.raised = g.raised
  draws  : g'.draws = g.draws

theorem SameRest.refl (g : Engine) : SameRest g g := ⟨rfl, rfl, rfl, rfl, rfl, rfl, rfl⟩

theorem SameRest.trans {a b c : Engine} (h : SameRest a b) (k : SameRest b c) : SameRest a c :=
  ⟨k.blk.trans h.blk, k.sb.trans h.sb, k.px.trans h.px, k.st.trans h.st, k.res.trans h.res, k.raised.trans h.raised,
    k.draws.trans h.draws⟩

theorem depackPass_same (rom : Config.Rom) (cb : Nat → Byte) (g : Engine) : SameRest g (depackPass rom cb g) := by
  unfold depackPass Engine.entry Engine.entryEsc Engine.rawWord Engine.header
  dsimp only
  split_ifs <;> (try split) <;> exact ⟨rfl, rfl, rfl, rfl, rfl, rfl, rfl⟩

/-- Whatever a pass keeps, the loop keeps. -/
theorem depackLoop_induct {P : Engine → Prop} (rom : Config.Rom) (cb : Nat → Byte)
    (step : ∀ g, P g → g.rl.o < g.rl.cap → g.br.hasMore = true → P (depackPass rom cb g)) :
    ∀ n g, P g → P (depackLoop rom cb n g) := by
  intro n
  induction n with
  | zero => exact fun g h => h
  | succ n ih =>
    intro g h
    rw [depackLoop]
    split
    · rename_i hc; exact ih _ (step g h hc.1 hc.2)
    · exact h

/-- What every pass keeps of the stream. -/
structure RlShape (cap : Nat) (first second : Half) (g : Engine) : Prop where
  cap_eq : g.rl.cap = cap
  length : g.rl.words.length = g.rl.o
  start  : 2 ≤ g.rl.o
  bound  : g.rl.o ≤ cap
  word0  : g.rl.read 0 = first
  word1  : g.rl.read 1 = second

theorem depackPass_shape {cap : Nat} {a b : Half} (rom : Config.Rom) (cb : Nat → Byte) (g : Engine)
    (h : RlShape cap a b g) (ho : g.rl.o < g.rl.cap) (hm : g.br.hasMore = true) :
    RlShape cap a b (depackPass rom cb g) := by
  obtain ⟨w, hw⟩ := depackPass_rl rom cb g ho hm
  have hs := RlStream.emit_writes g.rl w ho
  have h2 := h.start
  constructor
  · rw [hw, hs.cap, h.cap_eq]
  · rw [hw]; exact RlStream.emit_length _ _ ho h.length
  · rw [hw, hs.index]; omega
  · have h3 := h.cap_eq
    rw [hw, hs.index]; omega
  · rw [hw, hs.others 0 (by omega), h.word0]
  · rw [hw, hs.others 1 (by omega), h.word1]

theorem depackLoop_shape {cap : Nat} {a b : Half} (rom : Config.Rom) (cb : Nat → Byte) (n : Nat) (g : Engine)
    (h : RlShape cap a b g) : RlShape cap a b (depackLoop rom cb n g) :=
  depackLoop_induct rom cb (fun g hg ho hm => depackPass_shape rom cb g hg ho hm) n g h

theorem capacity_ge (n : Nat) : 16 ≤ capacity n := le_max_left _ _

theorem depackStart_shape (length len : Nat) (g : Engine) :
    RlShape (capacity length) (BitVec.ofNat 16 (min (capacity length) 0xFFFF)) Config.magic
      (depackStart length len g) := by
  have hc := capacity_ge length
  have key : ∀ c, (depackStart length len g).rl.read c =
      (((RlStream.mk [] (capacity length) 0).putCount).putMagic).read c := fun c => RlStream.read_congr rfl rfl c
  constructor
  · rfl
  · rfl
  · exact le_rfl
  · show 2 ≤ capacity length; omega
  · rw [key, RlStream.putMagic, RlStream.read_set, if_neg (by omega), RlStream.putCount, RlStream.read_set,
      if_pos ⟨rfl, by show 0 < capacity length; omega⟩]
  · rw [key, RlStream.putMagic, RlStream.read_set, if_pos ⟨rfl, by show 1 < capacity length; omega⟩]

/-! ### The state and its engine -/

@[simp] theorem setEng_setEng (s : State) (g g' : Engine) : (s.setEng g).setEng g' = s.setEng g' := rfl
theorem setEng_self (s : State) : s.setEng s.eng = s := rfl
theorem chunk_setEng (s : State) (g : Engine) : (s.setEng g).chunk = s.chunk := rfl
theorem chunkAdmitted_setEng (s : State) (g : Engine) : (s.setEng g).chunkAdmitted = s.chunkAdmitted := rfl

theorem depackGoes_iff (s : State) :
    s.depackGoes ↔ s.eng.rl.o < s.eng.rl.cap ∧ s.eng.br.hasMore = true := by
  unfold State.depackGoes; rw [hasMore_iff]

/-- An entry's row does what its class says (R180 to R182). -/
theorem exec_entryInstr (x : Word) (s : State) (ha : s.chunkAdmitted = true) :
    exec (entryInstr x) s = .next (s.setEng (s.eng.entry s.chunk x)) := by
  unfold entryInstr Engine.entry
  cases entryClass x
  · rfl
  · show execEntEsc x s = _
    rw [execEntEsc, if_pos (Or.inr (bitsAdmitted_of_admitted ha 16))]
  · rfl

/-- DEPACK's loop is a run of elements. -/
theorem depackRuns_loop : ∀ n (s : State), s.chunkAdmitted = true → s.eng.rl.cap - s.eng.rl.o ≤ n →
    DepackRuns s (s.setEng (depackLoop s.rom s.chunk n s.eng)) := by
  intro n
  induction n with
  | zero =>
    intro s _ hn
    exact .stop fun h => by have := h.1; omega
  | succ n ih =>
    intro s ha hn
    by_cases hg : s.eng.rl.o < s.eng.rl.cap ∧ s.eng.br.hasMore = true
    · obtain ⟨w, hw⟩ := depackPass_rl s.rom s.chunk s.eng hg.1 hg.2
      have hs := RlStream.emit_writes s.eng.rl w hg.1
      set t := s.setEng (depackPass s.rom s.chunk s.eng) with ht
      have hrun := ih t ha (by
        show (depackPass s.rom s.chunk s.eng).rl.cap - (depackPass s.rom s.chunk s.eng).rl.o ≤ n
        rw [hw, hs.cap, hs.index]; omega)
      have heq : t.setEng (depackLoop t.rom t.chunk n t.eng) = s.setEng (depackLoop s.rom s.chunk (n + 1) s.eng) := by
        rw [depackLoop, if_pos hg]; rfl
      rw [heq] at hrun
      by_cases hb : s.eng.inBlock = true
      · refine .code ((depackGoes_iff s).2 hg) hb
          (t := s.setEng (s.eng.huffTook (windowEntry s.rom (s.eng.br.window s.chunk)))) ?_ ?_ hrun
        · show execHuffDecodeNext s = _
          rw [execHuffDecodeNext, if_pos (bitsAdmitted_of_admitted ha 16)]
        · have : (s.setEng (s.eng.huffTook (windowEntry s.rom (s.eng.br.window s.chunk)))).eng.huff.toEntry =
              (windowEntry s.rom (s.eng.br.window s.chunk)).1 := toEntry_huffResult _
          rw [this]
          refine (exec_entryInstr _ (s.setEng (s.eng.huffTook (windowEntry s.rom (s.eng.br.window s.chunk)))) ha).trans ?_
          rw [ht, depackPass, if_pos hb]
          rfl
      · have hb' : s.eng.inBlock = false := by simpa using hb
        refine .header ((depackGoes_iff s).2 hg) hb' ?_ hrun
        show execBlkHdr _ s = _
        rw [execBlkHdr, ht, depackPass, if_neg hb, ← peek_eq]
        rfl
    · rw [depackLoop, if_neg hg]
      exact .stop fun h => hg ((depackGoes_iff s).1 h)

/-! ### The operation -/

/-- DEPACK of a good chunk. -/
theorem depack_good {s : State} (h : s.GoodChunk) :
    s.depack = .ok
      (let g := depackLoop s.rom s.chunk (capacity (chunkWord s 0)) (depackStart (chunkWord s 0) s.lLen.toNat s.eng)
       { g with rl := g.rl.pad }) := by
  have h8 := h.header_present
  unfold State.depack depackRun
  rw [if_pos h.chunk_admitted, if_neg (by unfold Config.headerBytes; omega), chunkHalf_eq, h.magic, chunkHalf_eq,
    if_neg (by decide)]

theorem depack_short {s : State} (ha : s.chunkAdmitted = true) (h : s.lLen.toNat < 8) :
    s.depack = .raise .truncatedStream := by
  unfold State.depack depackRun
  rw [if_pos ha, if_pos (by unfold Config.headerBytes; omega)]

theorem depack_magic {s : State} (ha : s.chunkAdmitted = true) (h8 : 8 ≤ s.lLen.toNat) (h : chunkWord s 2 ≠ 0x3800) :
    s.depack = .raise .malformedStream := by
  unfold State.depack depackRun
  rw [if_pos ha, if_neg (by unfold Config.headerBytes; omega), chunkHalf_eq, if_pos (by exact h)]

theorem depack_stuck {s : State} (ha : s.chunkAdmitted = false) : s.depack = .stuck .chunkNotAdmitted := by
  unfold State.depack; rw [ha]; rfl

/-- DEPACK answers an engine only for a good chunk. -/
theorem goodChunk_of_depack {s : State} {g : Engine} (h : s.depack = .ok g) : s.GoodChunk := by
  by_cases ha : s.chunkAdmitted = true
  · by_cases h8 : s.lLen.toNat < 8
    · rw [depack_short ha h8] at h; cases h
    · by_cases hm : chunkWord s 2 = 0x3800
      · exact ⟨ha, by omega, hm⟩
      · rw [depack_magic ha (by omega) hm] at h; cases h
  · rw [depack_stuck (by simpa using ha)] at h; cases h

/-- The stream DEPACK leaves (R173, R174, R184). -/
theorem depack_stream {s : State} {g : Engine} (h : s.depack = .ok g) :
    g.rl.cap = capacity (chunkWord s 0) ∧ g.rl.words.length = g.rl.cap ∧ g.rl.o = g.rl.cap ∧
      g.rl.read 0 = BitVec.ofNat 16 (min g.rl.cap 0xFFFF) ∧ g.rl.read 1 = Config.magic := by
  have hg := goodChunk_of_depack h
  rw [depack_good hg] at h
  have hs := depackLoop_shape s.rom s.chunk (capacity (chunkWord s 0)) _
    (depackStart_shape (chunkWord s 0) s.lLen.toNat s.eng)
  injection h with h
  subst h
  have h1 := hs.cap_eq
  have h2 := hs.bound
  have h3 := hs.start
  refine ⟨h1, RlStream.pad_length _ hs.length (by omega), RlStream.pad_o _ (by omega), ?_, ?_⟩
  · show RlStream.read (RlStream.pad _) 0 = _
    rw [RlStream.pad_read _ hs.length (by omega), if_pos (by omega), hs.word0]
    exact congrArg (fun c => BitVec.ofNat 16 (min c 0xFFFF)) h1.symm
  · show RlStream.read (RlStream.pad _) 1 = _
    rw [RlStream.pad_read _ hs.length (by omega), if_pos (by omega), hs.word1]

/-- The stream is a function of the constants and the chunk alone (R41, R42). -/
theorem depack_congr {s s' : State} {g g' : Engine} (h : s.depack = .ok g) (h' : s'.depack = .ok g')
    (hr : s.rom = s'.rom) (hl : s.lLen = s'.lLen) (hc : s.chunk = s'.chunk) : g.rl = g'.rl := by
  have loop : ∀ n (a b : Engine), a.rl = b.rl → a.br = b.br → a.inBlock = b.inBlock →
      (depackLoop s.rom s.chunk n a).rl = (depackLoop s.rom s.chunk n b).rl := by
    intro n
    induction n with
    | zero => exact fun a b h _ _ => h
    | succ n ih =>
      intro a b h1 h2 h3
      have hp : (depackPass s.rom s.chunk a).rl = (depackPass s.rom s.chunk b).rl ∧
          (depackPass s.rom s.chunk a).br = (depackPass s.rom s.chunk b).br ∧
          (depackPass s.rom s.chunk a).inBlock = (depackPass s.rom s.chunk b).inBlock := by
        unfold depackPass Engine.entry Engine.entryEsc Engine.rawWord Engine.header Engine.huffTook Engine.entryEob
          Engine.entryAc
        dsimp only
        rw [h1, h2, h3]
        by_cases hb : b.inBlock = true
        · rw [if_pos hb, if_pos hb]
          cases entryClass (windowEntry s.rom (b.br.window s.chunk)).1 <;> dsimp only
          · exact ⟨rfl, rfl, rfl⟩
          · split_ifs <;> exact ⟨rfl, rfl, rfl⟩
          · exact ⟨rfl, rfl, rfl⟩
        · rw [if_neg hb, if_neg hb]
          split_ifs
          · exact ⟨rfl, rfl, rfl⟩
          · exact ⟨h1, h2, h3⟩
      rw [depackLoop, depackLoop, h1, h2]
      split
      · exact ih _ _ hp.1 hp.2.1 hp.2.2
      · exact h1
  rw [depack_good (goodChunk_of_depack h)] at h
  rw [depack_good (goodChunk_of_depack h')] at h'
  injection h with h
  injection h' with h'
  have hw : chunkWord s 0 = chunkWord s' 0 := by rw [← chunkHalf_eq, ← chunkHalf_eq, hc]
  subst h; subst h'
  show RlStream.pad _ = RlStream.pad _
  rw [← hr, ← hc, ← hw, ← hl]
  congr 1
  exact loop _ _ _ rfl rfl rfl

/-- DEPACK leaves everything of the engine but the reader, the stream and the last code. -/
theorem depack_same {s : State} {g : Engine} (h : s.depack = .ok g) : SameRest { s.eng with raised := none } g := by
  rw [depack_good (goodChunk_of_depack h)] at h
  injection h with h
  subst h
  have hl := depackLoop_induct s.rom s.chunk
    (P := fun g => SameRest { s.eng with raised := none } g)
    (fun g hg _ _ => hg.trans (depackPass_same s.rom s.chunk g)) (capacity (chunkWord s 0))
    (depackStart (chunkWord s 0) s.lLen.toNat s.eng) ⟨rfl, rfl, rfl, rfl, rfl, rfl, rfl⟩
  exact ⟨hl.blk, hl.sb, hl.px, hl.st, hl.res, hl.raised, hl.draws⟩

end Sys2Proof.Machine
end

