-- ==== Sys2Proof/Laws/BlockDecoder.lean ====
section
/-! SUPPORT. Values held to s32, the IQ table, the RL words and the block decoder as the words it takes
(43_dequant_block.md R200 to R213). -/

namespace Sys2Proof.Machine

/-! ### Values held to s32 (R213) -/

theorem inS32_iff {v : Int} : inS32 v = true ↔ -2 ^ 31 ≤ v ∧ v < 2 ^ 31 := by simp [inS32]

theorem word_toInt_range (w : Word) : -2 ^ 31 ≤ w.toInt ∧ w.toInt < 2 ^ 31 := by
  have h1 := BitVec.le_toInt w
  have h2 := BitVec.toInt_lt (x := w)
  norm_num at *
  exact ⟨h1, h2⟩

/-- The result is always in s32. -/
theorem s32OrDraw_range (exact : List Int) (v : Int) (d : Nat) :
    -2 ^ 31 ≤ s32OrDraw exact v d ∧ s32OrDraw exact v d < 2 ^ 31 := by
  unfold s32OrDraw
  split
  · rename_i h
    exact inS32_iff.1 (List.all_eq_true.1 h v List.mem_cons_self)
  · exact word_toInt_range _

/-- Where everything fits, the result is exact. -/
theorem s32OrDraw_eq {exact : List Int} {v : Int} (d : Nat) (h : ∀ x ∈ v :: exact, -2 ^ 31 ≤ x ∧ x < 2 ^ 31) :
    s32OrDraw exact v d = v := by
  unfold s32OrDraw
  rw [if_pos]
  exact List.all_eq_true.2 fun x hx => inS32_iff.2 (h x hx)

theorem asr_eq (v : Int) (n : Nat) : asr v n = floorShift v n := by
  unfold asr floorShift
  rw [Int.fdiv_eq_ediv_of_nonneg _ (by positivity)]

/-! ### The IQ table -/

theorem one_le_iq (rom : Config.Rom) (i : Fin 64) : 1 ≤ iq rom i := le_max_left _ _

theorem aanScale_eq (rom : Config.Rom) (i : Fin 64)
    (h : (rom.aanF[i.val / 8] * rom.aanF[i.val % 8] : Int) + 8192 < 2 ^ 31) :
    aanScale rom i = floorShift ((rom.aanF[i.val / 8] * rom.aanF[i.val % 8] : Int) + 8192) 14 := by
  have h0 : (0 : Int) ≤ rom.aanF[i.val / 8] * rom.aanF[i.val % 8] := by positivity
  have h1 : inS32 (rom.aanF[i.val / 8] * rom.aanF[i.val % 8] : Int) = true := inS32_iff.2 (by omega)
  have h2 : inS32 ((rom.aanF[i.val / 8] * rom.aanF[i.val % 8] : Int) + 8192) = true := inS32_iff.2 (by omega)
  unfold aanScale
  simp only [Config.rowOf, Config.colOf, Fin.getElem_fin, h1, h2, Bool.and_self, if_true, asr_eq]

theorem iq_eq (rom : Config.Rom) (i : Fin 64) (h0 : 0 ≤ aanScale rom i)
    (h : (rom.baseQuant[i] : Int) * aanScale rom i + 2048 < 2 ^ 31) :
    iq rom i = max 1 (floorShift ((rom.baseQuant[i] : Int) * aanScale rom i + 2048) 12) := by
  have h0 : (0 : Int) ≤ rom.baseQuant[i] * aanScale rom i := mul_nonneg (Int.natCast_nonneg _) h0
  have h1 : inS32 ((rom.baseQuant[i] : Int) * aanScale rom i) = true := inS32_iff.2 (by omega)
  have h2 : inS32 ((rom.baseQuant[i] : Int) * aanScale rom i + 2048) = true := inS32_iff.2 (by omega)
  unfold iq
  simp only [h1, h2, Bool.and_self, if_true, asr_eq]

/-! ### RL words -/

theorem rlHigh_eq (w : Half) : rlHigh w = BitVec.ofNat 6 (w.toNat / 2 ^ 10) := by
  apply BitVec.eq_of_toNat_eq; simp [rlHigh, Nat.shiftRight_eq_div_pow]

theorem rlLow_eq (w : Half) : rlLow w = BitVec.ofNat 10 w.toNat := by
  apply BitVec.eq_of_toNat_eq; simp [rlLow]

theorem vector_set_get {α : Type} {n : Nat} (v : Vector α n) (i j : Fin n) (x : α) :
    (v.set i x)[j] = if i = j then x else v[j] := by
  simp only [Fin.getElem_fin, Vector.getElem_set]
  by_cases h : i = j
  · rw [if_pos (congrArg Fin.val h), if_pos h]
  · rw [if_neg (fun h' => h (Fin.ext h')), if_neg h]

/-- The coefficients of a header word. -/
theorem header_fb (rom : Config.Rom) (qs : BitVec 6) (dc : BitVec 10) (d : Nat) (b : Block) (i : Fin 64) :
    (b.header rom qs dc d).fb[i] = if i = 0 then s32OrDraw [] (iq rom 0 * dc.toInt) d else 0 := by
  show ((Vector.replicate 64 (0 : Int)).set 0 _)[i] = _
  rw [show (Vector.replicate 64 (0 : Int)).set 0 (s32OrDraw [] (iq rom 0 * sext10 dc) d) =
    (Vector.replicate 64 (0 : Int)).set (0 : Fin 64) (s32OrDraw [] (iq rom 0 * sext10 dc) d) from rfl, vector_set_get]
  by_cases h : i = 0
  · subst h; rfl
  · rw [if_neg (Ne.symm h), if_neg h]; simp

/-- Everything an AC word below `k = 64` does. -/
theorem ac_below {rom : Config.Rom} {rl : RlStream} {run : BitVec 6} {lvl : BitVec 10} {d : Nat} {b : Block}
    (h : b.k + run.toNat + 1 < 64) :
    b.ac rom rl run lvl d =
      { b with
        k := b.k + run.toNat + 1, c := b.c + 1
        fb := b.fb.set (rom.zigzag[b.k + run.toNat + 1] : Fin 64)
          (dequant rom b.qs lvl rom.zigzag[b.k + run.toNat + 1] d) } := by
  unfold Block.ac; simp only [h, dite_true]

/-- Everything an AC word at `k >= 64` does. -/
theorem ac_above {rom : Config.Rom} {rl : RlStream} {run : BitVec 6} {lvl : BitVec 10} {d : Nat} {b : Block}
    (h : 64 ≤ b.k + run.toNat + 1) :
    b.ac rom rl run lvl d =
      { b with
        k := b.k + run.toNat + 1, inside := false
        c := match rom.kovfResync with
          | .none => b.c + 1
          | .skipToEob => skipToEob rl (rl.cap - (b.c + 1)) (b.c + 1) } := by
  unfold Block.ac
  refine (dif_neg (by omega)).trans ?_
  cases rom.kovfResync <;> rfl

/-- The skip ends just past the first EOB word at or after the cursor. -/
theorem skipToEob_spec (rl : RlStream) : ∀ n c, rl.cap - c ≤ n →
    c < skipToEob rl n c ∧ rl.read (skipToEob rl n c - 1) = Config.eob ∧
      (∀ j, c ≤ j → j < skipToEob rl n c - 1 → rl.read j ≠ Config.eob) ∧ skipToEob rl n c ≤ max c rl.cap + 1 := by
  intro n
  induction n with
  | zero =>
    intro c hn
    refine ⟨by simp [skipToEob], ?_, ?_, ?_⟩
    · simp only [skipToEob, Nat.add_sub_cancel]; exact rl.read_past (by omega)
    · simp only [skipToEob, Nat.add_sub_cancel]; intro j h1 h2; omega
    · simp only [skipToEob]; omega
  | succ n ih =>
    intro c hn
    by_cases hc : rl.read c = Config.eob
    · rw [skipToEob, if_pos hc]
      refine ⟨by omega, by rw [Nat.add_sub_cancel]; exact hc, fun j h1 h2 => by omega, by omega⟩
    · have hlt : c < rl.cap := by
        by_contra h; exact hc (rl.read_past (by omega))
      rw [skipToEob, if_neg hc]
      obtain ⟨h1, h2, h3, h4⟩ := ih (c + 1) (by omega)
      refine ⟨by omega, h2, fun j h5 h6 => ?_, by omega⟩
      by_cases hj : j = c
      · subst hj; exact hc
      · exact h3 j (by omega) h6

/-! ### The block decoder -/

/-- A word in AC position, as its row does it (R106). -/
theorem exec_acInstr (s : State) :
    exec (acInstr (s.eng.rl.read s.eng.blk.c)) s =
      .next (s.setEng { s.eng with
        blk := (s.eng.blk.acStep s.rom s.eng.rl s.eng.draws).1
        draws := (s.eng.blk.acStep s.rom s.eng.rl s.eng.draws).2 }) := by
  unfold acInstr Block.acStep
  dsimp only
  split <;> rfl

theorem acStep_open (rom : Config.Rom) (rl : RlStream) (d : Nat) (b : Block) (h : (b.acStep rom rl d).1.inside = true) :
    rl.read b.c ≠ Config.eob ∧ b.k + (rlHigh (rl.read b.c)).toNat + 1 < 64 := by
  unfold Block.acStep at h
  dsimp only at h
  split at h
  · simp [Block.eob] at h
  · rename_i hw
    refine ⟨hw, ?_⟩
    by_contra hk
    rw [ac_above (by omega)] at h
    simp at h

/-- An invariant of the AC words of one block, and what they are bounded by. -/
theorem blockLoop_spec (rom : Config.Rom) (rl : RlStream) : ∀ n d (b : Block), b.inside = true → b.k < 64 →
    64 ≤ n + b.k →
    (blockLoop rom rl n d b).1.inside = false ∧ b.c + 1 ≤ (blockLoop rom rl n d b).1.c ∧
      (rom.kovfResync = .none → (blockLoop rom rl n d b).1.c ≤ b.c + (64 - b.k)) ∧
      (rom.kovfResync = .skipToEob → (blockLoop rom rl n d b).1.c ≤ max (b.c + (64 - b.k)) rl.cap + 1) := by
  intro n
  induction n with
  | zero => intro d b _ h1 h2; omega
  | succ n ih =>
    intro d b hb hk hn
    rw [blockLoop, if_pos hb]
    by_cases ho : (b.acStep rom rl d).1.inside = true
    · obtain ⟨hw, hk'⟩ := acStep_open rom rl d b ho
      have hs : (b.acStep rom rl d).1 = b.ac rom rl (rlHigh (rl.read b.c)) (rlLow (rl.read b.c)) d := by
        unfold Block.acStep; dsimp only; rw [if_neg hw]
      rw [ac_below hk'] at hs
      have hkk : (b.acStep rom rl d).1.k = b.k + (rlHigh (rl.read b.c)).toNat + 1 := by rw [hs]
      have hcc : (b.acStep rom rl d).1.c = b.c + 1 := by rw [hs]
      obtain ⟨h1, h2, h3, h4⟩ := ih (b.acStep rom rl d).2 _ ho (by omega) (by omega)
      rw [hcc] at h2 h3 h4
      rw [hkk] at h3 h4
      exact ⟨h1, by omega, fun h => by have := h3 h; omega, fun h => by have := h4 h; omega⟩
    · have ho' : (b.acStep rom rl d).1.inside = false := by simpa using ho
      have hl : blockLoop rom rl n (b.acStep rom rl d).2 (b.acStep rom rl d).1 = b.acStep rom rl d := by
        cases n with
        | zero => rfl
        | succ n => rw [blockLoop, if_neg ho]
      rw [hl]
      refine ⟨ho', ?_⟩
      unfold Block.acStep at ho ⊢
      dsimp only at ho ⊢
      split
      · exact ⟨le_rfl, fun _ => by show b.c + 1 ≤ _; omega, fun _ => by show b.c + 1 ≤ _; omega⟩
      · rename_i hw
        rw [if_neg hw] at ho
        have hk' : 64 ≤ b.k + (rlHigh (rl.read b.c)).toNat + 1 := by
          by_contra hc
          rw [ac_below (by omega)] at ho
          exact ho hb
        have hsk := skipToEob_spec rl (rl.cap - (b.c + 1)) (b.c + 1) le_rfl
        rw [ac_above hk']
        cases hkr : rom.kovfResync
        · exact ⟨le_rfl, fun _ => by show b.c + 1 ≤ _; omega, fun h => by cases h⟩
        · refine ⟨by dsimp only; omega, (fun h => by cases h), fun _ => ?_⟩
          dsimp only; omega

/-- The loop is a run of words. -/
theorem blockRuns_loop : ∀ n (s : State), (s.eng.blk.inside = true → s.eng.blk.k < 64 ∧ 64 ≤ n + s.eng.blk.k) →
    BlockRuns s (s.setEng { s.eng with
      blk := (blockLoop s.rom s.eng.rl n s.eng.draws s.eng.blk).1
      draws := (blockLoop s.rom s.eng.rl n s.eng.draws s.eng.blk).2 }) := by
  intro n
  induction n with
  | zero =>
    intro s h
    by_cases hb : s.eng.blk.inside = true
    · have := h hb; omega
    · exact .done (by simpa using hb)
  | succ n ih =>
    intro s h
    by_cases hb : s.eng.blk.inside = true
    · refine .word hb (exec_acInstr s) ?_
      set t := s.setEng { s.eng with
        blk := (s.eng.blk.acStep s.rom s.eng.rl s.eng.draws).1
        draws := (s.eng.blk.acStep s.rom s.eng.rl s.eng.draws).2 } with ht
      have := ih t fun ho => by
        obtain ⟨hw, hk'⟩ := acStep_open s.rom s.eng.rl s.eng.draws s.eng.blk ho
        have hs : t.eng.blk = s.eng.blk.ac s.rom s.eng.rl (rlHigh (s.eng.rl.read s.eng.blk.c))
            (rlLow (s.eng.rl.read s.eng.blk.c)) s.eng.draws := by
          rw [ht]; show (Block.acStep _ _ _ _).1 = _
          unfold Block.acStep; dsimp only; rw [if_neg hw]
        rw [ac_below hk'] at hs
        have hk2 : t.eng.blk.k = s.eng.blk.k + (rlHigh (s.eng.rl.read s.eng.blk.c)).toNat + 1 := by rw [hs]
        have := h hb
        omega
      rw [blockLoop, if_pos hb]
      exact this
    · rw [blockLoop, if_neg hb]
      exact .done (by simpa using hb)

/-- Whatever each word of a block keeps, the block keeps. -/
theorem blockLoop_induct {P : Block → Prop} (rom : Config.Rom) (rl : RlStream)
    (step : ∀ b d, P b → P (b.acStep rom rl d).1) : ∀ n d b, P b → P (blockLoop rom rl n d b).1 := by
  intro n
  induction n with
  | zero => exact fun _ _ h => h
  | succ n ih =>
    intro d b h
    rw [blockLoop]
    split
    · exact ih _ _ (step b d h)
    · exact h

/-- `ZIGZAG` is one to one, and no position but 0 is the DC (R201, R212). -/
theorem zigzag_ne_zero {rom : Config.Rom} (h : rom.wf = true) {k : Nat} (hk : k < 64) (h0 : k ≠ 0) :
    (rom.zigzag[k] : Fin 64) ≠ 0 := by
  unfold Config.Rom.wf at h
  simp only [Bool.and_eq_true, beq_iff_eq, decide_eq_true_eq, List.all_eq_true] at h
  obtain ⟨⟨⟨hz, hall⟩, _⟩, _⟩ := h
  have hsub : List.finRange 64 ⊆ rom.zigzag.toList := fun i hi => by
    have := hall i hi
    rwa [List.contains_iff_mem] at this
  have hperm : (List.finRange 64).Perm rom.zigzag.toList :=
    ((List.nodup_finRange 64).subperm hsub).perm_of_length_le (by simp)
  have hnd : rom.zigzag.toList.Nodup := hperm.nodup_iff.1 (List.nodup_finRange 64)
  intro heq
  rw [← hz] at heq
  have e1 : rom.zigzag.toList[k]'(by simpa using hk) = rom.zigzag[k] := by simp
  have e2 : rom.zigzag.toList[0]'(by simp) = rom.zigzag[0] := by simp
  exact h0 ((hnd.getElem_inj_iff (hi := by simpa using hk) (hj := by simp)).1 (e1.trans (heq.trans e2.symm)))

/-- No AC word overwrites the DC (R212). -/
theorem acStep_dc {rom : Config.Rom} (h : rom.wf = true) (rl : RlStream) (b : Block) (d : Nat) :
    (b.acStep rom rl d).1.fb[(0 : Fin 64)] = b.fb[(0 : Fin 64)] := by
  unfold Block.acStep
  dsimp only
  split
  · rfl
  · by_cases hk : b.k + (rlHigh (rl.read b.c)).toNat + 1 < 64
    · rw [ac_below hk]
      show (b.fb.set (rom.zigzag[b.k + (rlHigh (rl.read b.c)).toNat + 1] : Fin 64) _)[(0 : Fin 64)] = _
      rw [vector_set_get, if_neg (zigzag_ne_zero h hk (by omega))]
    · rw [ac_above (by omega)]

/-- What DECODE_BLOCK leaves is a function of the constants, the stream, the cursor and the draw counter: the block is
set before it is read (R41, R212). -/
theorem blockRun_congr (rom : Config.Rom) (rl : RlStream) (d : Nat) {b b' : Block} (h : b.c = b'.c) :
    blockRun rom rl d b = blockRun rom rl d b' := by
  unfold blockRun Block.header
  rw [h]

end Sys2Proof.Machine
end

