-- ==== Sys2Proof/Laws/State.lean ====
section
/-! SUPPORT. What each named update of the state leaves in each field, so that no proof unfolds an update. -/

namespace Sys2Proof.Machine

variable (s : State)

/-! ### setEng -/

@[simp] theorem setEng_irqEn (e : Engine) : (s.setEng e).irqEn = s.irqEn := rfl
@[simp] theorem setEng_busy (e : Engine) : (s.setEng e).busy = s.busy := rfl
@[simp] theorem setEng_done (e : Engine) : (s.setEng e).done = s.done := rfl
@[simp] theorem setEng_err (e : Engine) : (s.setEng e).err = s.err := rfl
@[simp] theorem setEng_errCode (e : Engine) : (s.setEng e).errCode = s.errCode := rfl
@[simp] theorem setEng_srcAddr (e : Engine) : (s.setEng e).srcAddr = s.srcAddr := rfl
@[simp] theorem setEng_srcLen (e : Engine) : (s.setEng e).srcLen = s.srcLen := rfl
@[simp] theorem setEng_width (e : Engine) : (s.setEng e).width = s.width := rfl
@[simp] theorem setEng_height (e : Engine) : (s.setEng e).height = s.height := rfl
@[simp] theorem setEng_dstAddr (e : Engine) : (s.setEng e).dstAddr = s.dstAddr := rfl
@[simp] theorem setEng_lSrc (e : Engine) : (s.setEng e).lSrc = s.lSrc := rfl
@[simp] theorem setEng_lLen (e : Engine) : (s.setEng e).lLen = s.lLen := rfl
@[simp] theorem setEng_lW (e : Engine) : (s.setEng e).lW = s.lW := rfl
@[simp] theorem setEng_lH (e : Engine) : (s.setEng e).lH = s.lH := rfl
@[simp] theorem setEng_lDst (e : Engine) : (s.setEng e).lDst = s.lDst := rfl
@[simp] theorem setEng_eng (e : Engine) : (s.setEng e).eng = e := rfl
@[simp] theorem setEng_rom (e : Engine) : (s.setEng e).rom = s.rom := rfl
@[simp] theorem setEng_mem (e : Engine) : (s.setEng e).mem = s.mem := rfl
@[simp] theorem setEng_chunkRaced (e : Engine) : (s.setEng e).chunkRaced = s.chunkRaced := rfl
@[simp] theorem setEng_pixRaced (e : Engine) : (s.setEng e).pixRaced = s.pixRaced := rfl
@[simp] theorem setEng_unseen (e : Engine) : (s.setEng e).unseen = s.unseen := rfl
@[simp] theorem setEng_unseenOld (e : Engine) : (s.setEng e).unseenOld = s.unseenOld := rfl
@[simp] theorem setEng_hostData (e : Engine) : (s.setEng e).hostData = s.hostData := rfl
@[simp] theorem setEng_inbox (e : Engine) : (s.setEng e).inbox = s.inbox := rfl

/-! ### setIrqEn -/

@[simp] theorem setIrqEn_irqEn (d : Word) : (s.setIrqEn d).irqEn = d.getLsbD 2 := rfl
@[simp] theorem setIrqEn_busy (d : Word) : (s.setIrqEn d).busy = s.busy := rfl
@[simp] theorem setIrqEn_done (d : Word) : (s.setIrqEn d).done = s.done := rfl
@[simp] theorem setIrqEn_err (d : Word) : (s.setIrqEn d).err = s.err := rfl
@[simp] theorem setIrqEn_errCode (d : Word) : (s.setIrqEn d).errCode = s.errCode := rfl
@[simp] theorem setIrqEn_srcAddr (d : Word) : (s.setIrqEn d).srcAddr = s.srcAddr := rfl
@[simp] theorem setIrqEn_srcLen (d : Word) : (s.setIrqEn d).srcLen = s.srcLen := rfl
@[simp] theorem setIrqEn_width (d : Word) : (s.setIrqEn d).width = s.width := rfl
@[simp] theorem setIrqEn_height (d : Word) : (s.setIrqEn d).height = s.height := rfl
@[simp] theorem setIrqEn_dstAddr (d : Word) : (s.setIrqEn d).dstAddr = s.dstAddr := rfl
@[simp] theorem setIrqEn_lSrc (d : Word) : (s.setIrqEn d).lSrc = s.lSrc := rfl
@[simp] theorem setIrqEn_lLen (d : Word) : (s.setIrqEn d).lLen = s.lLen := rfl
@[simp] theorem setIrqEn_lW (d : Word) : (s.setIrqEn d).lW = s.lW := rfl
@[simp] theorem setIrqEn_lH (d : Word) : (s.setIrqEn d).lH = s.lH := rfl
@[simp] theorem setIrqEn_lDst (d : Word) : (s.setIrqEn d).lDst = s.lDst := rfl
@[simp] theorem setIrqEn_eng (d : Word) : (s.setIrqEn d).eng = s.eng := rfl
@[simp] theorem setIrqEn_rom (d : Word) : (s.setIrqEn d).rom = s.rom := rfl
@[simp] theorem setIrqEn_mem (d : Word) : (s.setIrqEn d).mem = s.mem := rfl
@[simp] theorem setIrqEn_chunkRaced (d : Word) : (s.setIrqEn d).chunkRaced = s.chunkRaced := rfl
@[simp] theorem setIrqEn_pixRaced (d : Word) : (s.setIrqEn d).pixRaced = s.pixRaced := rfl
@[simp] theorem setIrqEn_unseen (d : Word) : (s.setIrqEn d).unseen = s.unseen := rfl
@[simp] theorem setIrqEn_unseenOld (d : Word) : (s.setIrqEn d).unseenOld = s.unseenOld := rfl
@[simp] theorem setIrqEn_hostData (d : Word) : (s.setIrqEn d).hostData = s.hostData := rfl
@[simp] theorem setIrqEn_inbox (d : Word) : (s.setIrqEn d).inbox = s.inbox := rfl

/-! ### seeDone -/

@[simp] theorem seeDone_irqEn (off : Byte) : (s.seeDone off).irqEn = s.irqEn := by unfold State.seeDone; split <;> rfl
@[simp] theorem seeDone_busy (off : Byte) : (s.seeDone off).busy = s.busy := by unfold State.seeDone; split <;> rfl
@[simp] theorem seeDone_done (off : Byte) : (s.seeDone off).done = s.done := by unfold State.seeDone; split <;> rfl
@[simp] theorem seeDone_err (off : Byte) : (s.seeDone off).err = s.err := by unfold State.seeDone; split <;> rfl
@[simp] theorem seeDone_errCode (off : Byte) : (s.seeDone off).errCode = s.errCode := by unfold State.seeDone; split <;> rfl
@[simp] theorem seeDone_srcAddr (off : Byte) : (s.seeDone off).srcAddr = s.srcAddr := by unfold State.seeDone; split <;> rfl
@[simp] theorem seeDone_srcLen (off : Byte) : (s.seeDone off).srcLen = s.srcLen := by unfold State.seeDone; split <;> rfl
@[simp] theorem seeDone_width (off : Byte) : (s.seeDone off).width = s.width := by unfold State.seeDone; split <;> rfl
@[simp] theorem seeDone_height (off : Byte) : (s.seeDone off).height = s.height := by unfold State.seeDone; split <;> rfl
@[simp] theorem seeDone_dstAddr (off : Byte) : (s.seeDone off).dstAddr = s.dstAddr := by unfold State.seeDone; split <;> rfl
@[simp] theorem seeDone_lSrc (off : Byte) : (s.seeDone off).lSrc = s.lSrc := by unfold State.seeDone; split <;> rfl
@[simp] theorem seeDone_lLen (off : Byte) : (s.seeDone off).lLen = s.lLen := by unfold State.seeDone; split <;> rfl
@[simp] theorem seeDone_lW (off : Byte) : (s.seeDone off).lW = s.lW := by unfold State.seeDone; split <;> rfl
@[simp] theorem seeDone_lH (off : Byte) : (s.seeDone off).lH = s.lH := by unfold State.seeDone; split <;> rfl
@[simp] theorem seeDone_lDst (off : Byte) : (s.seeDone off).lDst = s.lDst := by unfold State.seeDone; split <;> rfl
@[simp] theorem seeDone_eng (off : Byte) : (s.seeDone off).eng = s.eng := by unfold State.seeDone; split <;> rfl
@[simp] theorem seeDone_rom (off : Byte) : (s.seeDone off).rom = s.rom := by unfold State.seeDone; split <;> rfl
@[simp] theorem seeDone_mem (off : Byte) : (s.seeDone off).mem = s.mem := by unfold State.seeDone; split <;> rfl
@[simp] theorem seeDone_chunkRaced (off : Byte) : (s.seeDone off).chunkRaced = s.chunkRaced := by unfold State.seeDone; split <;> rfl
@[simp] theorem seeDone_pixRaced (off : Byte) : (s.seeDone off).pixRaced = s.pixRaced := by unfold State.seeDone; split <;> rfl
@[simp] theorem seeDone_unseen (off : Byte) :
    (s.seeDone off).unseen = if off = 0x04 ∧ s.done = true then .nothing else s.unseen := by
  unfold State.seeDone; split <;> rfl
theorem seeDone_unseenOld (off : Byte) : (s.seeDone off).unseenOld =
    if off = 0x04 ∧ s.done = true ∧ s.unseen = .written then
      s.unseenOld.flatMap (UnseenRange.minus ⟨s.lDst.toNat, s.pixelBytes⟩)
    else s.unseenOld := by
  unfold State.seeDone
  by_cases h : off = 0x04 ∧ s.done = true
  · simp [h]
  · rw [if_neg h, if_neg (fun hx => h ⟨hx.1, hx.2.1⟩)]
@[simp] theorem seeDone_hostData (off : Byte) : (s.seeDone off).hostData = s.hostData := by unfold State.seeDone; split <;> rfl
@[simp] theorem seeDone_inbox (off : Byte) : (s.seeDone off).inbox = s.inbox := by unfold State.seeDone; split <;> rfl

/-! ### leaveUnseen -/

@[simp] theorem leaveUnseen_irqEn : (s.leaveUnseen).irqEn = s.irqEn := rfl
@[simp] theorem leaveUnseen_busy : (s.leaveUnseen).busy = s.busy := rfl
@[simp] theorem leaveUnseen_done : (s.leaveUnseen).done = s.done := rfl
@[simp] theorem leaveUnseen_err : (s.leaveUnseen).err = s.err := rfl
@[simp] theorem leaveUnseen_errCode : (s.leaveUnseen).errCode = s.errCode := rfl
@[simp] theorem leaveUnseen_srcAddr : (s.leaveUnseen).srcAddr = s.srcAddr := rfl
@[simp] theorem leaveUnseen_srcLen : (s.leaveUnseen).srcLen = s.srcLen := rfl
@[simp] theorem leaveUnseen_width : (s.leaveUnseen).width = s.width := rfl
@[simp] theorem leaveUnseen_height : (s.leaveUnseen).height = s.height := rfl
@[simp] theorem leaveUnseen_dstAddr : (s.leaveUnseen).dstAddr = s.dstAddr := rfl
@[simp] theorem leaveUnseen_lSrc : (s.leaveUnseen).lSrc = s.lSrc := rfl
@[simp] theorem leaveUnseen_lLen : (s.leaveUnseen).lLen = s.lLen := rfl
@[simp] theorem leaveUnseen_lW : (s.leaveUnseen).lW = s.lW := rfl
@[simp] theorem leaveUnseen_lH : (s.leaveUnseen).lH = s.lH := rfl
@[simp] theorem leaveUnseen_lDst : (s.leaveUnseen).lDst = s.lDst := rfl
@[simp] theorem leaveUnseen_eng : (s.leaveUnseen).eng = s.eng := rfl
@[simp] theorem leaveUnseen_rom : (s.leaveUnseen).rom = s.rom := rfl
@[simp] theorem leaveUnseen_mem : (s.leaveUnseen).mem = s.mem := rfl
@[simp] theorem leaveUnseen_chunkRaced : (s.leaveUnseen).chunkRaced = s.chunkRaced := rfl
@[simp] theorem leaveUnseen_pixRaced : (s.leaveUnseen).pixRaced = s.pixRaced := rfl
@[simp] theorem leaveUnseen_unseen : (s.leaveUnseen).unseen = .nothing := rfl
@[simp] theorem leaveUnseen_unseenOld : (s.leaveUnseen).unseenOld =
    (if s.unseen = .nothing then s.unseenOld
      else ⟨⟨s.lDst.toNat, s.pixelBytes⟩, s.unseen == .written⟩ :: s.unseenOld) := rfl
@[simp] theorem leaveUnseen_hostData : (s.leaveUnseen).hostData = s.hostData := rfl
@[simp] theorem leaveUnseen_inbox : (s.leaveUnseen).inbox = s.inbox := rfl

/-! ### startDecode -/

@[simp] theorem startDecode_irqEn : (s.startDecode).irqEn = s.irqEn := rfl
@[simp] theorem startDecode_busy : (s.startDecode).busy = true := rfl
@[simp] theorem startDecode_done : (s.startDecode).done = false := rfl
@[simp] theorem startDecode_err : (s.startDecode).err = false := rfl
@[simp] theorem startDecode_errCode : (s.startDecode).errCode = 0 := rfl
@[simp] theorem startDecode_srcAddr : (s.startDecode).srcAddr = s.srcAddr := rfl
@[simp] theorem startDecode_srcLen : (s.startDecode).srcLen = s.srcLen := rfl
@[simp] theorem startDecode_width : (s.startDecode).width = s.width := rfl
@[simp] theorem startDecode_height : (s.startDecode).height = s.height := rfl
@[simp] theorem startDecode_dstAddr : (s.startDecode).dstAddr = s.dstAddr := rfl
@[simp] theorem startDecode_lSrc : (s.startDecode).lSrc = s.srcAddr := rfl
@[simp] theorem startDecode_lLen : (s.startDecode).lLen = s.srcLen := rfl
@[simp] theorem startDecode_lW : (s.startDecode).lW = s.width := rfl
@[simp] theorem startDecode_lH : (s.startDecode).lH = s.height := rfl
@[simp] theorem startDecode_lDst : (s.startDecode).lDst = s.dstAddr := rfl
@[simp] theorem startDecode_eng : (s.startDecode).eng = s.eng := rfl
@[simp] theorem startDecode_rom : (s.startDecode).rom = s.rom := rfl
@[simp] theorem startDecode_mem : (s.startDecode).mem = s.mem := rfl
@[simp] theorem startDecode_chunkRaced : (s.startDecode).chunkRaced = false := rfl
@[simp] theorem startDecode_pixRaced : (s.startDecode).pixRaced = [] := rfl
@[simp] theorem startDecode_unseen : (s.startDecode).unseen = .nothing := rfl
@[simp] theorem startDecode_unseenOld : (s.startDecode).unseenOld = s.leaveUnseen.unseenOld := rfl
@[simp] theorem startDecode_hostData : (s.startDecode).hostData = s.hostData := rfl
@[simp] theorem startDecode_inbox : (s.startDecode).inbox = s.inbox := rfl

/-! ### reportSuccess -/

@[simp] theorem reportSuccess_irqEn : (s.reportSuccess).irqEn = s.irqEn := rfl
@[simp] theorem reportSuccess_busy : (s.reportSuccess).busy = false := rfl
@[simp] theorem reportSuccess_done : (s.reportSuccess).done = true := rfl
@[simp] theorem reportSuccess_err : (s.reportSuccess).err = s.err := rfl
@[simp] theorem reportSuccess_errCode : (s.reportSuccess).errCode = s.errCode := rfl
@[simp] theorem reportSuccess_srcAddr : (s.reportSuccess).srcAddr = s.srcAddr := rfl
@[simp] theorem reportSuccess_srcLen : (s.reportSuccess).srcLen = s.srcLen := rfl
@[simp] theorem reportSuccess_width : (s.reportSuccess).width = s.width := rfl
@[simp] theorem reportSuccess_height : (s.reportSuccess).height = s.height := rfl
@[simp] theorem reportSuccess_dstAddr : (s.reportSuccess).dstAddr = s.dstAddr := rfl
@[simp] theorem reportSuccess_lSrc : (s.reportSuccess).lSrc = s.lSrc := rfl
@[simp] theorem reportSuccess_lLen : (s.reportSuccess).lLen = s.lLen := rfl
@[simp] theorem reportSuccess_lW : (s.reportSuccess).lW = s.lW := rfl
@[simp] theorem reportSuccess_lH : (s.reportSuccess).lH = s.lH := rfl
@[simp] theorem reportSuccess_lDst : (s.reportSuccess).lDst = s.lDst := rfl
@[simp] theorem reportSuccess_eng : (s.reportSuccess).eng = s.eng := rfl
@[simp] theorem reportSuccess_rom : (s.reportSuccess).rom = s.rom := rfl
@[simp] theorem reportSuccess_mem : (s.reportSuccess).mem = s.mem := rfl
@[simp] theorem reportSuccess_chunkRaced : (s.reportSuccess).chunkRaced = s.chunkRaced := rfl
@[simp] theorem reportSuccess_pixRaced : (s.reportSuccess).pixRaced = s.pixRaced := rfl
@[simp] theorem reportSuccess_unseen : (s.reportSuccess).unseen = .written := rfl
@[simp] theorem reportSuccess_unseenOld : (s.reportSuccess).unseenOld = s.unseenOld := rfl
@[simp] theorem reportSuccess_hostData : (s.reportSuccess).hostData = s.hostData := rfl
@[simp] theorem reportSuccess_inbox : (s.reportSuccess).inbox = s.inbox := rfl

/-! ### reportError -/

@[simp] theorem reportError_irqEn (x : CodecError) : (s.reportError x).irqEn = s.irqEn := rfl
@[simp] theorem reportError_busy (x : CodecError) : (s.reportError x).busy = false := rfl
@[simp] theorem reportError_done (x : CodecError) : (s.reportError x).done = true := rfl
@[simp] theorem reportError_err (x : CodecError) : (s.reportError x).err = true := rfl
@[simp] theorem reportError_errCode (x : CodecError) : (s.reportError x).errCode = errorCode x := rfl
@[simp] theorem reportError_srcAddr (x : CodecError) : (s.reportError x).srcAddr = s.srcAddr := rfl
@[simp] theorem reportError_srcLen (x : CodecError) : (s.reportError x).srcLen = s.srcLen := rfl
@[simp] theorem reportError_width (x : CodecError) : (s.reportError x).width = s.width := rfl
@[simp] theorem reportError_height (x : CodecError) : (s.reportError x).height = s.height := rfl
@[simp] theorem reportError_dstAddr (x : CodecError) : (s.reportError x).dstAddr = s.dstAddr := rfl
@[simp] theorem reportError_lSrc (x : CodecError) : (s.reportError x).lSrc = s.lSrc := rfl
@[simp] theorem reportError_lLen (x : CodecError) : (s.reportError x).lLen = s.lLen := rfl
@[simp] theorem reportError_lW (x : CodecError) : (s.reportError x).lW = s.lW := rfl
@[simp] theorem reportError_lH (x : CodecError) : (s.reportError x).lH = s.lH := rfl
@[simp] theorem reportError_lDst (x : CodecError) : (s.reportError x).lDst = s.lDst := rfl
@[simp] theorem reportError_eng (x : CodecError) : (s.reportError x).eng = s.eng := rfl
@[simp] theorem reportError_rom (x : CodecError) : (s.reportError x).rom = s.rom := rfl
@[simp] theorem reportError_mem (x : CodecError) : (s.reportError x).mem = s.mem := rfl
@[simp] theorem reportError_chunkRaced (x : CodecError) : (s.reportError x).chunkRaced = s.chunkRaced := rfl
@[simp] theorem reportError_pixRaced (x : CodecError) : (s.reportError x).pixRaced = s.pixRaced := rfl
@[simp] theorem reportError_unseen (x : CodecError) : (s.reportError x).unseen = .failed := rfl
@[simp] theorem reportError_unseenOld (x : CodecError) : (s.reportError x).unseenOld = s.unseenOld := rfl
@[simp] theorem reportError_hostData (x : CodecError) : (s.reportError x).hostData = s.hostData := rfl
@[simp] theorem reportError_inbox (x : CodecError) : (s.reportError x).inbox = s.inbox := rfl

/-! ### acknowledge -/

@[simp] theorem acknowledge_irqEn (cd ce : Bool) : (s.acknowledge cd ce).irqEn = s.irqEn := rfl
@[simp] theorem acknowledge_busy (cd ce : Bool) : (s.acknowledge cd ce).busy = s.busy := rfl
@[simp] theorem acknowledge_done (cd ce : Bool) : (s.acknowledge cd ce).done = (s.done && !cd) := rfl
@[simp] theorem acknowledge_err (cd ce : Bool) : (s.acknowledge cd ce).err = (s.err && !ce) := rfl
@[simp] theorem acknowledge_errCode (cd ce : Bool) : (s.acknowledge cd ce).errCode = (if ce then 0 else s.errCode) := rfl
@[simp] theorem acknowledge_srcAddr (cd ce : Bool) : (s.acknowledge cd ce).srcAddr = s.srcAddr := rfl
@[simp] theorem acknowledge_srcLen (cd ce : Bool) : (s.acknowledge cd ce).srcLen = s.srcLen := rfl
@[simp] theorem acknowledge_width (cd ce : Bool) : (s.acknowledge cd ce).width = s.width := rfl
@[simp] theorem acknowledge_height (cd ce : Bool) : (s.acknowledge cd ce).height = s.height := rfl
@[simp] theorem acknowledge_dstAddr (cd ce : Bool) : (s.acknowledge cd ce).dstAddr = s.dstAddr := rfl
@[simp] theorem acknowledge_lSrc (cd ce : Bool) : (s.acknowledge cd ce).lSrc = s.lSrc := rfl
@[simp] theorem acknowledge_lLen (cd ce : Bool) : (s.acknowledge cd ce).lLen = s.lLen := rfl
@[simp] theorem acknowledge_lW (cd ce : Bool) : (s.acknowledge cd ce).lW = s.lW := rfl
@[simp] theorem acknowledge_lH (cd ce : Bool) : (s.acknowledge cd ce).lH = s.lH := rfl
@[simp] theorem acknowledge_lDst (cd ce : Bool) : (s.acknowledge cd ce).lDst = s.lDst := rfl
@[simp] theorem acknowledge_eng (cd ce : Bool) : (s.acknowledge cd ce).eng = s.eng := rfl
@[simp] theorem acknowledge_rom (cd ce : Bool) : (s.acknowledge cd ce).rom = s.rom := rfl
@[simp] theorem acknowledge_mem (cd ce : Bool) : (s.acknowledge cd ce).mem = s.mem := rfl
@[simp] theorem acknowledge_chunkRaced (cd ce : Bool) : (s.acknowledge cd ce).chunkRaced = s.chunkRaced := rfl
@[simp] theorem acknowledge_pixRaced (cd ce : Bool) : (s.acknowledge cd ce).pixRaced = s.pixRaced := rfl
@[simp] theorem acknowledge_unseen (cd ce : Bool) : (s.acknowledge cd ce).unseen = s.unseen := rfl
@[simp] theorem acknowledge_unseenOld (cd ce : Bool) : (s.acknowledge cd ce).unseenOld = s.unseenOld := rfl
@[simp] theorem acknowledge_hostData (cd ce : Bool) : (s.acknowledge cd ce).hostData = s.hostData := rfl
@[simp] theorem acknowledge_inbox (cd ce : Bool) : (s.acknowledge cd ce).inbox = s.inbox := rfl

/-! ### scribble -/

@[simp] theorem scribble_irqEn (l : List Nat) : (s.scribble l).irqEn = s.irqEn := rfl
@[simp] theorem scribble_busy (l : List Nat) : (s.scribble l).busy = s.busy := rfl
@[simp] theorem scribble_done (l : List Nat) : (s.scribble l).done = s.done := rfl
@[simp] theorem scribble_err (l : List Nat) : (s.scribble l).err = s.err := rfl
@[simp] theorem scribble_errCode (l : List Nat) : (s.scribble l).errCode = s.errCode := rfl
@[simp] theorem scribble_srcAddr (l : List Nat) : (s.scribble l).srcAddr = s.srcAddr := rfl
@[simp] theorem scribble_srcLen (l : List Nat) : (s.scribble l).srcLen = s.srcLen := rfl
@[simp] theorem scribble_width (l : List Nat) : (s.scribble l).width = s.width := rfl
@[simp] theorem scribble_height (l : List Nat) : (s.scribble l).height = s.height := rfl
@[simp] theorem scribble_dstAddr (l : List Nat) : (s.scribble l).dstAddr = s.dstAddr := rfl
@[simp] theorem scribble_lSrc (l : List Nat) : (s.scribble l).lSrc = s.lSrc := rfl
@[simp] theorem scribble_lLen (l : List Nat) : (s.scribble l).lLen = s.lLen := rfl
@[simp] theorem scribble_lW (l : List Nat) : (s.scribble l).lW = s.lW := rfl
@[simp] theorem scribble_lH (l : List Nat) : (s.scribble l).lH = s.lH := rfl
@[simp] theorem scribble_lDst (l : List Nat) : (s.scribble l).lDst = s.lDst := rfl
@[simp] theorem scribble_eng (l : List Nat) : (s.scribble l).eng = s.eng.drew l.length := rfl
@[simp] theorem scribble_rom (l : List Nat) : (s.scribble l).rom = s.rom := rfl
@[simp] theorem scribble_mem (l : List Nat) : (s.scribble l).mem = s.mem.writeAll (scribbleCells l s.eng.draws) := rfl
@[simp] theorem scribble_chunkRaced (l : List Nat) : (s.scribble l).chunkRaced = s.chunkRaced := rfl
@[simp] theorem scribble_pixRaced (l : List Nat) : (s.scribble l).pixRaced = s.pixRaced := rfl
@[simp] theorem scribble_unseen (l : List Nat) : (s.scribble l).unseen = s.unseen := rfl
@[simp] theorem scribble_unseenOld (l : List Nat) : (s.scribble l).unseenOld = s.unseenOld := rfl
@[simp] theorem scribble_hostData (l : List Nat) : (s.scribble l).hostData = s.hostData := rfl
@[simp] theorem scribble_inbox (l : List Nat) : (s.scribble l).inbox = s.inbox := rfl

/-! ### noteRace -/

@[simp] theorem noteRace_irqEn (a : Nat) : (s.noteRace a).irqEn = s.irqEn := rfl
@[simp] theorem noteRace_busy (a : Nat) : (s.noteRace a).busy = s.busy := rfl
@[simp] theorem noteRace_done (a : Nat) : (s.noteRace a).done = s.done := rfl
@[simp] theorem noteRace_err (a : Nat) : (s.noteRace a).err = s.err := rfl
@[simp] theorem noteRace_errCode (a : Nat) : (s.noteRace a).errCode = s.errCode := rfl
@[simp] theorem noteRace_srcAddr (a : Nat) : (s.noteRace a).srcAddr = s.srcAddr := rfl
@[simp] theorem noteRace_srcLen (a : Nat) : (s.noteRace a).srcLen = s.srcLen := rfl
@[simp] theorem noteRace_width (a : Nat) : (s.noteRace a).width = s.width := rfl
@[simp] theorem noteRace_height (a : Nat) : (s.noteRace a).height = s.height := rfl
@[simp] theorem noteRace_dstAddr (a : Nat) : (s.noteRace a).dstAddr = s.dstAddr := rfl
@[simp] theorem noteRace_lSrc (a : Nat) : (s.noteRace a).lSrc = s.lSrc := rfl
@[simp] theorem noteRace_lLen (a : Nat) : (s.noteRace a).lLen = s.lLen := rfl
@[simp] theorem noteRace_lW (a : Nat) : (s.noteRace a).lW = s.lW := rfl
@[simp] theorem noteRace_lH (a : Nat) : (s.noteRace a).lH = s.lH := rfl
@[simp] theorem noteRace_lDst (a : Nat) : (s.noteRace a).lDst = s.lDst := rfl
@[simp] theorem noteRace_eng (a : Nat) : (s.noteRace a).eng = s.eng := rfl
@[simp] theorem noteRace_rom (a : Nat) : (s.noteRace a).rom = s.rom := rfl
@[simp] theorem noteRace_mem (a : Nat) : (s.noteRace a).mem = s.mem := rfl
@[simp] theorem noteRace_chunkRaced (a : Nat) : (s.noteRace a).chunkRaced = (s.chunkRaced || (s.busy && s.inChunk a)) := rfl
@[simp] theorem noteRace_pixRaced (a : Nat) : (s.noteRace a).pixRaced = (if s.busy && s.inPixels a then a :: s.pixRaced else s.pixRaced) := rfl
@[simp] theorem noteRace_unseen (a : Nat) : (s.noteRace a).unseen = s.unseen := rfl
@[simp] theorem noteRace_unseenOld (a : Nat) : (s.noteRace a).unseenOld = s.unseenOld := rfl
@[simp] theorem noteRace_hostData (a : Nat) : (s.noteRace a).hostData = s.hostData := rfl
@[simp] theorem noteRace_inbox (a : Nat) : (s.noteRace a).inbox = s.inbox := rfl

/-! ### resetCore -/

@[simp] theorem resetCore_irqEn : (s.resetCore).irqEn = false := rfl
@[simp] theorem resetCore_busy : (s.resetCore).busy = false := rfl
@[simp] theorem resetCore_done : (s.resetCore).done = false := rfl
@[simp] theorem resetCore_err : (s.resetCore).err = false := rfl
@[simp] theorem resetCore_errCode : (s.resetCore).errCode = 0 := rfl
@[simp] theorem resetCore_srcAddr : (s.resetCore).srcAddr = 0 := rfl
@[simp] theorem resetCore_srcLen : (s.resetCore).srcLen = 0 := rfl
@[simp] theorem resetCore_width : (s.resetCore).width = 0 := rfl
@[simp] theorem resetCore_height : (s.resetCore).height = 0 := rfl
@[simp] theorem resetCore_dstAddr : (s.resetCore).dstAddr = 0 := rfl
@[simp] theorem resetCore_lSrc : (s.resetCore).lSrc = 0 := rfl
@[simp] theorem resetCore_lLen : (s.resetCore).lLen = 0 := rfl
@[simp] theorem resetCore_lW : (s.resetCore).lW = 0 := rfl
@[simp] theorem resetCore_lH : (s.resetCore).lH = 0 := rfl
@[simp] theorem resetCore_lDst : (s.resetCore).lDst = 0 := rfl
@[simp] theorem resetCore_eng : (s.resetCore).eng = s.eng.unspecified := rfl
@[simp] theorem resetCore_rom : (s.resetCore).rom = s.rom := rfl
@[simp] theorem resetCore_mem : (s.resetCore).mem = s.mem := rfl
@[simp] theorem resetCore_chunkRaced : (s.resetCore).chunkRaced = false := rfl
@[simp] theorem resetCore_pixRaced : (s.resetCore).pixRaced = [] := rfl
@[simp] theorem resetCore_unseen : (s.resetCore).unseen = .nothing := rfl
@[simp] theorem resetCore_unseenOld : (s.resetCore).unseenOld = s.leaveUnseen.unseenOld := rfl
@[simp] theorem resetCore_hostData : (s.resetCore).hostData = s.hostData := rfl
@[simp] theorem resetCore_inbox : (s.resetCore).inbox = s.inbox := rfl

/-! ### settleRaces: the races are over, only memory and the draw counter may change otherwise -/

theorem settleRaces_eq : s.settleRaces =
    { s with
      mem := s.settleRaces.mem, eng := s.eng.drew (if s.chunkRaced then s.pixelAddrs else s.pixRaced).length
      chunkRaced := false, pixRaced := [] } := by
  unfold State.settleRaces; split <;> simp_all [State.scribble]

end Sys2Proof.Machine
end

