-- ==== Sys2Proof/Laws/Compositor.lean ====
section
/-! SUPPORT. The frame: which addresses the slices write, what stands in the staging buffer, and the macroblocks of the
stream one after another (46_frame_compositor.md R273 to R282). -/

namespace Sys2Proof.Machine

/-! ### Where the slices write (R66, R277 to R280) -/

/-- Pixel addresses do not collide inside a row-major image. -/
theorem pixelAddr_inj {dst w y x y' x' c c' : Nat} (hx : x < w) (hx' : x' < w) (hc : c < 3) (hc' : c' < 3)
    (h : pixelAddr dst w y x + c = pixelAddr dst w y' x' + c') : y = y' ∧ x = x' ∧ c = c' := by
  unfold pixelAddr at h
  have h1 : c = c' := by omega
  have h2 : y * w + x = y' * w + x' := by omega
  have hw : 0 < w := by omega
  have h3 : y = y' := by
    have e1 : (y * w + x) / w = y := by rw [Nat.mul_comm, Nat.mul_add_div hw, Nat.div_eq_of_lt hx, Nat.add_zero]
    have e2 : (y' * w + x') / w = y' := by rw [Nat.mul_comm, Nat.mul_add_div hw, Nat.div_eq_of_lt hx', Nat.add_zero]
    rw [← e1, ← e2, h2]
  subst h3
  exact ⟨rfl, by omega, h1⟩

/-- A cell of a slice, by its row, column and channel. -/
theorem mem_sliceCells {dst w h i : Nat} {st : List PixelRow} {cell : Host.Cell} :
    cell ∈ sliceCells dst w h i st ↔ ∃ y x, y < h ∧ x < 16 ∧ 16 * i + x < w ∧
      cell ∈ pixelCells (pixelAddr dst w y (16 * i + x)) (stagePixel st (h - 1 - y) x) := by
  unfold sliceCells
  simp only [List.mem_flatMap, List.mem_range]
  constructor
  · rintro ⟨y, hy, x, hx, hc⟩
    exact ⟨y, x, hy, by omega, by omega, hc⟩
  · rintro ⟨y, x, hy, hx, hw, hc⟩
    exact ⟨y, hy, x, by omega, hc⟩

theorem mem_pixelCells {a : Nat} {p : Pixel} {cell : Host.Cell} (h : cell ∈ pixelCells a p) :
    ∃ c, c < 3 ∧ cell.1 = a + c := by
  simp only [pixelCells, List.mem_cons, List.not_mem_nil, or_false] at h
  rcases h with rfl | rfl | rfl
  · exact ⟨0, by omega, rfl⟩
  · exact ⟨1, by omega, rfl⟩
  · exact ⟨2, by omega, rfl⟩

/-- The byte writes of a whole frame, slice after slice. -/
def frameCells (dst w h n : Nat) (st : Nat → List PixelRow) : List Host.Cell :=
  (List.range n).flatMap (fun i => sliceCells dst w h i (st i))

theorem mem_frameCells {dst w h n : Nat} {st : Nat → List PixelRow} {cell : Host.Cell} :
    cell ∈ frameCells dst w h n st ↔ ∃ i y x, i < n ∧ y < h ∧ x < 16 ∧ 16 * i + x < w ∧
      cell ∈ pixelCells (pixelAddr dst w y (16 * i + x)) (stagePixel (st i) (h - 1 - y) x) := by
  unfold frameCells
  simp only [List.mem_flatMap, List.mem_range, mem_sliceCells]
  constructor
  · rintro ⟨i, hi, y, x, h⟩; exact ⟨i, y, x, hi, h⟩
  · rintro ⟨i, y, x, hi, h⟩; exact ⟨i, hi, y, x, h⟩

/-- No address is written twice. -/
theorem frameCells_nodup (dst w h n : Nat) (st : Nat → List PixelRow) :
    ((frameCells dst w h n st).map Prod.fst).Nodup := by
  unfold frameCells
  rw [List.map_flatMap, List.nodup_flatMap]
  have key : ∀ i y x c, x < min 16 (w - 16 * i) → c < 3 → ∀ i' y' x' c', x' < min 16 (w - 16 * i') → c' < 3 →
      pixelAddr dst w y (16 * i + x) + c = pixelAddr dst w y' (16 * i' + x') + c' →
      i = i' ∧ y = y' ∧ x = x' ∧ c = c' := by
    intro i y x c hx hc i' y' x' c' hx' hc' he
    obtain ⟨h1, h2, h3⟩ := pixelAddr_inj (by omega) (by omega) hc hc' he
    exact ⟨by omega, h1, by omega, h3⟩
  have inv : ∀ i a, a ∈ (sliceCells dst w h i (st i)).map Prod.fst → ∃ y x c, x < min 16 (w - 16 * i) ∧ c < 3 ∧
      a = pixelAddr dst w y (16 * i + x) + c := by
    intro i a ha
    obtain ⟨cell, hc, rfl⟩ := List.mem_map.1 ha
    obtain ⟨y, x, _, hx, hw, hc⟩ := mem_sliceCells.1 hc
    obtain ⟨c, hc, he⟩ := mem_pixelCells hc
    exact ⟨y, x, c, by omega, hc, he⟩
  constructor
  · intro i _
    unfold sliceCells
    rw [List.map_flatMap, List.nodup_flatMap]
    constructor
    · intro y _
      rw [List.map_flatMap, List.nodup_flatMap]
      constructor
      · intro x _
        simp [pixelCells]
      · refine List.Nodup.pairwise_of_forall_ne List.nodup_range fun x hx x' hx' hne a ha ha' => ?_
        rw [List.mem_range] at hx hx'
        obtain ⟨c1, h1, rfl⟩ := List.mem_map.1 ha
        obtain ⟨c2, h2, he⟩ := List.mem_map.1 ha'
        obtain ⟨c, hc, hce⟩ := mem_pixelCells h1
        obtain ⟨c', hc', hce'⟩ := mem_pixelCells h2
        exact hne (key i y x c hx hc i y x' c' hx' hc' (by rw [← hce, ← hce', he])).2.2.1
    · refine List.Nodup.pairwise_of_forall_ne List.nodup_range fun y _ y' _ hne a ha ha' => ?_
      obtain ⟨c1, h1, rfl⟩ := List.mem_map.1 ha
      obtain ⟨c2, h2, he⟩ := List.mem_map.1 ha'
      obtain ⟨x, hx, h1⟩ := List.mem_flatMap.1 h1
      obtain ⟨x', hx', h2⟩ := List.mem_flatMap.1 h2
      rw [List.mem_range] at hx hx'
      obtain ⟨c, hc, hce⟩ := mem_pixelCells h1
      obtain ⟨c', hc', hce'⟩ := mem_pixelCells h2
      exact hne (key i y x c hx hc i y' x' c' hx' hc' (by rw [← hce, ← hce', he])).2.1
  · refine List.Nodup.pairwise_of_forall_ne List.nodup_range fun i _ i' _ hne a ha ha' => ?_
    obtain ⟨y, x, c, hx, hc, he⟩ := inv i a ha
    obtain ⟨y', x', c', hx', hc', he'⟩ := inv i' a ha'
    exact hne (key i y x c hx hc i' y' x' c' hx' hc' (by rw [← he, ← he'])).1

/-- The addresses written are those of the pixel range (R280). -/
theorem mem_frameAddrs {dst w h : Nat} {st : Nat → List PixelRow} {a : Nat} :
    a ∈ (frameCells dst w h (sliceCount w) st).map Prod.fst ↔ dst ≤ a ∧ a < dst + 3 * w * h := by
  rw [List.mem_map]
  constructor
  · rintro ⟨cell, hc, rfl⟩
    obtain ⟨i, y, x, _, hy, _, hw, hc⟩ := mem_frameCells.1 hc
    obtain ⟨c, hc, he⟩ := mem_pixelCells hc
    rw [he]
    unfold pixelAddr
    have h1 : y * w + w ≤ h * w := by
      have := Nat.mul_le_mul_right w (Nat.succ_le_of_lt hy); rw [Nat.succ_mul] at this; exact this
    have h2 : 3 * w * h = 3 * (h * w) := by ring
    omega
  · rintro ⟨h1, h2⟩
    obtain ⟨k, rfl⟩ := Nat.exists_eq_add_of_le h1
    have hw : 0 < w := by
      by_contra hc; have : w = 0 := by omega
      subst this; simp at h2
    have hk : k / 3 < h * w := by
      have : 3 * w * h = 3 * (h * w) := by ring
      omega
    have hX : k / 3 % w < w := Nat.mod_lt _ hw
    have hY : k / 3 / w < h := Nat.div_lt_of_lt_mul (by rwa [Nat.mul_comm])
    have hdec : k / 3 / w * w + k / 3 % w = k / 3 := by rw [Nat.mul_comm]; exact Nat.div_add_mod _ _
    set X := k / 3 % w with hXd
    set Y := k / 3 / w with hYd
    have hslice : X / 16 < sliceCount w := by unfold sliceCount; omega
    have hsplit : 16 * (X / 16) + X % 16 = X := by omega
    have haddr : pixelAddr dst w Y (16 * (X / 16) + X % 16) + k % 3 = dst + k := by
      unfold pixelAddr; rw [hsplit, hdec]; omega
    have hc : k % 3 < 3 := Nat.mod_lt _ (by omega)
    rcases (by omega : k % 3 = 0 ∨ k % 3 = 1 ∨ k % 3 = 2) with h3 | h3 | h3
    · exact ⟨_, mem_frameCells.2 ⟨X / 16, Y, X % 16, hslice, hY, by omega, by omega, List.mem_cons_self⟩,
        by dsimp only; omega⟩
    · exact ⟨_, mem_frameCells.2 ⟨X / 16, Y, X % 16, hslice, hY, by omega, by omega,
        List.mem_cons_of_mem _ List.mem_cons_self⟩, by dsimp only; omega⟩
    · exact ⟨_, mem_frameCells.2 ⟨X / 16, Y, X % 16, hslice, hY, by omega, by omega,
        List.mem_cons_of_mem _ (List.mem_cons_of_mem _ List.mem_cons_self)⟩, by dsimp only; omega⟩

/-! ### Macroblocks one after another (R275) -/

/-- What a macroblock's tile depends on: the stream, the cursor and the draw counter (R41). -/
structure SameInput (a b : Engine) : Prop where
  rl    : a.rl = b.rl
  c     : a.blk.c = b.blk.c
  draws : a.draws = b.draws

/-- The engine after the first `n` blocks of a macroblock. -/
def blocksFrom (rom : Config.Rom) (l : List (Fin 6)) (g : Engine) : Engine :=
  l.foldl (fun e b => (e.decodeBlock rom).transform b) g

theorem decodeBlock_same (rom : Config.Rom) {a b : Engine} (h : SameInput a b) :
    (a.decodeBlock rom).blk = (b.decodeBlock rom).blk ∧ (a.decodeBlock rom).draws = (b.decodeBlock rom).draws := by
  unfold Engine.decodeBlock
  dsimp only
  rw [h.rl, h.draws, blockRun_congr rom b.rl b.draws h.c]
  exact ⟨rfl, rfl⟩

/-- Blocks decoded from equal inputs agree, and so do their samples. -/
theorem blocksFrom_same (rom : Config.Rom) : ∀ (l : List (Fin 6)) (a b : Engine) (seen : List (Fin 6)), SameInput a b →
    (∀ i ∈ seen, a.sb[i] = b.sb[i]) →
    SameInput (blocksFrom rom l a) (blocksFrom rom l b) ∧
      ∀ i, i ∈ seen ∨ i ∈ l → (blocksFrom rom l a).sb[i] = (blocksFrom rom l b).sb[i] := by
  intro l
  induction l with
  | nil => exact fun a b seen h hs => ⟨h, fun i hi => hs i (by simpa using hi)⟩
  | cons j l ih =>
    intro a b seen h hs
    obtain ⟨h1, h2⟩ := decodeBlock_same rom h
    have hsb : ∀ i, i ∈ j :: seen →
        ((a.decodeBlock rom).transform j).sb[i] = ((b.decodeBlock rom).transform j).sb[i] := by
      intro i hi
      show ((Vector.set _ j (spatialBlock _ _)) : Vector _ 6)[i] = ((Vector.set _ j (spatialBlock _ _)) : Vector _ 6)[i]
      rw [vector_set_get, vector_set_get, h1, h2]
      by_cases hj : j = i
      · rw [if_pos hj, if_pos hj]
      · rw [if_neg hj, if_neg hj]
        exact hs i (by simpa [Ne.symm hj] using hi)
    have hin : SameInput ((a.decodeBlock rom).transform j) ((b.decodeBlock rom).transform j) :=
      ⟨h.rl, congrArg Block.c h1, congrArg (· + 64) h2⟩
    obtain ⟨h3, h4⟩ := ih _ _ (j :: seen) hin hsb
    refine ⟨h3, fun i hi => h4 i ?_⟩
    rcases hi with hi | hi
    · exact .inl (List.mem_cons_of_mem _ hi)
    · rcases List.mem_cons.1 hi with rfl | hi
      · exact .inl List.mem_cons_self
      · exact .inr hi

/-- Macroblocks from equal inputs leave equal tiles and equal inputs (R41, R282). -/
theorem macroblock_same (rom : Config.Rom) {a b : Engine} (h : SameInput a b) :
    SameInput (a.macroblock rom) (b.macroblock rom) ∧ (a.macroblock rom).px = (b.macroblock rom).px := by
  obtain ⟨h1, h2⟩ := blocksFrom_same rom (List.finRange 6) a b [] h (by simp)
  have hsb : (blocksFrom rom (List.finRange 6) a).sb = (blocksFrom rom (List.finRange 6) b).sb := by
    apply Vector.ext
    intro i hi
    exact h2 ⟨i, hi⟩ (.inr (List.mem_finRange _))
  refine ⟨⟨h1.rl, h1.c, congrArg (· + 768) h1.draws⟩, ?_⟩
  show tileOf rom (blocksFrom rom (List.finRange 6) a).sb (blocksFrom rom (List.finRange 6) a).draws =
    tileOf rom (blocksFrom rom (List.finRange 6) b).sb (blocksFrom rom (List.finRange 6) b).draws
  rw [hsb, h1.draws]

theorem blocksFrom_st (rom : Config.Rom) : ∀ (l : List (Fin 6)) (g : Engine), (blocksFrom rom l g).st = g.st := by
  intro l
  induction l with
  | nil => exact fun _ => rfl
  | cons j l ih => exact fun g => ih _

theorem macroblock_st (rom : Config.Rom) (g : Engine) : (g.macroblock rom).st = g.st :=
  blocksFrom_st rom (List.finRange 6) g

theorem blocksFrom_rl (rom : Config.Rom) : ∀ (l : List (Fin 6)) (g : Engine), (blocksFrom rom l g).rl = g.rl := by
  intro l
  induction l with
  | nil => exact fun _ => rfl
  | cons j l ih => exact fun g => ih _

/-- The engine after `n` macroblocks. -/
def macroblocksFrom (rom : Config.Rom) (n : Nat) (g : Engine) : Engine := (Engine.macroblock rom)^[n] g

theorem macroblocksFrom_succ (rom : Config.Rom) (n : Nat) (g : Engine) :
    macroblocksFrom rom (n + 1) g = (macroblocksFrom rom n g).macroblock rom := Function.iterate_succ_apply' _ _ _

theorem macroblocksFrom_same (rom : Config.Rom) {a b : Engine} (h : SameInput a b) (n : Nat) :
    SameInput (macroblocksFrom rom n a) (macroblocksFrom rom n b) := by
  induction n with
  | zero => exact h
  | succ n ih => rw [macroblocksFrom_succ, macroblocksFrom_succ]; exact (macroblock_same rom ih).1

theorem macroblocksFrom_px (rom : Config.Rom) {a b : Engine} (h : SameInput a b) (n : Nat) :
    (macroblocksFrom rom (n + 1) a).px = (macroblocksFrom rom (n + 1) b).px := by
  rw [macroblocksFrom_succ, macroblocksFrom_succ]
  exact (macroblock_same rom (macroblocksFrom_same rom h n)).2

/-- One block of a macroblock. -/
theorem execAll_block (b : Fin 6) (l : List Instr) (s : State) :
    execAll (.decodeBlock :: .idct8x8 b :: l) s = execAll l (s.setEng ((s.eng.decodeBlock s.rom).transform b)) := rfl

theorem execAll_render (s : State) : execAll [.renderMb] s = .next (s.setEng (s.eng.render s.rom)) := rfl

/-- The macroblock program is the macroblock. -/
theorem exec_macroblockProgram (s : State) :
    execAll macroblockProgram s = .next (s.setEng (s.eng.macroblock s.rom)) := by
  have h : List.finRange 6 = [0, 1, 2, 3, 4, 5] := by decide
  unfold macroblockProgram Engine.macroblock
  rw [execAll_block, execAll_block, execAll_block, execAll_block, execAll_block, execAll_block, execAll_render, h]
  simp only [setEng_setEng, setEng_eng, setEng_rom, List.foldl_cons, List.foldl_nil]

theorem execAll_append (k l : List Instr) (s : State) :
    execAll (k ++ l) s =
      match execAll k s with
      | .next t => execAll l t
      | .fault f => .fault f
      | .refused r => .refused r := by
  induction k generalizing s with
  | nil => rfl
  | cons i k ih =>
    simp only [List.cons_append, execAll]
    cases exec i s with
    | next t => exact ih t
    | fault f => rfl
    | refused r => rfl

theorem exec_macroblocks (n : Nat) (s : State) :
    execAll (macroblocks n) s = .next (s.setEng (macroblocksFrom s.rom n s.eng)) := by
  induction n generalizing s with
  | zero => rfl
  | succ n ih =>
    unfold macroblocks at ih ⊢
    rw [List.replicate_succ, List.flatten_cons, execAll_append, exec_macroblockProgram]
    dsimp only
    rw [ih]
    unfold macroblocksFrom
    rw [Function.iterate_succ_apply]
    simp only [setEng_setEng, setEng_eng, setEng_rom]

/-! ### The staging buffer (R276) -/

theorem stagePut_length (st : List PixelRow) (m : Nat) (px : Tile) (h : 16 * m ≤ st.length) :
    16 * (m + 1) ≤ (stagePut st m px).length := by
  simp [stagePut]; omega

theorem stagePut_below (st : List PixelRow) {m r : Nat} (px : Tile) (h : 16 * m ≤ st.length) (hr : r < 16 * m) :
    (stagePut st m px)[r]? = st[r]? := by
  unfold stagePut
  rw [List.append_assoc, List.getElem?_append_left (by simp; omega), List.getElem?_take_of_lt hr]

theorem stagePut_at (st : List PixelRow) {m r : Nat} (px : Tile) (h : 16 * m ≤ st.length) (hr : r < 16) :
    (stagePut st m px)[16 * m + r]? = some px[r] := by
  unfold stagePut
  rw [List.append_assoc, List.getElem?_append_right (by simp)]
  have h1 : (st.take (16 * m)).length = 16 * m := by simp; omega
  rw [h1, Nat.add_sub_cancel_left, List.getElem?_append_left (by simpa using hr)]
  simp [hr]

/-- The first `n` macroblock rows of a slice. -/
def rowsFrom (rom : Config.Rom) (n : Nat) (g : Engine) : Engine := (List.range n).foldl (fun e m => e.stage rom m) g

theorem rowsFrom_succ (rom : Config.Rom) (n : Nat) (g : Engine) :
    rowsFrom rom (n + 1) g = (rowsFrom rom n g).stage rom n := by
  simp [rowsFrom, List.range_succ, List.foldl_append]

/-- After `n` macroblock rows of a slice that starts at macroblock `j`, staging row `r` is row `r mod 16` of the tile
of macroblock `j + r div 16`. -/
theorem rowsFrom_spec (rom : Config.Rom) (g0 g : Engine) (j : Nat) (h : SameInput g (macroblocksFrom rom j g0)) :
    ∀ n, SameInput (rowsFrom rom n g) (macroblocksFrom rom (j + n) g0) ∧ 16 * n ≤ (rowsFrom rom n g).st.length ∧
      ∀ r, r < 16 * n → (rowsFrom rom n g).st[r]? =
        some ((macroblocksFrom rom (j + r / 16 + 1) g0).px[mod16 r]) := by
  intro n
  induction n with
  | zero => exact ⟨h, by simp, fun r hr => by omega⟩
  | succ n ih =>
    obtain ⟨h1, h2, h3⟩ := ih
    obtain ⟨h4, h5⟩ := macroblock_same rom h1
    have hst : ((rowsFrom rom n g).macroblock rom).st = (rowsFrom rom n g).st := macroblock_st _ _
    have hrow : (rowsFrom rom (n + 1) g).st =
        stagePut (rowsFrom rom n g).st n ((rowsFrom rom n g).macroblock rom).px := by
      rw [rowsFrom_succ]; show stagePut _ _ _ = _; rw [hst]
    refine ⟨?_, ?_, fun r hr => ?_⟩
    · rw [rowsFrom_succ, ← Nat.add_assoc, macroblocksFrom_succ]
      exact ⟨h4.rl, h4.c, h4.draws⟩
    · rw [hrow]; exact stagePut_length _ _ _ h2
    · rw [hrow]
      by_cases hlt : r < 16 * n
      · rw [stagePut_below _ _ h2 hlt]; exact h3 r hlt
      · have hr16 : r - 16 * n < 16 := by omega
        have hr' : r = 16 * n + (r - 16 * n) := by omega
        have hdiv : r / 16 = n := by omega
        have hmod : mod16 r = ⟨r - 16 * n, hr16⟩ := by apply Fin.ext; simp [mod16]; omega
        conv_lhs => rw [hr']
        rw [stagePut_at _ _ h2 hr16, h5, hdiv, macroblocksFrom_succ]
        exact congrArg (fun i : Fin 16 => some ((macroblocksFrom rom (j + n) g0).macroblock rom).px[i]) hmod.symm

/-! ### The frame -/

/-- The engine before slice `i`. -/
def engineBefore (rom : Config.Rom) (nm : Nat) (g : Engine) (i : Nat) : Engine :=
  (List.range i).foldl (fun e _ => e.slice rom nm) { g with blk := { g.blk with c := 2 } }

theorem engineBefore_succ (rom : Config.Rom) (nm : Nat) (g : Engine) (i : Nat) :
    engineBefore rom nm g (i + 1) = (engineBefore rom nm g i).slice rom nm := by
  simp [engineBefore, List.range_succ, List.foldl_append]

theorem slice_eq (rom : Config.Rom) (nm : Nat) (g : Engine) : g.slice rom nm = rowsFrom rom nm g := rfl

theorem engineBefore_same (rom : Config.Rom) (nm : Nat) (g : Engine) (i : Nat) :
    SameInput (engineBefore rom nm g i)
      (macroblocksFrom rom (i * nm) { g with blk := { g.blk with c := 2 } }) := by
  induction i with
  | zero => simp [engineBefore, macroblocksFrom]; exact ⟨rfl, rfl, rfl⟩
  | succ i ih =>
    rw [engineBefore_succ, slice_eq, Nat.succ_mul]
    exact (rowsFrom_spec rom _ _ _ ih nm).1

/-- A frame as one list of byte writes. -/
theorem frameRun_eq (rom : Config.Rom) (w h dst : Nat) (g : Engine) (m : Memory) :
    frameRun rom w h dst g m =
      (engineBefore rom (macroblockRows h) g (sliceCount w),
        m.writeAll (frameCells dst w h (sliceCount w)
          (fun i => ((engineBefore rom (macroblockRows h) g i).slice rom (macroblockRows h)).st))) := by
  unfold frameRun
  induction sliceCount w with
  | zero => rfl
  | succ n ih =>
    rw [List.range_succ, List.foldl_append, ih]
    simp only [List.foldl_cons, List.foldl_nil, frameSlice]
    rw [engineBefore_succ]
    congr 1
    rw [← Memory.writeAll_append]
    congr 1
    simp [frameCells, List.range_succ, List.flatMap_append]

/-- The pixel of a frame at its place (R273 to R279). -/
theorem stage_pixel (rom : Config.Rom) (h : Nat) (g : Engine) (i r x : Nat) (hr : r < 16 * macroblockRows h)
    (hx : x < 16) :
    stagePixel ((engineBefore rom (macroblockRows h) g i).slice rom (macroblockRows h)).st r x =
      (macroblocksFrom rom (i * macroblockRows h + r / 16 + 1)
        { g with blk := { g.blk with c := 2 } }).px[mod16 r][mod16 x] := by
  have hs := (rowsFrom_spec rom _ _ _ (engineBefore_same rom (macroblockRows h) g i) (macroblockRows h)).2.2 r hr
  rw [slice_eq, stagePixel, hs]
  have hm : mod16 x = ⟨x, hx⟩ := by apply Fin.ext; simp [mod16]; omega
  refine Eq.trans ?_ (congrArg (fun c : Fin 16 => (macroblocksFrom rom (i * macroblockRows h + r / 16 + 1)
    { g with blk := { g.blk with c := 2 } }).px[mod16 r][c]) hm.symm)
  simp [hx]

/-! ### The operation -/

theorem toInt_toNat_of_pos {d : Word} (h : 0 < d.toInt) : d.toInt.toNat = d.toNat := by
  have h1 := d.isLt
  rw [BitVec.toInt_eq_toNat_cond] at h ⊢
  split at h <;> split <;> omega

theorem pixelBytes_of_pos {s : State} (hw : 0 < s.lW.toInt) (hh : 0 < s.lH.toInt) :
    s.pixelBytes = 3 * s.lW.toNat * s.lH.toNat := by
  rw [State.pixelBytes, if_pos ⟨hw, hh⟩, toInt_toNat_of_pos hw, toInt_toNat_of_pos hh]

/-- DECODE on a good chunk with good dimensions and an admitted pixel range. -/
theorem decode_good {s : State} (h : s.Decodable) {g : Engine} (hg : s.depack = .ok g) :
    s.decode = .ok (frameRun s.rom s.lW.toNat s.lH.toNat s.lDst.toNat g s.mem) := by
  have hc := (depack_stream hg).1
  have h1 := capacity_ge (chunkWord s 0)
  have h2 := h.size.width_positive
  have h3 := h.size.height_positive
  have h4 := h.size.width_limit
  have h5 := h.size.height_limit
  unfold State.decode State.decodeFrame
  rw [hg]
  dsimp only
  rw [if_neg (by omega), if_neg (by omega), if_neg (by omega), if_neg (by rw [h.pixels]; simp),
    toInt_toNat_of_pos h2, toInt_toNat_of_pos h3]

theorem decode_dimensions {s : State} {g : Engine} (hg : s.depack = .ok g) (h : s.lW.toInt ≤ 0 ∨ s.lH.toInt ≤ 0) :
    s.decode = .raise .invalidDimensions := by
  unfold State.decode State.decodeFrame; rw [hg]; dsimp only; rw [if_pos h]

theorem decode_limits {s : State} {g : Engine} (hg : s.depack = .ok g) (hw : 0 < s.lW.toInt) (hh : 0 < s.lH.toInt)
    (h : (s.rom.maxWidth : Int) < s.lW.toInt ∨ (s.rom.maxHeight : Int) < s.lH.toInt) :
    s.decode = .refuse .dimensionsAboveLimit := by
  have hc := (depack_stream hg).1
  have h1 := capacity_ge (chunkWord s 0)
  unfold State.decode State.decodeFrame; rw [hg]; dsimp only
  rw [if_neg (by omega), if_neg (by omega), if_pos h]

theorem decode_pixels {s : State} {g : Engine} (hg : s.depack = .ok g) (h : s.GoodSize)
    (hp : s.pixelsAdmitted = false) : s.decode = .stuck .pixelsNotAdmitted := by
  have hc := (depack_stream hg).1
  have h1 := capacity_ge (chunkWord s 0)
  have h2 := h.width_positive
  have h3 := h.height_positive
  have h4 := h.width_limit
  have h5 := h.height_limit
  unfold State.decode State.decodeFrame; rw [hg]; dsimp only
  rw [if_neg (by omega), if_neg (by omega), if_neg (by omega), if_pos hp]

/-- A good chunk depacks. -/
theorem depack_ok {s : State} (h : s.GoodChunk) : ∃ g, s.depack = .ok g := ⟨_, depack_good h⟩

/-- What DECODE answers, it answers under its conditions (R171, R172, R271, R281, R69). -/
theorem decodable_of_decode {s : State} {p : Engine × Memory} (h : s.decode = .ok p) : s.Decodable := by
  cases hd : s.depack with
  | ok g =>
    by_cases h1 : s.lW.toInt ≤ 0 ∨ s.lH.toInt ≤ 0
    · rw [decode_dimensions hd h1] at h; cases h
    · by_cases h2 : (s.rom.maxWidth : Int) < s.lW.toInt ∨ (s.rom.maxHeight : Int) < s.lH.toInt
      · rw [decode_limits hd (by omega) (by omega) h2] at h; cases h
      · have hs : s.GoodSize := ⟨by omega, by omega, by omega, by omega⟩
        by_cases h3 : s.pixelsAdmitted = true
        · exact ⟨goodChunk_of_depack hd, hs, h3⟩
        · rw [decode_pixels hd hs (by simpa using h3)] at h; cases h
  | raise x => rw [State.decode, hd] at h; cases h
  | stuck x => rw [State.decode, hd] at h; cases h
  | refuse x => rw [State.decode, hd] at h; cases h

/-- What DECODE writes (R279, R280). -/
theorem decode_mem {s : State} {p : Engine × Memory} (h : s.decode = .ok p) :
    (s.mem.wf → p.2.wf) ∧
    (∀ a, ¬ (s.lDst.toNat ≤ a ∧ a < s.lDst.toNat + 3 * s.lW.toNat * s.lH.toNat) → p.2.read a = s.mem.read a) := by
  obtain ⟨g, hg⟩ := depack_ok (decodable_of_decode h).chunk
  rw [decode_good (decodable_of_decode h) hg] at h
  injection h with h
  subst h
  rw [frameRun_eq]
  refine ⟨fun hm => Memory.writeAll_wf hm _, fun a ha => ?_⟩
  refine Memory.read_writeAll_of_not_mem _ fun c hc he => ha ?_
  exact mem_frameAddrs.1 (List.mem_map.2 ⟨c, hc, he⟩)

/-- The three bytes of pixel `(x, y)` after DECODE (R66, R273 to R279). -/
theorem decode_pixel {s : State} {p : Engine × Memory} (h : s.decode = .ok p) (hm : s.mem.wf) {g : Engine}
    (hg : s.depack = .ok g) {x y : Nat} (hx : x < s.lW.toNat) (hy : y < s.lH.toNat) :
    let a := s.lDst.toNat + 3 * (y * s.lW.toNat + x)
    let q := (macroblocksFrom s.rom
      (x / 16 * macroblockRows s.lH.toNat + (s.lH.toNat - 1 - y) / 16 + 1)
      { g with blk := { g.blk with c := 2 } }).px[mod16 (s.lH.toNat - 1 - y)][mod16 x]
    p.2.read a = q.b ∧ p.2.read (a + 1) = q.g ∧ p.2.read (a + 2) = q.r := by
  intro a q
  have hd := decodable_of_decode h
  have hadm : ∀ c, c < 3 → a + c < Config.addrLimit := by
    intro c hc
    have hb := hd.pixels
    unfold State.pixelsAdmitted at hb
    rw [pixelBytes_of_pos hd.size.width_positive hd.size.height_positive] at hb
    refine admits_lt (rangeAdmitted_iff.1 hb _ (by omega) ?_)
    have h1 : y * s.lW.toNat + s.lW.toNat ≤ s.lH.toNat * s.lW.toNat := by
      have := Nat.mul_le_mul_right s.lW.toNat (Nat.succ_le_of_lt hy); rw [Nat.succ_mul] at this; exact this
    have h2 : 3 * s.lW.toNat * s.lH.toNat = 3 * (s.lH.toNat * s.lW.toNat) := by ring
    omega
  rw [decode_good hd hg] at h
  injection h with h
  subst h
  rw [frameRun_eq]
  have hrows : s.lH.toNat - 1 - y < 16 * macroblockRows s.lH.toNat := by unfold macroblockRows; omega
  have hslice : x / 16 < sliceCount s.lW.toNat := by unfold sliceCount; omega
  have hpix : stagePixel ((engineBefore s.rom (macroblockRows s.lH.toNat) g (x / 16)).slice s.rom
      (macroblockRows s.lH.toNat)).st (s.lH.toNat - 1 - y) (x % 16) = q := by
    rw [stage_pixel s.rom s.lH.toNat g (x / 16) _ (x % 16) hrows (by omega)]
    have : mod16 (x % 16) = mod16 x := by apply Fin.ext; simp [mod16]
    exact congrArg (fun c : Fin 16 => (macroblocksFrom s.rom
      (x / 16 * macroblockRows s.lH.toNat + (s.lH.toNat - 1 - y) / 16 + 1)
      { g with blk := { g.blk with c := 2 } }).px[mod16 (s.lH.toNat - 1 - y)][c]) this
  have cell : ∀ c ∈ pixelCells a q, c ∈ frameCells s.lDst.toNat s.lW.toNat s.lH.toNat (sliceCount s.lW.toNat)
      (fun i => ((engineBefore s.rom (macroblockRows s.lH.toNat) g i).slice s.rom (macroblockRows s.lH.toNat)).st) := by
    intro c hc
    refine mem_frameCells.2 ⟨x / 16, y, x % 16, hslice, hy, by omega, by omega, ?_⟩
    rw [hpix, show 16 * (x / 16) + x % 16 = x by omega]
    exact hc
  have read := fun c (hc : c ∈ pixelCells a q) (hl : c.1 < Config.addrLimit) =>
    Memory.read_writeAll_of_mem hm (frameCells_nodup _ _ _ _ _) (cell c hc) hl
  refine ⟨read (a, q.b) ?_ (hadm 0 (by omega)), read (a + 1, q.g) ?_ (hadm 1 (by omega)),
    read (a + 2, q.r) ?_ (hadm 2 (by omega))⟩ <;> simp [pixelCells]

end Sys2Proof.Machine
end

