-- ==== Sys2Proof/Laws/PerInstr.lean ====
section
/-! SUPPORT. Decode and encode agree, constructor by constructor. -/

namespace Sys2Proof.Laws.RoundTrip

open Sys2Proof Machine

/-- The decoder reads a well-formed instruction back from its record, with every operand. -/
def Statement (i : Instr) : Prop := i.wf = true → Sys2Proof.decode (encode i) = .ok i []

theorem rdReg (off : Byte) : Statement (.rdReg off) := by
  intro h
  simp only [Instr.wf] at h
  rw [encode, decode_layerHostRead]
  simp only [decodeHostRead, accessError_none h]

theorem wrCtrl (d : Word) : Statement (.wrCtrl d) := by
  intro h
  simp only [Instr.wf, decide_eq_true_eq] at h
  rw [encode, decode_ctrl, ctrlInstr, if_neg (by omega), if_neg (by omega)]

theorem ctrlStart (d : Word) : Statement (.ctrlStart d) := by
  intro h
  simp only [Instr.wf, decide_eq_true_eq] at h
  rw [encode, decode_ctrl, ctrlInstr, if_neg (by omega), if_pos (by omega)]

theorem ctrlSoftReset (d : Word) : Statement (.ctrlSoftReset d) := by
  intro h
  simp only [Instr.wf, decide_eq_true_eq] at h
  rw [encode, decode_ctrl, ctrlInstr, if_pos h]

theorem wrStatusW1c (d : Word) : Statement (.wrStatusW1c d) := fun _ => decode_hostWrite (by decide) d
theorem wrSrcAddr (d : Word) : Statement (.wrSrcAddr d) := fun _ => decode_hostWrite (by decide) d
theorem wrSrcLen (d : Word) : Statement (.wrSrcLen d) := fun _ => decode_hostWrite (by decide) d
theorem wrWidth (d : Word) : Statement (.wrWidth d) := fun _ => decode_hostWrite (by decide) d
theorem wrHeight (d : Word) : Statement (.wrHeight d) := fun _ => decode_hostWrite (by decide) d
theorem wrDstAddr (d : Word) : Statement (.wrDstAddr d) := fun _ => decode_hostWrite (by decide) d

theorem wrReserved (off : Byte) (d : Word) : Statement (.wrReserved off d) := by
  intro h
  simp only [Instr.wf, reservedOffset, Bool.and_eq_true, decide_eq_true_eq] at h
  have ne : ∀ k : Byte, k.toNat < 0x1C → off ≠ k := by
    rintro k hk rfl; exact absurd h.2 (by omega)
  rw [encode, decode_hostWrite h.1, writeInstr, if_neg (ne _ (by decide)), if_neg (ne _ (by decide)),
    if_neg (ne _ (by decide)), if_neg (ne _ (by decide)), if_neg (ne _ (by decide)), if_neg (ne _ (by decide)),
    if_neg (ne _ (by decide))]

theorem complete : Statement .complete := fun _ => rfl

theorem brNew (n : Nat) : Statement (.brNew n) := by
  intro h
  simp only [Instr.wf, decide_eq_true_eq] at h
  exact decode_engineOperand h (by decide) (by decide) rfl

theorem brReadBit : Statement .brReadBit := fun _ => rfl

theorem brReadBits (n : Nat) : Statement (.brReadBits n) := by
  intro h
  simp only [Instr.wf, decide_eq_true_eq] at h
  exact decode_engineOperand (by omega) (by decide) (by decide) (by simp [operandInstr, h])

theorem brPeekBits (n : Nat) : Statement (.brPeekBits n) := by
  intro h
  simp only [Instr.wf, decide_eq_true_eq] at h
  exact decode_engineOperand (by omega) (by decide) (by decide) (by simp [operandInstr, h])

theorem brSkipBits (n : Nat) : Statement (.brSkipBits n) := by
  intro h
  simp only [Instr.wf, decide_eq_true_eq] at h
  exact decode_engineOperand h (by decide) (by decide) (by simp [operandInstr])

theorem brHasMore : Statement .brHasMore := fun _ => rfl

theorem blkHdr (bits : BitVec 22) : Statement (.blkHdr bits) := by
  intro _
  have h := ofBytesLE_three bits.toNat (by have := bits.isLt; omega)
  rw [encode, decode_layerHeader]
  simp only [bytesLE, decodeHeader, h]
  rw [if_pos bits.isLt]; simp

theorem vlcFast01 (w : Half) : Statement (.vlcFast01 w) := by
  intro h
  simp only [Instr.wf, decide_eq_true_eq] at h
  rw [encode, decode_window, windowInstr_fast01 h]

theorem vlcFast1 (w : Half) : Statement (.vlcFast1 w) := by
  intro h
  simp only [Instr.wf, decide_eq_true_eq] at h
  rw [encode, decode_window, windowInstr_fast1 h]

theorem vlcLcLz2 (w : Half) : Statement (.vlcLcLz2 w) := by
  intro h
  simp only [Instr.wf, decide_eq_true_eq] at h
  simp [encode, decode_window, windowInstr, windowTop_ne h, h]

theorem vlcLcLz3 (w : Half) : Statement (.vlcLcLz3 w) := by
  intro h
  simp only [Instr.wf, decide_eq_true_eq] at h
  simp [encode, decode_window, windowInstr, windowTop_ne h, h]

theorem vlcLcLz4 (w : Half) : Statement (.vlcLcLz4 w) := by
  intro h
  simp only [Instr.wf, decide_eq_true_eq] at h
  simp [encode, decode_window, windowInstr, windowTop_ne h, h]

theorem vlcLcLz5 (w : Half) : Statement (.vlcLcLz5 w) := by
  intro h
  simp only [Instr.wf, decide_eq_true_eq] at h
  simp [encode, decode_window, windowInstr, windowTop_ne h, h]

theorem vlcLcLz6 (w : Half) : Statement (.vlcLcLz6 w) := by
  intro h
  simp only [Instr.wf, decide_eq_true_eq] at h
  simp [encode, decode_window, windowInstr, windowTop_ne h, h]

theorem vlcLcLz7 (w : Half) : Statement (.vlcLcLz7 w) := by
  intro h
  simp only [Instr.wf, decide_eq_true_eq] at h
  simp [encode, decode_window, windowInstr, windowTop_ne h, h]

theorem vlcLcLz8 (w : Half) : Statement (.vlcLcLz8 w) := by
  intro h
  simp only [Instr.wf, decide_eq_true_eq] at h
  simp [encode, decode_window, windowInstr, windowTop_ne h, h]

theorem vlcLcLz9 (w : Half) : Statement (.vlcLcLz9 w) := by
  intro h
  simp only [Instr.wf, decide_eq_true_eq] at h
  simp [encode, decode_window, windowInstr, windowTop_ne h, h]

theorem vlcLcLz10 (w : Half) : Statement (.vlcLcLz10 w) := by
  intro h
  simp only [Instr.wf, decide_eq_true_eq] at h
  simp [encode, decode_window, windowInstr, windowTop_zero h]

theorem escRaw (run : BitVec 6) (lvl : BitVec 10) : Statement (.escRaw run lvl) := by
  intro _
  rw [encode, decode_layerRaw]
  simp only [bytesLE, decodeRaw, half_bytes, rlHigh_rlWord, rlLow_rlWord]

theorem entEob (e : Word) : Statement (.entEob e) := by
  intro h
  simp only [Instr.wf, decide_eq_true_eq] at h
  rw [encode, decode_entry, entryInstr, h]

theorem entEsc (e : Word) : Statement (.entEsc e) := by
  intro h
  simp only [Instr.wf, decide_eq_true_eq] at h
  rw [encode, decode_entry, entryInstr, h]

theorem entAc (e : Word) : Statement (.entAc e) := by
  intro h
  simp only [Instr.wf, decide_eq_true_eq] at h
  rw [encode, decode_entry, entryInstr, h]

theorem rlCnt : Statement .rlCnt := fun _ => rfl
theorem rlMagic : Statement .rlMagic := fun _ => rfl

theorem rlHdr (qs : BitVec 6) (dc : BitVec 10) : Statement (.rlHdr qs dc) :=
  fun _ => decode_rl _ _ (by simp [rlInstr])

theorem rlEob : Statement .rlEob := fun _ => decode_rl _ _ (by simp [rlInstr, acInstr])

theorem rlAc (run : BitVec 6) (lvl : BitVec 10) : Statement (.rlAc run lvl) := by
  intro h
  simp only [Instr.wf, decide_eq_true_eq] at h
  exact decode_rl _ _ (by simp [rlInstr, acInstr, h])

theorem depack : Statement .depack := fun _ => rfl
theorem huffDecodeNext : Statement .huffDecodeNext := fun _ => rfl
theorem decodeBlock : Statement .decodeBlock := fun _ => rfl

theorem idct8x8 (b : Fin 6) : Statement (.idct8x8 b) := by
  intro _
  exact decode_engineOperand (by omega) (by decide) (by decide) (by simp [operandInstr])

theorem renderMb : Statement .renderMb := fun _ => rfl
theorem decode : Statement .decode := fun _ => rfl

end Sys2Proof.Laws.RoundTrip
end

