-- ==== Sys2Proof/Laws/Step.lean ====
section
/-! SUPPORT. Everything the shared host operations, COMPLETE, `exec` and `step` can do. -/

namespace Sys2Proof.Machine

/-! ### Free bytes written (20_memory.md R78, 70_reset_and_hazards.md R373) -/

theorem scribbleCells_addrs (l : List Nat) (d : Nat) : (scribbleCells l d).map Prod.fst = l := by
  unfold scribbleCells
  rw [List.map_map]
  exact List.zipIdx_map_fst 0 l

theorem mem_scribbleCells {l : List Nat} {d : Nat} {c : Host.Cell} (h : c ∈ scribbleCells l d) :
    c.1 ∈ l ∧ ∃ n, d ≤ n ∧ c.2 = Config.freeByte n := by
  unfold scribbleCells at h
  obtain ⟨p, hp, rfl⟩ := List.mem_map.1 h
  refine ⟨?_, d + p.2, by omega, rfl⟩
  have := List.mem_map_of_mem (f := Prod.fst) hp
  rwa [List.zipIdx_map_fst] at this

theorem scribble_wf {s : State} (h : s.mem.wf) (l : List Nat) : (s.scribble l).mem.wf := Memory.writeAll_wf h _

/-- The frame of a scribble. -/
theorem scribble_read_other (s : State) {l : List Nat} {a : Nat} (h : a ∉ l) :
    (s.scribble l).mem.read a = s.mem.read a :=
  Memory.read_writeAll_of_not_mem _ fun _ hc he => h (he ▸ (mem_scribbleCells hc).1)

/-- A scribbled byte is free. -/
theorem scribble_read_free {s : State} (hm : s.mem.wf) {l : List Nat} {a : Nat} (h : a ∈ l)
    (ha : a < Config.addrLimit) : ∃ n, s.eng.draws ≤ n ∧ (s.scribble l).mem.read a = Config.freeByte n := by
  obtain ⟨c, hc, _, h2⟩ := Memory.read_writeAll_exists hm (l := scribbleCells l s.eng.draws) (a := a)
    (by rw [scribbleCells_addrs]; exact h) ha
  obtain ⟨_, n, hn, h3⟩ := mem_scribbleCells hc
  exact ⟨n, hn, h2.trans h3⟩

theorem scribble_nil (s : State) : s.scribble [] = s := by
  unfold State.scribble scribbleCells; rfl

theorem mem_pixelAddrs {s : State} {a : Nat} :
    a ∈ s.pixelAddrs ↔ (s.lDst.toNat ≤ a ∧ a < s.lDst.toNat + s.pixelBytes) ∧ admits s.rom a = true := by
  unfold State.pixelAddrs
  rw [List.mem_filter, List.mem_map]
  constructor
  · rintro ⟨⟨i, hi, rfl⟩, h⟩
    rw [List.mem_range] at hi
    exact ⟨⟨by omega, by omega⟩, h⟩
  · rintro ⟨⟨h1, h2⟩, h⟩
    exact ⟨⟨a - s.lDst.toNat, List.mem_range.2 (by omega), by omega⟩, h⟩

/-- A settled state whose decode nothing raced with. -/
theorem settleRaces_unraced {s : State} (h : s.Unraced) : s.settleRaces = s := by
  obtain ⟨h1, h2⟩ := h
  unfold State.settleRaces
  rw [h1, h2, scribble_nil]
  cases s; simp_all

theorem settleRaces_wf {s : State} (h : s.mem.wf) : s.settleRaces.mem.wf := by
  unfold State.settleRaces; split
  · exact scribble_wf h _
  · exact scribble_wf h _

/-! ### COMPLETE -/

/-- The end of a decode keeps everything but the buffers and memory; the races are over. -/
theorem endDecode_eq (s : State) (g : Engine) (m : Memory) :
    s.endDecode g m =
      { s with eng := (s.endDecode g m).eng, mem := (s.endDecode g m).mem, chunkRaced := false, pixRaced := [] } := by
  unfold State.endDecode State.settleRaces; dsimp only; split <;> rfl

theorem endDecode_wf (s : State) (g : Engine) {m : Memory} (h : m.wf) : (s.endDecode g m).mem.wf :=
  settleRaces_wf (s := { s with eng := g, mem := m }) h

/-- Nothing raced: memory is what the decode left. -/
theorem endDecode_unraced {s : State} (h : s.Unraced) (g : Engine) (m : Memory) :
    s.endDecode g m = { s with eng := (s.endDecode g m).eng, mem := m } := by
  have h2 : ({ s with eng := g, mem := m } : State).Unraced := h
  unfold State.endDecode
  rw [settleRaces_unraced h2]
  rfl

theorem complete_ok {s : State} (hb : s.busy = true) {p : Engine × Memory} (h : s.decode = .ok p) :
    exec .complete s = .next (s.endDecode p.1 p.2).reportSuccess := by
  show execComplete s = _; unfold execComplete; rw [if_pos hb, h]

theorem complete_raise {s : State} (hb : s.busy = true) {x : CodecError} (h : s.decode = .raise x) :
    exec .complete s = .next ((s.endDecode s.eng s.mem).reportError x) := by
  show execComplete s = _; unfold execComplete; rw [if_pos hb, h]

theorem complete_stuck {s : State} (hb : s.busy = true) {f : Fault} (h : s.decode = .stuck f) :
    exec .complete s = .fault f := by
  show execComplete s = _; unfold execComplete; rw [if_pos hb, h]

theorem complete_refuse {s : State} (hb : s.busy = true) {r : Refusal} (h : s.decode = .refuse r) :
    exec .complete s = .refused r := by
  show execComplete s = _; unfold execComplete; rw [if_pos hb, h]

theorem complete_idle {s : State} (hb : s.busy = false) : exec .complete s = .next s := by
  show execComplete s = _; unfold execComplete; rw [hb]; rfl

/-- The errors DECODE raises before the compositor. -/
theorem decode_raise_of_depack {s : State} {x : CodecError} (h : s.depack = .raise x) : s.decode = .raise x := by
  unfold State.decode; rw [h]

theorem decode_stuck_of_depack {s : State} {f : Fault} (h : s.depack = .stuck f) : s.decode = .stuck f := by
  unfold State.decode; rw [h]

/-! ### Reset -/

/-- A reset keeps the constants, the inbox and what the host read; the rest of the plain state is reset. -/
theorem resetAll_eq (s : State) : ∃ (g : Engine) (old : List UnseenRange),
    s.resetAll = { State.reset with
      rom := s.rom, mem := s.abandon.mem, eng := g, unseenOld := old, hostData := s.hostData, inbox := s.inbox } := by
  unfold State.resetAll
  refine ⟨s.abandon.eng.unspecified, s.abandon.leaveUnseen.unseenOld, ?_⟩
  have h : s.abandon.rom = s.rom ∧ s.abandon.hostData = s.hostData ∧ s.abandon.inbox = s.inbox := by
    unfold State.abandon; split <;> exact ⟨rfl, rfl, rfl⟩
  unfold State.resetCore
  rw [← h.1, ← h.2.1, ← h.2.2]
  rfl

theorem abandon_idle {s : State} (h : s.busy = false) : s.abandon = s := by
  unfold State.abandon; rw [h]; rfl

theorem abandon_wf {s : State} (h : s.mem.wf) : s.abandon.mem.wf := by
  unfold State.abandon; split
  · exact scribble_wf h _
  · exact h

/-! ### Everything an instruction does -/

/-- The host's accesses, COMPLETE and DECODE, each with all it can do; every other instruction changes the buffers
alone. -/
inductive Effect (s : State) : Instr → State → Prop where
  | buffers {i : Instr} (g : Engine) : isInternal i = true → Effect s i (s.setEng g)
  | read (off : Byte) : registerOffset off = true →
      Effect s (.rdReg off) { s.seeDone off with hostData := s.readReg off }
  | ctrl (d : Word) : Effect s (.wrCtrl d) (s.setIrqEn d)
  | startBusy (d : Word) : s.busy = true → Effect s (.ctrlStart d) (s.setIrqEn d)
  | start (d : Word) : s.busy = false → Effect s (.ctrlStart d) (s.setIrqEn d).startDecode
  | softReset (d : Word) : Effect s (.ctrlSoftReset d) s.resetAll
  | status (d : Word) : Effect s (.wrStatusW1c d) (s.acknowledge (d.getLsbD 1) (d.getLsbD 2))
  | srcAddr (d : Word) : Effect s (.wrSrcAddr d) { s with srcAddr := d }
  | srcLen (d : Word) : Effect s (.wrSrcLen d) { s with srcLen := d }
  | width (d : Word) : Effect s (.wrWidth d) { s with width := d }
  | height (d : Word) : Effect s (.wrHeight d) { s with height := d }
  | dstAddr (d : Word) : Effect s (.wrDstAddr d) { s with dstAddr := d }
  | reserved (off : Byte) (d : Word) : reservedOffset off = true → Effect s (.wrReserved off d) s
  | idle : s.busy = false → Effect s .complete s
  | success (p : Engine × Memory) : s.busy = true → s.decode = .ok p →
      Effect s .complete (s.endDecode p.1 p.2).reportSuccess
  | error (x : CodecError) : s.busy = true → s.decode = .raise x →
      Effect s .complete ((s.endDecode s.eng s.mem).reportError x)
  | decoded (p : Engine × Memory) : s.decode = .ok p → Effect s .decode { s with eng := p.1, mem := p.2 }
  | decodeError (x : CodecError) : s.decode = .raise x →
      Effect s .decode (s.setEng { s.eng with raised := some x })

theorem next_inj {s t : State} (h : (.next s : Host.Outcome State Fault Refusal) = .next t) : s = t := by
  injection h

/-- The inversion of `exec`. -/
theorem exec_effect {i : Instr} {s t : State} (h : exec i s = .next t) : Effect s i t := by
  cases i with
  | rdReg off =>
    change execRdReg off s = _ at h
    unfold execRdReg at h
    split at h
    · exact next_inj h ▸ .read off (by assumption)
    · cases h
  | wrCtrl d => exact next_inj h ▸ .ctrl d
  | ctrlStart d =>
    have h := next_inj h
    split at h
    · exact h ▸ .startBusy d (by assumption)
    · exact h ▸ .start d (by simp_all)
  | ctrlSoftReset d => exact next_inj h ▸ .softReset d
  | wrStatusW1c d => exact next_inj h ▸ .status d
  | wrSrcAddr d => exact next_inj h ▸ .srcAddr d
  | wrSrcLen d => exact next_inj h ▸ .srcLen d
  | wrWidth d => exact next_inj h ▸ .width d
  | wrHeight d => exact next_inj h ▸ .height d
  | wrDstAddr d => exact next_inj h ▸ .dstAddr d
  | wrReserved off d =>
    change execWrReserved off d s = _ at h
    unfold execWrReserved at h
    split at h
    · exact next_inj h ▸ .reserved off d (by assumption)
    · cases h
  | complete =>
    by_cases hb : s.busy = true
    · cases hd : s.decode with
      | ok p => rw [complete_ok hb hd] at h; exact next_inj h ▸ .success p hb hd
      | raise x => rw [complete_raise hb hd] at h; exact next_inj h ▸ .error x hb hd
      | stuck f => rw [complete_stuck hb hd] at h; cases h
      | refuse r => rw [complete_refuse hb hd] at h; cases h
    · have hb' : s.busy = false := by simpa using hb
      rw [complete_idle hb'] at h
      exact next_inj h ▸ .idle hb'
  | decode =>
    change execDecode s = _ at h
    unfold execDecode at h
    cases hd : s.decode with
    | ok p => rw [hd] at h; exact next_inj h ▸ .decoded p hd
    | raise x => rw [hd] at h; exact next_inj h ▸ .decodeError x hd
    | stuck f => rw [hd] at h; cases h
    | refuse r => rw [hd] at h; cases h
  | brReadBit =>
    change execBrReadBit s = _ at h
    unfold execBrReadBit at h
    split at h
    · exact next_inj h ▸ .buffers _ rfl
    · cases h
  | brReadBits n =>
    change execBrReadBits n s = _ at h
    unfold execBrReadBits at h
    split at h
    · cases h
    · split at h
      · exact next_inj h ▸ .buffers _ rfl
      · cases h
  | brPeekBits n =>
    change execBrPeekBits n s = _ at h
    unfold execBrPeekBits at h
    split at h
    · cases h
    · split at h
      · exact next_inj h ▸ .buffers _ rfl
      · cases h
  | huffDecodeNext =>
    change execHuffDecodeNext s = _ at h
    unfold execHuffDecodeNext at h
    split at h
    · exact next_inj h ▸ .buffers _ rfl
    · cases h
  | entEsc e =>
    change execEntEsc e s = _ at h
    unfold execEntEsc at h
    split at h
    · exact next_inj h ▸ .buffers _ rfl
    · cases h
  | depack =>
    change execDepack s = _ at h
    unfold execDepack at h
    cases hd : s.depack with
    | ok g => rw [hd] at h; exact next_inj h ▸ .buffers _ rfl
    | raise x => rw [hd] at h; exact next_inj h ▸ .buffers _ rfl
    | stuck f => rw [hd] at h; cases h
    | refuse r => rw [hd] at h; cases h
  | _ => exact next_inj h ▸ .buffers _ rfl

/-! ### What the host can rely on (20_memory.md R71, R78) -/

@[simp] theorem unreliable_inbox (s : State) (q : List Event) (a : Nat) :
    ({ s with inbox := q } : State).unreliable a = s.unreliable a := rfl

/-- When the host can rely on a byte. -/
theorem unreliable_eq_false {s : State} {a : Nat} :
    s.unreliable a = false ↔
      (s.inPixels a = true → s.busy = false ∧ s.unseen = .nothing) ∧ s.inUnseenOld a = false := by
  unfold State.unreliable
  cases s.inPixels a <;> cases s.busy <;> cases s.unseen <;> simp

@[simp] theorem unordered_inbox (s : State) (q : List Event) (a : Nat) :
    ({ s with inbox := q } : State).unordered a = s.unordered a := rfl

/-- When a host write is ordered after every write of the engine. -/
theorem unordered_eq_false {s : State} {a : Nat} :
    s.unordered a = false ↔
      (s.unseen = .written → s.inPixels a = false) ∧ ∀ u ∈ s.unseenOld, u.wrote = true → u.covers a = false := by
  unfold State.unordered
  rw [Bool.or_eq_false_iff, List.any_eq_false]
  cases s.inPixels a <;> cases s.unseen <;> simp

/-! ### Everything a step does -/

theorem runRecord_next {r : List Byte} {s t : State} (h : runRecord r s = .next t) :
    ∃ i, Sys2Proof.decode r = .ok i [] ∧ exec i s = .next t := by
  unfold runRecord at h
  cases hd : Sys2Proof.decode r with
  | reject e => rw [hd] at h; cases h
  | ok i rest =>
    rw [hd] at h
    cases rest with
    | nil => exact ⟨i, rfl, h⟩
    | cons b l => cases h

/-- What a host access to memory does. -/
inductive MemoryEffect (s : State) : State → Prop where
  | readFree (n : Nat) : MemoryEffect s { s with hostData := (Config.freeByte n).setWidth 32, eng := s.eng.drew 1 }
  | read (a : Nat) : MemoryEffect s { s with hostData := (s.mem.read a).setWidth 32 }
  | writeFree (a : Nat) : MemoryEffect s ((s.noteRace a).scribble [a])
  | write (a : Nat) (v : Byte) : MemoryEffect s { s.noteRace a with mem := s.mem.write a v }

theorem hostRead_effect {s t : State} {a : Nat} (h : s.hostRead a = .next t) : MemoryEffect s t := by
  unfold State.hostRead at h
  split at h
  · cases h
  · split at h
    · cases h
    · split at h
      · exact next_inj h ▸ .readFree _
      · exact next_inj h ▸ .read a

theorem hostWrite_effect {s t : State} {a : Nat} {v : Byte} (h : s.hostWrite a v = .next t) : MemoryEffect s t := by
  unfold State.hostWrite at h
  split at h
  · cases h
  · split at h
    · cases h
    · split at h
      · exact next_inj h ▸ .writeFree a
      · exact next_inj h ▸ .write a v

/-- Where a step's next state comes from: an instruction run, a host access to memory, a power-on reset, or nothing. -/
theorem step_runs {s t : State} (h : step s = .next t) :
    (∃ i rest, exec i { s with inbox := rest } = .next t) ∨ (∃ rest, MemoryEffect { s with inbox := rest } t) ∨
      (∃ rest, exec (.ctrlSoftReset 0x2) { s with inbox := rest } = .next t) ∨
      (s.inbox = [] ∧ exec .complete s = .next t) ∨ (s.busy = false ∧ t = s) := by
  unfold step at h
  cases hi : s.inbox with
  | nil =>
    rw [hi] at h
    dsimp only at h
    split at h
    · exact .inr (.inr (.inr (.inl ⟨rfl, h⟩)))
    · exact .inr (.inr (.inr (.inr ⟨by simp_all, (next_inj h).symm⟩)))
  | cons ev rest =>
    rw [hi] at h
    dsimp only at h
    cases ev with
    | op r =>
      obtain ⟨i, _, he⟩ := runRecord_next h
      exact .inl ⟨i, rest, he⟩
    | busAccess w width addr d =>
      unfold runEvent at h
      dsimp only at h
      split at h
      · obtain ⟨i, _, he⟩ := runRecord_next h
        exact .inl ⟨i, rest, he⟩
      · cases h
    | memRead a => exact .inr (.inl ⟨rest, hostRead_effect h⟩)
    | memWrite a v => exact .inr (.inl ⟨rest, hostWrite_effect h⟩)
    | powerOnReset => exact .inr (.inr (.inl ⟨rest, h⟩))

/-- The inversion of `step`: an instruction, a host access to memory, a reset, or nothing. -/
theorem step_cases {s t : State} (h : step s = .next t) :
    (∃ i rest, Effect { s with inbox := rest } i t) ∨ (∃ rest, MemoryEffect { s with inbox := rest } t) ∨
      (∃ rest, t = ({ s with inbox := rest } : State).resetAll) ∨ Effect s .complete t ∨ t = s := by
  rcases step_runs h with ⟨i, q, h⟩ | h | ⟨q, h⟩ | ⟨_, h⟩ | ⟨_, h⟩
  · exact .inl ⟨i, q, exec_effect h⟩
  · exact .inr (.inl h)
  · exact .inr (.inr (.inl ⟨q, (next_inj h).symm⟩))
  · exact .inr (.inr (.inr (.inl (exec_effect h))))
  · exact .inr (.inr (.inr (.inr h)))

end Sys2Proof.Machine
end

