-- ==== Sys2Proof/Laws/Transform.lean ====
section
/-! SUPPORT. The inverse DCT: what the hardware's transform is known to do, the real transform of a block with only a
DC, and rounding (44_idct.md R230 to R236); samples of the macroblock and colour channels (45_macroblock_color.md). -/

namespace Sys2Proof.Machine

/-! ### The transform -/

/-- R234 with `IDCT_TOL = 1`. -/
theorem idct_close (fb : Fin 64 → Int) (i : Fin 64) : |(Config.idct.run fb i : ℝ) - Config.idctReal fb i| < 1 := by
  have := Config.idct.close fb i
  rwa [Config.idctTol, Nat.cast_one] at this

theorem transform_get (g : Engine) (b c : Fin 6) :
    (g.transform b).sb[c] = if b = c then spatialBlock g.blk.fb g.draws else g.sb[c] := vector_set_get _ _ _ _

theorem spatialBlock_get (fb : Vector Int 64) (d : Nat) (i : Fin 64) :
    (spatialBlock fb d)[i] = spatialSample fb d i := by
  simp [spatialBlock]

/-- A real sample that fits s32 keeps the hardware's sample in s32, within the tolerance. -/
theorem spatialSample_close (fb : Vector Int 64) (d : Nat) (i : Fin 64)
    (h : |Config.idctReal (fun j => fb[j]) i| ≤ 2 ^ 31 - 1) :
    |(spatialSample fb d i : ℝ) - Config.idctReal (fun j => fb[j]) i| < 1 := by
  have hc := idct_close (fun j => fb[j]) i
  have h1 := abs_le.1 h
  have h2 := abs_lt.1 hc
  have h3 : ((-2 ^ 31 : Int) : ℝ) < (Config.idct.run (fun j => fb[j]) i : ℝ) := by push_cast; linarith
  have h4 : (Config.idct.run (fun j => fb[j]) i : ℝ) < ((2 ^ 31 : Int) : ℝ) := by push_cast; linarith
  unfold spatialSample
  rw [s32OrDraw_eq]
  · exact hc
  · intro x hx
    simp only [List.mem_cons, List.not_mem_nil, or_false] at hx
    subst hx
    exact ⟨(Int.cast_lt.1 h3).le, Int.cast_lt.1 h4⟩

/-! ### A block with only a DC (R236) -/

theorem idct1_dc {x : Fin 8 → ℝ} (h : ∀ u, u ≠ 0 → x u = 0) (n : Fin 8) :
    Config.idct1 x n = x 0 / (2 * Real.sqrt 2) := by
  unfold Config.idct1
  rw [Finset.sum_eq_single (0 : Fin 8) (fun u _ hu => by rw [h u hu]; simp) (by simp)]
  have h2 : Real.sqrt 2 ≠ 0 := by positivity
  simp [Config.dcTerm]
  field_simp

theorem idctReal_dc {fb : Fin 64 → Int} (h : ∀ i, i ≠ 0 → fb i = 0) (i : Fin 64) :
    Config.idctReal fb i = (fb 0 : ℝ) / 8 := by
  have hrow : ∀ v : Fin 8, v ≠ 0 → ∀ n, Config.idct1 (fun u => (fb (Config.natIndex v u) : ℝ)) n = 0 := by
    intro v hv n
    have hz : ∀ u, fb (Config.natIndex v u) = 0 := fun u => h _ fun he => hv (by
      have h1 : 8 * v.val + u.val = 0 := congrArg Fin.val he
      apply Fin.ext; simp; omega)
    rw [idct1_dc (fun u _ => by rw [hz u]; simp), hz 0]; simp
  unfold Config.idctReal
  rw [idct1_dc (fun v hv => hrow v hv _), idct1_dc fun u hu => by
    rw [h (Config.natIndex 0 u) fun he => hu (by
      have h1 : 8 * (0 : Fin 8).val + u.val = 0 := congrArg Fin.val he
      apply Fin.ext; simp at h1 ⊢; omega)]
    simp]
  have h0 : Config.natIndex 0 0 = 0 := rfl
  rw [h0]
  rw [div_div, mul_mul_mul_comm, Real.mul_self_sqrt (by norm_num)]
  norm_num

/-! ### Rounding (R233) -/

theorem roundReal_close (t : Config.RoundTies) (r : ℝ) : |(Config.roundReal t r : ℝ) - r| ≤ 1 / 2 := by
  have hf := Int.self_sub_floor r
  have h0 := Int.fract_nonneg r
  have h1 := Int.fract_lt_one r
  have key : ∀ z : Int, (z = ⌊r⌋ ∧ Int.fract r ≤ 1 / 2 ∨ z = ⌊r⌋ + 1 ∧ 1 / 2 ≤ Int.fract r) →
      |(z : ℝ) - r| ≤ 1 / 2 := by
    rintro z (⟨rfl, h⟩ | ⟨rfl, h⟩)
    · rw [abs_le]; constructor <;> linarith
    · push_cast; rw [abs_le]; constructor <;> linarith
  apply key
  unfold Config.roundReal
  by_cases h : Int.fract r = 1 / 2
  · rw [if_pos h]
    cases t <;> dsimp only
    · split <;> [right; left] <;> exact ⟨rfl, by rw [h]⟩
    · split <;> [left; right] <;> exact ⟨rfl, by rw [h]⟩
    · right; exact ⟨rfl, by rw [h]⟩
  · rw [if_neg h]
    split
    · left; exact ⟨rfl, by linarith⟩
    · right; exact ⟨rfl, by linarith⟩

/-! ### Samples and channels -/

theorem luma_eq (g : Engine) (y x : Fin 16) : g.sb[lumaBlock y x][lumaIndex y x] = lumaSample g y x := by
  unfold lumaSample
  by_cases hy : y.val < 8 <;> by_cases hx : x.val < 8
  all_goals
    simp only [hy, hx, if_true, if_false, Fin.getElem_fin, lumaBlock, lumaIndex]

/-- A chroma sample, under either chroma order (R251). -/
theorem chroma_eq (sb : Vector (Vector Int 64) 6) (c : Bool) (a b : Fin 6) (i : Fin 64) :
    sb[if c then a else b][i] = if c then sb[a][i] else sb[b][i] := by cases c <;> rfl

theorem pixel_get (rom : Config.Rom) (sb : Vector (Vector Int 64) 6) (d : Nat) (y x : Fin 16) :
    (tileOf rom sb d)[y][x] = pixelAt rom sb d y x := by
  simp [tileOf]

/-- A channel whose intermediates all fit is offset and clamped (R255). -/
theorem channel_toNat {exact : List Int} {v : Int} (d : Nat)
    (h : ∀ z ∈ (v + 128) :: v :: exact, -2 ^ 31 ≤ z ∧ z < 2 ^ 31) :
    ((channel exact v d).toNat : Int) = min (max (v + 128) 0) 255 := by
  unfold channel
  rw [if_pos (List.all_eq_true.2 fun z hz => inS32_iff.2 (h z hz))]
  unfold clamp
  rw [BitVec.toNat_ofInt]
  omega

/-- A channel in words: it depends on its value alone where everything fits. -/
theorem channel_eq {exact : List Int} {v : Int} (d : Nat)
    (h : ∀ z ∈ (v + 128) :: v :: exact, -2 ^ 31 ≤ z ∧ z < 2 ^ 31) :
    channel exact v d = BitVec.ofInt 8 (clamp (v + 128) 0 255) := by
  unfold channel
  rw [if_pos (List.all_eq_true.2 fun z hz => inS32_iff.2 (h z hz))]

end Sys2Proof.Machine
end

