-- ==== Sys2Proof/Tests/Slice0.lean ====
section
/-! SUPPORT. The model's own tests: words written out from the encodings of spec/30_encoding.md, vectors of
spec/95_test_vectors.md in its test configuration (section 2), and, for each statement with hypotheses, a concrete
state and operands that meet them (`test_meets_…`). -/

namespace Sys2Proof.Tests

open Sys2Proof Sys2Proof.Machine

set_option Elab.async false

/-! ### The test configuration (95_test_vectors.md section 2) -/

def tcFast : Config.Table :=
  ⟨0x00020200, List.replicate 7 0x00020200 ++ List.replicate 8 0x0002FE00 ++ List.replicate 4 0x00030001
    ++ List.replicate 4 0x000303FF⟩

def tcLast : Config.Table := ⟨0x00100000, []⟩

def tcRom : Config.Rom where
  fast         := tcFast
  lc           := #v[⟨0x00040401, [0x00040401, 0x00040401, 0x000407FF]⟩, tcLast, tcLast, tcLast, tcLast, tcLast, tcLast]
  lcSel        := #v[0, 1, 2, 3, 4, 5, 6, 6, 6]
  lcNbits      := #v[2, 1, 1, 1, 1, 1, 1]
  lcMask       := #v[3, 1, 1, 1, 1, 1, 1]
  zigzag       := Config.zigzag
  baseQuant    := Vector.replicate 64 16
  aanF         := Config.aanF
  hdrSignFirst := false
  qscalePack   := .magnitude
  kovfResync   := .none
  chromaSwap   := false
  maxWidth     := 20
  maxHeight    := 16
  regBase      := 0x4000
  memMap       := [⟨0x1000, 0x2000⟩]

/-- A running decode of a chunk at 0x1000 into a pixel buffer at 0x2000. -/
def running (bytes : List Byte) (w h : Word) : State :=
  { State.reset with
    rom := tcRom, busy := true, lSrc := 0x1000, lLen := BitVec.ofNat 32 bytes.length, lW := w, lH := h, lDst := 0x2000
    mem := Memory.writeAll [] (bytes.zipIdx.map fun p => (0x1000 + p.2, p.1)) }

/-- The RL words and the bit cursor DEPACK leaves. -/
def rlOf (bytes : List Byte) : Option (List Half × Nat) :=
  match (running bytes 16 16).depack with
  | .ok g => some (g.rl.words, g.br.pos)
  | _ => none

/-- STATUS after a step. -/
def statusAfter (o : Host.Outcome State Fault Refusal) : Option Nat :=
  match o with
  | .next t => some (statusWord t).toNat
  | _ => none

def goes (o : Host.Outcome State Fault Refusal) : Bool := (statusAfter o).isSome

/-- The chunk of program P1. -/
def p1 : List Byte :=
  [0x00, 0x00, 0x00, 0x38, 0x01, 0x00, 0x02, 0x00, 0x00, 0x00, 0x00, 0x02, 0x02, 0x00, 0x00, 0x00, 0x00, 0x02, 0x02,
   0x00, 0x00, 0x00, 0x00, 0x02, 0x02, 0x00]

/-- The header of the source's example alone (V-DP2). -/
def hdr : List Byte := [0x00, 0x00, 0x00, 0x38, 0x01, 0x00, 0x02, 0x00]

/-! ### Decoding: a word written out for each row -/

theorem test_decode_host_rows :
    [decode [0x00, 0x04, 0x04], decode [0x01, 0x04, 0x00, 0x04, 0, 0, 0], decode [0x01, 0x04, 0x00, 0x05, 0, 0, 0],
     decode [0x01, 0x04, 0x00, 0x03, 0, 0, 0], decode [0x01, 0x04, 0x04, 0x06, 0, 0, 0],
     decode [0x01, 0x04, 0x08, 0x00, 0x10, 0, 0], decode [0x01, 0x04, 0x0C, 0x1A, 0, 0, 0],
     decode [0x01, 0x04, 0x10, 0xFF, 0xFF, 0xFF, 0xFF], decode [0x01, 0x04, 0x14, 0x10, 0, 0, 0],
     decode [0x01, 0x04, 0x18, 0x00, 0x20, 0, 0], decode [0x01, 0x04, 0x3C, 0x01, 0, 0, 0x80]] =
    [.ok (.rdReg 0x04) [], .ok (.wrCtrl 4) [], .ok (.ctrlStart 5) [], .ok (.ctrlSoftReset 3) [],
     .ok (.wrStatusW1c 6) [], .ok (.wrSrcAddr 0x1000) [], .ok (.wrSrcLen 26) [], .ok (.wrWidth 0xFFFFFFFF) [],
     .ok (.wrHeight 16) [], .ok (.wrDstAddr 0x2000) [], .ok (.wrReserved 0x3C 0x80000001) []] := by decide

theorem test_decode_engine_rows :
    [decode [0x02, 0x00], decode [0x02, 0x01, 0x08, 0, 0, 0], decode [0x02, 0x02], decode [0x02, 0x03, 0x10, 0, 0, 0],
     decode [0x02, 0x04, 0x10, 0, 0, 0], decode [0x02, 0x05, 0xFF, 0xFF, 0, 0], decode [0x02, 0x06],
     decode [0x02, 0x07], decode [0x02, 0x08], decode [0x02, 0x09], decode [0x02, 0x0A, 0x05, 0, 0, 0],
     decode [0x02, 0x0B], decode [0x02, 0x0C]] =
    [.ok .complete [], .ok (.brNew 8) [], .ok .brReadBit [], .ok (.brReadBits 16) [], .ok (.brPeekBits 16) [],
     .ok (.brSkipBits 65535) [], .ok .brHasMore [], .ok .depack [], .ok .huffDecodeNext [], .ok .decodeBlock [],
     .ok (.idct8x8 5) [], .ok .renderMb [], .ok .decode []] := by decide

/-- `0100…`, `1000…`, `0010…`, …, one window for each class (R95, V-HF1 to V-HF15). -/
theorem test_decode_window_rows :
    [0x4000, 0x8000, 0x2000, 0x1000, 0x0800, 0x0400, 0x0200, 0x0100, 0x0080, 0x0040, 0x0020].map
      (fun w : Half => decode [0x05, BitVec.ofNat 8 w.toNat, BitVec.ofNat 8 (w.toNat / 256)]) =
    [.ok (.vlcFast01 0x4000) [], .ok (.vlcFast1 0x8000) [], .ok (.vlcLcLz2 0x2000) [], .ok (.vlcLcLz3 0x1000) [],
     .ok (.vlcLcLz4 0x0800) [], .ok (.vlcLcLz5 0x0400) [], .ok (.vlcLcLz6 0x0200) [], .ok (.vlcLcLz7 0x0100) [],
     .ok (.vlcLcLz8 0x0080) [], .ok (.vlcLcLz9 0x0040) [], .ok (.vlcLcLz10 0x0020) []] := by decide

/-- `hdr q=8 dc=3` is 0000001000 0 0000000011 0 (R94); `raw 5,7` is 0x1407; entries and RL words of R98 to R105. -/
theorem test_decode_stream_rows :
    [decode [0x03, 0x06, 0x80, 0x00], decode [0x04, 0x07, 0x14], decode [0x06, 0x00, 0xFE, 0x02, 0x00],
     decode [0x06, 0x00, 0x02, 0x02, 0x00], decode [0x06, 0x01, 0x04, 0x04, 0x00], decode [0x07, 0x00, 0x10, 0x00],
     decode [0x07, 0x01, 0x00, 0x38], decode [0x07, 0x02, 0x00, 0xFE], decode [0x07, 0x03, 0x00, 0xFE],
     decode [0x07, 0x03, 0xFF, 0x07]] =
    [.ok (.blkHdr 0x008006) [], .ok (.escRaw 5 7) [], .ok (.entEob 0x0002FE00) [], .ok (.entEsc 0x00020200) [],
     .ok (.entAc 0x00040401) [], .ok .rlCnt [], .ok .rlMagic [], .ok (.rlHdr 63 0x200) [], .ok .rlEob [],
     .ok (.rlAc 1 0x3FF) []] := by decide

theorem test_decode_rejects :
    [decode [], decode [0x00, 0x02, 0x04], decode [0x01, 0x04, 0x06, 0, 0, 0, 0], decode [0x00, 0x04, 0x40],
     decode [0x02, 0x0D], decode [0x02, 0x03, 0x11, 0, 0, 0], decode [0x02, 0x0A, 0x06, 0, 0, 0],
     decode [0x03, 0, 0, 0x40], decode [0x07, 0x04, 0, 0], decode [0x08]] =
    [.reject .truncatedRecord, .reject .accessNotAdmitted, .reject .accessNotAdmitted, .reject .outsideWindow,
     .reject .unknownOperation, .reject .readTooWide, .reject .noSuchBlock, .reject .headerTooWide,
     .reject .unknownPosition, .reject .unknownLayer] := by decide

theorem test_table_words :
    [decodeTableWord 8 0, decodeTableWord 8 1, decodeTableWord 8 2, decodeTableWord 16 0x4000,
     decodeTableWord 16 0x8000, decodeTableWord 16 0x20, decodeTableWord 16 0xFE00, decodeTableWord 24 0x8006,
     decodeTableWord 32 0x200, decodeTableWord 32 0xFE00] =
    [some (.wrCtrl 0), some (.ctrlStart 1), some (.ctrlSoftReset 2), some (.vlcFast01 0x4000),
     some (.vlcFast1 0x8000), some (.vlcLcLz10 0x20), some .rlEob, some (.blkHdr 0x8006), some (.entEsc 0x200),
     some (.entEob 0xFE00)] := by decide

theorem test_first_step_runs :
    [(8, 0), (8, 1), (8, 2), (16, 0x4000), (16, 0x8000), (16, 0x2000), (16, 0), (16, 0xFE00), (32, 0xFE00),
     (32, 0x200)].all (fun p => goes (step (State.reset.withFetchWord p.1 p.2))) = true := by decide

/-! ### Well-formedness: each check refuses an ill-formed term -/

theorem test_wf_refuses :
    ([.rdReg 0x02, .rdReg 0x40, .wrCtrl 1, .wrCtrl 2, .ctrlStart 0, .ctrlStart 3, .ctrlSoftReset 1,
      .wrReserved 0x18 0, .wrReserved 0x40 0, .brNew (2 ^ 32), .brReadBits 17, .brPeekBits 17, .brSkipBits (2 ^ 32),
      .vlcFast01 0x8000, .vlcFast1 0x4000, .vlcLcLz2 0x1000, .vlcLcLz3 0x2000, .vlcLcLz4 0x0400, .vlcLcLz5 0x0800,
      .vlcLcLz6 0x0100, .vlcLcLz7 0x0200, .vlcLcLz8 0x0040, .vlcLcLz9 0x0080, .vlcLcLz10 0x0040,
      .entEob 0x00020200, .entEsc 0x0002FE00, .entAc 0x00020200, .rlAc 63 0x200] : List Instr).all
      (fun i => !i.wf) = true := by decide

/-! ### The BitReader (V-BR1 to V-BR4) -/

def reader (bytes : List Byte) (pos : Nat) : BitReader × (Nat → Byte) :=
  (⟨0, pos, bytes.length / 2⟩, fun i => bytes.getD i 0)

theorem test_reader_vectors :
    (let r := reader [0x34, 0x12, 0x78, 0x56] 4
     let z := reader [0x34, 0x12, 0x78, 0x56] 32
     let b := reader [0x01, 0x80] 0
     let e := reader [0x0B, 0x00] 12
     [r.1.peek r.2 16, z.1.peek z.2 3, b.1.peek b.2 16, e.1.peek e.2 16]) = [0x2345, 0, 0x8001, 0xB000] := by decide

/-! ### The codebook (V-HF1 to V-HF15) -/

theorem test_huffman_vectors :
    ([0x4000, 0x7FFF, 0x8000, 0xBFFF, 0xC000, 0xDFFF, 0xE000, 0xFFFF, 0x2000, 0x3FFF, 0x1000, 0x0100, 0x0040, 0x0020,
      0x0010, 0x0000].map (windowEntry tcRom)) =
    [(0x00020200, .found), (0x00020200, .found), (0x0002FE00, .found), (0x0002FE00, .found), (0x00030001, .found),
     (0x00030001, .found), (0x000303FF, .found), (0x000303FF, .found), (0x00040401, .found), (0x000407FF, .found),
     (0x00100000, .clampedToLast), (0x00100000, .clampedToLast), (0x00100000, .clampedToLast),
     (0x00100000, .clampedToLast), (0x00100000, .found), (0x00100000, .found)] := by decide +kernel

/-! ### The depacker -/

/-- V-DP6: the input ends inside the block. -/
theorem test_depack_padding :
    rlOf (hdr ++ [0x00, 0x02, 0x00, 0x1B]) = some ([0x10, 0x3800, 0x2003, 1, 0] ++ List.replicate 11 0xFE00, 41) := by
  decide +kernel

/-- V-DP7: the capacity ends inside the block. -/
theorem test_depack_capacity :
    rlOf (hdr ++ [0x40, 0x00, 0x6D, 0x03, 0xDB, 0xB6, 0xB6, 0x6D, 0x6D, 0xDB, 0x00, 0xA0]) =
      some ([0x10, 0x3800, 0x400] ++ List.replicate 13 1, 61) := by decide +kernel

/-- V-DP9: an escape takes the last word. -/
theorem test_depack_escape :
    (rlOf (hdr ++ [0x40, 0x00, 0x6D, 0x03, 0xDB, 0xB6, 0x91, 0x6D, 0x78, 0x40])).map Prod.fst =
      some ([0x10, 0x3800, 0x400] ++ List.replicate 12 1 ++ [0x1407]) := by decide +kernel

/-- V-DP10: the scale's sign and its bit 6 are lost. -/
theorem test_depack_header :
    (rlOf (hdr ++ [0xB0, 0x11, 0x00, 0x06])).map Prod.fst =
      some ([0x10, 0x3800, 0x1A00, 0xFE00, 0] ++ List.replicate 11 0xFE00) := by decide +kernel

/-- V-DP12: the odd byte is never read. -/
theorem test_depack_odd_byte :
    (rlOf (hdr ++ [0x00, 0x80, 0xFF])).map Prod.fst = some ([0x10, 0x3800, 0] ++ List.replicate 13 0xFE00) := by
  decide +kernel

/-- The RL words of program P3. -/
theorem test_depack_p3 :
    rlOf [0x0A, 0x00, 0x00, 0x38, 0x01, 0x00, 0x02, 0x00, 0x00, 0x02, 0x40, 0x03, 0x00, 0x00, 0x40, 0x40, 0x1A, 0x04,
      0x0B, 0x10, 0x70, 0x00, 0xE0, 0x0B, 0x2C, 0x05, 0x20, 0x20, 0x1F, 0x00, 0x14, 0x80, 0x06, 0x00] =
    some ([0x0014, 0x3800, 0x2000, 0x0001, 0xFE00, 0x0000, 0xFE00, 0x2004, 0x07FF, 0x0805, 0xFE00, 0x0FFE, 0x03FF,
      0xFE00, 0x0658, 0xFE00, 0x2000, 0xF801, 0x0001, 0xFE00], 208) := by decide +kernel

/-! ### The IQ table and the block decoder -/

/-- Entries of the tables of 43_dequant_block.md R200 and 95_test_vectors.md section 2.1. -/
theorem test_iq_table :
    ([0, 1, 2, 8, 10, 16, 63].map (iq tcRom), [0, 1, 9, 18, 63].map (aanScale tcRom),
      iq { tcRom with baseQuant := Vector.replicate 64 0 } 63) =
    ([64, 89, 84, 89, 116, 84, 5], [16384, 22725, 31520, 27970, 1247], 1) := by decide +kernel

/-- The nonzero coefficients and the cursor after one block at cursor `c`. -/
def blockAt (rom : Config.Rom) (ws : List Half) (c : Nat) : List (Nat × Int) × Nat :=
  let b := (blockRun rom ⟨ws, ws.length, ws.length⟩ 0 { Engine.reset.blk with c := c }).1
  ((b.fb.toList.zipIdx.filter (fun p => p.1 ≠ 0)).map (fun p => (p.2, p.1)), b.c)

/-- R204's example, a floor shift, a zigzag walk, a header equal to 0xFE00, reads past the stream (V-BD). -/
theorem test_block_vectors :
    [blockAt tcRom [0x2003, 1, 0xFE00] 0, blockAt tcRom [0x0400, 0x3FF, 0xFE00] 0,
     blockAt tcRom [0x2000, 0x0801, 0x0C01, 0xFE00] 0, blockAt tcRom [0xFE00, 0xFE00] 0, blockAt tcRom [] 7] =
    [([(0, 192), (1, 89)], 3), ([(1, -12)], 3), ([(10, 116), (16, 84)], 4), ([(0, -32768)], 2),
     ([(0, -32768)], 9)] := by decide +kernel

/-- The `k >= 64` stop under both values of KOVF_RESYNC (R209, R211). -/
theorem test_block_overflow :
    [blockAt tcRom [0x2000, 0xF801, 1, 0x401, 0xFE00] 0,
     blockAt { tcRom with kovfResync := .skipToEob } [0x2000, 0xF801, 1, 0x401, 0xFE00] 0] =
    [([(63, 5)], 3), ([(63, 5)], 5)] := by decide +kernel

/-! ### Colour (V-CC, 45_macroblock_color.md R250) -/

theorem test_colour_vectors :
    ([(0, 0, 0), (8, 16, 0), (8, 16, -8), (0, 0, 100), (-129, 0, 0), (-3392, 89, 0)].map
      fun v : Int × Int × Int =>
        ((blue v.1 v.2.1 0).toNat, (green v.1 v.2.1 v.2.2 0).toNat, (red v.1 v.2.2 0).toNat)) =
    [(128, 128, 128), (164, 131, 136), (164, 137, 124), (128, 57, 255), (0, 0, 0), (0, 0, 0)] := by decide +kernel

/-! ### Placement (P4: slice 1 of a 20 by 8 image) -/

theorem test_slice_addresses :
    ((sliceCells 0x2000 20 8 1 []).map Prod.fst).take 13 =
      [0x2030, 0x2031, 0x2032, 0x2033, 0x2034, 0x2035, 0x2036, 0x2037, 0x2038, 0x2039, 0x203A, 0x203B, 0x206C] := by
  decide +kernel

/-! ### The host protocol (P5) -/

theorem test_status_after_complete :
    [statusAfter (exec .complete (running p1 16 16)), statusAfter (exec .complete (running [0, 0, 0, 0x38] 16 16)),
     statusAfter (exec .complete (running [0, 0, 1, 0x38, 1, 0, 2, 0] 0 16)),
     statusAfter (exec .complete (running p1 16 0xFFFFFFFF))] = [some 0x2, some 0x36, some 0x16, some 0x26] := by
  decide +kernel

theorem test_start_and_acknowledge :
    (statusAfter (exec (.ctrlStart 5) State.reset),
     statusAfter (exec (.wrStatusW1c 6) { State.reset with done := true, err := true, errCode := 3 }),
     statusAfter (exec (.wrStatusW1c 2) { State.reset with done := true, err := true, errCode := 3 })) =
    (some 0x1, some 0x0, some 0x34) := by decide

/-- A write keeps memory canonical: writing 0 removes the entry. -/
theorem test_memory_canonical :
    (Memory.write (Memory.write (Memory.write [] 7 1) 3 2) 7 0, Memory.write [] (2 ^ 32) 1) = ([(3, 2)], []) := by
  decide

/-! ### Witnesses: states and operands that meet the hypotheses of the statements -/

theorem good_chunk_p1 (w h : Word) : (running p1 w h).GoodChunk :=
  ⟨show (running p1 0 0).chunkAdmitted = true by decide +kernel, show 8 ≤ (running p1 0 0).lLen.toNat by decide +kernel,
    show chunkWord (running p1 0 0) 2 = 0x3800 by decide +kernel⟩

/-- The running decode of P1 at the largest image the test configuration takes in height, one column past a slice. -/
def good : State := running p1 17 16

theorem good_decodable : good.Decodable :=
  ⟨⟨by decide +kernel, by decide +kernel, by decide +kernel⟩,
    ⟨by decide +kernel, by decide +kernel, by decide +kernel, by decide +kernel⟩, by decide +kernel⟩

theorem good_unraced : good.Unraced := ⟨rfl, rfl⟩

theorem good_wf : good.mem.wf := by decide +kernel

theorem good_inv : good.Inv :=
  ⟨fun _ => ⟨rfl, rfl⟩, fun _ => rfl, (fun h => nomatch h), fun _ => rfl, (fun h => nomatch h), good_wf⟩

theorem good_completes : ∃ t, exec .complete good = .next t :=
  let ⟨_, hg⟩ := depack_ok good_decodable.chunk
  ⟨_, complete_ok rfl (decode_good good_decodable hg)⟩

theorem good_steps : ∃ t, step good = .next t := by
  obtain ⟨t, ht⟩ := good_completes
  refine ⟨t, ?_⟩
  unfold step
  simp only [show good.inbox = [] from rfl, show good.busy = true from rfl, if_true]
  exact ht

theorem good_depacks : ∃ t, exec .depack good = .next t := by
  obtain ⟨g, hg⟩ := depack_ok good_decodable.chunk
  exact ⟨_, show execDepack good = _ by unfold execDepack; rw [hg]⟩

theorem test_meets_StepRunsDecodedRecord :
    decode [0x00, 0x04, 0x3C] = .ok (.rdReg 0x3C) [] ∧ decode [0x00, 0x04, 0x40] = .reject .outsideWindow ∧
    (∃ s : State, s.inbox = .op [0x00, 0x04, 0x3C] :: []) :=
  ⟨by decide, by decide, { State.reset with inbox := [.op [0x00, 0x04, 0x3C]] }, rfl⟩

theorem test_meets_StepWithNothingPresented :
    State.reset.inbox = [] ∧ State.reset.busy = false ∧ good.inbox = [] ∧ good.busy = true := ⟨rfl, rfl, rfl, rfl⟩

/-- The last offset of the window is admitted at width 4; the one after it and width 2 are not. -/
theorem test_meets_WindowAccessAdmission :
    (∃ s : State, s.inbox = .busAccess true 4 (s.rom.regBase + 0x3C) 1 :: [] ∧ (0x3C : Nat) < 0x40 ∧ 0x3C % 4 = 0) ∧
    ¬ (4 = 4 ∧ 0x3D % 4 = 0) ∧ ¬ (2 = 4 ∧ 0x3C % 4 = 0) :=
  ⟨⟨{ good with inbox := [.busAccess true 4 0x403C 1] }, rfl, by decide, by decide⟩, by decide, by decide⟩

/-- The largest operands the encodings admit. -/
theorem test_meets_DecodeOfEncode :
    ([.brNew (2 ^ 32 - 1), .brReadBits 16, .rdReg 0x3C, .wrReserved 0x3C 0xFFFFFFFF, .vlcLcLz10 0x003F,
      .rlAc 63 0x3FF] : List Instr).all Instr.wf = true := by decide

theorem test_meets_DecodedIsWellFormed : decode [0x00, 0x04, 0x04, 0x09] = .ok (.rdReg 0x04) [0x09] := by decide

/-- Each clause at both ends of its range: 0xFFFF, 0x8000; 0x7FFF, 0x4000; 0x3FFF, 0x2000 (j = 0); 0x007F, 0x0040
(j = 7); 0x003F, 0x0000 (j = 8). -/
theorem test_meets_EveryWindowHasOneClass :
    0x8000 ≤ (0x8000 : Half).toNat ∧ 0x8000 ≤ (0xFFFF : Half).toNat ∧ (0x7FFF : Half).toNat < 0x8000 ∧
    0x4000 ≤ (0x4000 : Half).toNat ∧ 2 ^ (15 - 2) ≤ (0x2000 : Half).toNat ∧ (0x3FFF : Half).toNat < 2 ^ (16 - 2) ∧
    2 ^ (15 - 9) ≤ (0x0040 : Half).toNat ∧ (0x007F : Half).toNat < 2 ^ (16 - 9) ∧ (0x003F : Half).toNat < 2 ^ 6 ∧
    (Instr.vlcFast1 0x8000).wf = true ∧ encode (.vlcFast1 0x8000) = windowRecord 0x8000 := by decide

theorem test_meets_ResetFromAnyState :
    (0x2 : Word).getLsbD 1 = true ∧ good.busy = true ∧ State.reset.busy = false ∧ registerOffset 0x3C = true ∧
    (∃ s : State, s.inbox = .powerOnReset :: []) :=
  ⟨by decide, rfl, rfl, by decide, { good with inbox := [.powerOnReset] }, rfl⟩

/-- A decode that would succeed, one that would fail (too short a chunk), and that one with its chunk raced; the first
and the last byte of the pixel range, and the first past it. -/
theorem test_meets_ResetDuringDecode :
    let a := running [] 16 16
    let b : State := { a with chunkRaced := true }
    (good.busy = true ∧ good.mem.wf ∧ (∃ t, exec (.ctrlSoftReset 2) good = .next t) ∧ (∀ e, good.decode ≠ .raise e) ∧
      good.inPixels 0x2000 = true ∧ good.inPixels 0x232F = true ∧ good.inPixels 0x2330 = false ∧
      admits good.rom 0x232F = true) ∧
    (a.busy = true ∧ a.mem.wf ∧ a.Unraced ∧ ∃ e, a.decode = .raise e) ∧
    b.busy = true ∧ b.mem.wf ∧ b.chunkRaced = true ∧ (∃ e, b.decode = .raise e) ∧
      b.inPixels 0x22FF = true ∧ admits b.rom 0x22FF = true := by
  refine ⟨⟨rfl, good_wf, ⟨_, rfl⟩, fun e h => ?_, by decide +kernel, by decide +kernel, by decide +kernel,
    by decide +kernel⟩, ⟨rfl, by decide +kernel, ⟨rfl, rfl⟩, .truncatedStream, by decide +kernel⟩, rfl,
    by decide +kernel, rfl, ⟨.truncatedStream, by decide +kernel⟩, by decide +kernel, by decide +kernel⟩
  obtain ⟨g, hg⟩ := depack_ok good_decodable.chunk
  rw [decode_good good_decodable hg] at h
  cases h

theorem test_meets_RegisterRead :
    registerOffset 0x00 = true ∧ registerOffset 0x3C = true ∧ good.Inv ∧ good.busy = true :=
  ⟨by decide, by decide, good_inv, rfl⟩

theorem test_meets_WriteCtrl :
    ((0x4 : Word).getLsbD 0, (0x4 : Word).getLsbD 1) = (false, false) ∧
    ((0x5 : Word).getLsbD 0, (0x5 : Word).getLsbD 1) = (true, false) ∧ (0x7 : Word).getLsbD 1 = true := by decide

theorem test_meets_StartDecode :
    (0x5 : Word).getLsbD 0 = true ∧ (0x5 : Word).getLsbD 1 = false ∧ good.busy = true ∧ State.reset.busy = false :=
  ⟨by decide, by decide, rfl, rfl⟩

theorem test_meets_AcknowledgeStatus : (0x2 : Word).getLsbD 1 = true ∧ good.Inv ∧ good.busy = true :=
  ⟨by decide, good_inv, rfl⟩

theorem test_meets_ReservedOffsetsAndBits :
    ([0x1C, 0x3C] : List Byte).all (fun o => decide (o.toNat % 4 = 0 ∧ 0x1C ≤ o.toNat ∧ o.toNat ≤ 0x3C)) = true := by
  decide

theorem test_meets_InterruptLine :
    good.busy = true ∧ (∃ t, exec .complete good = .next t) ∧ (0x2 : Word).getLsbD 1 = true ∧
    (0x1 : Word).getLsbD 0 = true ∧ (0x1 : Word).getLsbD 1 = false ∧ State.reset.busy = false :=
  ⟨rfl, good_completes, by decide, by decide, by decide, rfl⟩

theorem test_meets_CompleteReportsSuccess : good.busy = true ∧ good.Decodable ∧ good.Unraced ∧ good.Inv :=
  ⟨rfl, good_decodable, good_unraced, good_inv⟩

/-- Each error at its boundary: 7 bytes, a magic one off, a width of 0 and a height of -1. -/
theorem test_meets_CompleteReportsError :
    let a := running (hdr.take 7) 16 16
    let b := running [0, 0, 1, 0x38, 1, 0, 2, 0] 0 16
    let c := running p1 0 16
    let d := running p1 16 0xFFFFFFFF
    (a.chunkAdmitted = true ∧ a.Unraced ∧ a.lLen.toNat < 8) ∧
    (b.chunkAdmitted = true ∧ b.Unraced ∧ 8 ≤ b.lLen.toNat ∧ chunkWord b 2 ≠ 0x3800) ∧
    (c.GoodChunk ∧ c.Unraced ∧ c.lW.toInt ≤ 0) ∧ d.GoodChunk ∧ d.Unraced ∧ d.lH.toInt ≤ 0 :=
  ⟨⟨by decide +kernel, ⟨rfl, rfl⟩, by decide +kernel⟩,
    ⟨by decide +kernel, ⟨rfl, rfl⟩, by decide +kernel, by decide +kernel⟩,
    ⟨good_chunk_p1 _ _, ⟨rfl, rfl⟩, by decide +kernel⟩, good_chunk_p1 _ _, ⟨rfl, rfl⟩, by decide +kernel⟩

/-- A chunk one byte past the admitted range; one that ends one byte past 2^32; a pixel range one byte past the
admitted range; one that ends past 2^32. -/
theorem test_meets_CompleteStuck :
    let a : State := { good with lSrc := 0x2FFF, lLen := 2 }
    let b : State := { good with lSrc := 0xFFFFFFFF, lLen := 2 }
    let c : State := { good with lDst := 0x2FFF }
    let d : State := { good with lDst := 0xFFFFFFFF }
    (1 < a.lLen.toNat ∧ admits a.rom (a.lSrc.toNat + 1) = false) ∧
    (0 < b.lLen.toNat ∧ 2 ^ 32 < b.lSrc.toNat + b.lLen.toNat) ∧
    (c.GoodChunk ∧ c.GoodSize ∧ 1 < 3 * c.lW.toNat * c.lH.toNat ∧ admits c.rom (c.lDst.toNat + 1) = false) ∧
    d.GoodChunk ∧ d.GoodSize ∧ 2 ^ 32 < d.lDst.toNat + 3 * d.lW.toNat * d.lH.toNat :=
  ⟨⟨by decide +kernel, by decide +kernel⟩, ⟨by decide +kernel, by decide +kernel⟩,
    ⟨⟨good_decodable.chunk.1, good_decodable.chunk.2, good_decodable.chunk.3⟩,
      ⟨good_decodable.size.1, good_decodable.size.2, good_decodable.size.3, good_decodable.size.4⟩,
      by decide +kernel, by decide +kernel⟩,
    ⟨good_decodable.chunk.1, good_decodable.chunk.2, good_decodable.chunk.3⟩,
    ⟨good_decodable.size.1, good_decodable.size.2, good_decodable.size.3, good_decodable.size.4⟩, by decide +kernel⟩

/-- One column and one row past the limits. -/
theorem test_meets_DimensionsAboveLimitRefused :
    let a := running p1 21 16
    let b := running p1 16 17
    (a.GoodChunk ∧ 0 < a.lW.toInt ∧ 0 < a.lH.toInt ∧ (a.rom.maxWidth : Int) < a.lW.toInt ∧ a.busy = true) ∧
    b.GoodChunk ∧ 0 < b.lW.toInt ∧ 0 < b.lH.toInt ∧ (b.rom.maxHeight : Int) < b.lH.toInt :=
  ⟨⟨good_chunk_p1 _ _, by decide +kernel, by decide +kernel, by decide +kernel, rfl⟩, good_chunk_p1 _ _,
    by decide +kernel, by decide +kernel, by decide +kernel⟩

theorem completes_of {s : State} (hb : s.busy = true) (hd : s.Decodable) : ∃ t, exec .complete s = .next t :=
  let ⟨_, hg⟩ := depack_ok hd.chunk
  ⟨_, complete_ok hb (decode_good hd hg)⟩

/-- The first and the last byte of the pixel range, and the last chunk byte; a register read while both notes stand. -/
theorem test_meets_HostRacesWithDecode :
    let a : State := { good with chunkRaced := true }
    let b : State := { good with pixRaced := [0x2000] }
    let c : State := { good with chunkRaced := true, pixRaced := [0x2000], inbox := [.op [0x00, 0x04, 0x04]] }
    (c.busy = true ∧ c.mem.wf ∧ c.chunkRaced = true ∧ 0x2000 ∈ c.pixRaced ∧ ∃ t, step c = .next t) ∧
    (good.busy = true ∧ good.mem.wf ∧ good.inPixels 0x2000 = true ∧ good.inPixels 0x232F = true ∧
      good.inPixels 0x2330 = false ∧ admits good.rom 0x232F = true ∧ good.inChunk 0x1019 = true) ∧
    (a.busy = true ∧ a.mem.wf ∧ a.chunkRaced = true ∧ ∃ t, exec .complete a = .next t) ∧
    b.busy = true ∧ b.mem.wf ∧ 0x2000 ∈ b.pixRaced ∧ b.inPixels 0x2000 = true ∧ ∃ t, exec .complete b = .next t :=
  ⟨⟨rfl, good_wf, rfl, by decide, _, rfl⟩,
    ⟨rfl, good_wf, by decide +kernel, by decide +kernel, by decide +kernel, by decide +kernel, by decide +kernel⟩,
    ⟨rfl, good_wf, rfl, completes_of rfl ⟨⟨good_decodable.1.1, good_decodable.1.2, good_decodable.1.3⟩,
      ⟨good_decodable.2.1, good_decodable.2.2, good_decodable.2.3, good_decodable.2.4⟩, good_decodable.3⟩⟩,
    rfl, good_wf, by decide, by decide +kernel, completes_of rfl
      ⟨⟨good_decodable.1.1, good_decodable.1.2, good_decodable.1.3⟩,
        ⟨good_decodable.2.1, good_decodable.2.2, good_decodable.2.3, good_decodable.2.4⟩, good_decodable.3⟩⟩

/-- After a success over an older unseen range, and after an error beside and inside one. -/
theorem test_meets_PixelsVisibleAfterDone :
    let s : State := { good with busy := false, done := true, unseen := .written, unseenOld := [⟨⟨0x2000, 1⟩, true⟩] }
    let f : State := { s with unseen := .failed }
    (s.busy = false ∧ s.done = true ∧ s.unseen ≠ .nothing ∧ (∃ t, exec (.rdReg 0x04) s = .next t) ∧
      s.inPixels 0x232F = true ∧ admits s.rom 0x232F = true ∧ s.unseen = .written) ∧
    f.busy = false ∧ f.done = true ∧ f.unseen ≠ .nothing ∧ (∃ t, exec (.rdReg 0x04) f = .next t) ∧
      f.unseen = .failed ∧ f.inPixels 0x2000 = true ∧ f.inPixels 0x2001 = true ∧ admits f.rom 0x2000 = true ∧
      admits f.rom 0x2001 = true ∧ f.inUnseenOld 0x2000 = true ∧ f.inUnseenOld 0x2001 = false ∧
      ∀ r ∈ f.unseenOld, r.wrote = true → r.covers 0x2001 = false :=
  ⟨⟨rfl, rfl, by decide, ⟨_, rfl⟩, by decide +kernel, by decide +kernel, rfl⟩, rfl, rfl, by decide, ⟨_, rfl⟩, rfl,
    by decide +kernel, by decide +kernel, by decide +kernel, by decide +kernel, by decide, by decide, by decide⟩

/-- R71 (3): seeing the end of a success guarantees an older unseen byte that it wrote, seeing an error does not. -/
theorem test_error_seen_keeps_older_unseen :
    let s : State := { good with busy := false, done := true, unseen := .written, unseenOld := [⟨⟨0x2000, 1⟩, true⟩] }
    (s.seeDone 0x04).unreliable 0x2000 = false ∧
      (State.seeDone { s with unseen := .failed } 0x04).unreliable 0x2000 = true := by decide +kernel

/-- R71 (2): a host write after an unseen error stands, also once the next decode has started; after an unseen success it
may be lost. -/
theorem test_write_after_error_stands :
    let f : State := { good with busy := false, done := true, unseen := .failed }
    f.unordered 0x2000 = false ∧ f.startDecode.unordered 0x2000 = false ∧
      State.unordered { f with unseen := .written } 0x2000 = true ∧
      (State.startDecode { f with unseen := .written }).unordered 0x2000 = true := by decide +kernel

/-- The first address there is not, an address outside the platform's memory, a chunk byte while BUSY, and a byte of a failed decode's range
that the host writes. -/
theorem test_meets_HostMemoryAccess :
    let f : State := { good with busy := false, unseen := .failed, unseenOld := [⟨⟨0x2000, 1⟩, false⟩] }
    (2 : Nat) ^ 32 ≤ 2 ^ 32 ∧ (2 : Nat) ^ 32 - 1 < 2 ^ 32 ∧ admits good.rom (2 ^ 32 - 1) = false ∧
    (admits good.rom 0x1000 = true ∧ good.busy = true ∧ good.inPixels 0x1000 = false ∧ good.unseenOld = [] ∧
      good.mem.wf) ∧
    (admits f.rom 0x2000 = true ∧ f.busy = false ∧ f.unseen ≠ .written ∧ f.mem.wf ∧
      ∀ r ∈ f.unseenOld, r.wrote = true → r.covers 0x2000 = false) ∧
    (∃ s : State, s.inbox = .memRead 0x1000 :: []) ∧ ∃ s : State, s.inbox = .memWrite 0x1000 5 :: [] :=
  ⟨by decide, by decide, by decide +kernel, ⟨by decide +kernel, rfl, by decide +kernel, rfl, good_wf⟩,
    ⟨by decide +kernel, rfl, by decide, good_wf, by decide⟩,
    ⟨{ good with inbox := [.memRead 0x1000] }, rfl⟩, { good with inbox := [.memWrite 0x1000 5] }, rfl⟩

theorem test_meets_ReaderReadsAndPeeks : 16 < 17 ∧ good.chunkAdmitted = true ∧ 16 ≤ 16 ∧ 0 ≤ 16 :=
  ⟨by decide, good_decodable.chunk.chunk_admitted, by decide, by decide⟩

theorem test_meets_LookupByWindowClass :
    4 ≤ (0x4000 : Half).toNat / 2 ^ 12 ∧ 4 ≤ (0xFFFF : Half).toNat / 2 ^ 12 := by decide

theorem test_meets_HuffDecodeNextRunsItsWindow : good.chunkAdmitted = true := good_decodable.chunk.chunk_admitted

/-- An engine with capacity and input left, at the start of the bitstream of P1. -/
def goingEngine : Engine := depackStart 0 26 Engine.reset

/-- The fields of V-DP6 in both orders, at the largest scale magnitude. -/
theorem test_meets_BlockHeaderPacking :
    let s := good.setEng goingEngine
    let s' : State := { s with rom := { s.rom with hdrSignFirst := true } }
    s.depackGoes ∧ s'.depackGoes ∧ s.rom.hdrSignFirst = false ∧ s'.rom.hdrSignFirst = true ∧
    (0x3FF807 : BitVec 22).toNat = 1023 * 2 ^ 12 + true.toNat * 2 ^ 11 + 3 * 2 + true.toNat ∧
    (0x3FFC03 : BitVec 22).toNat = true.toNat * 2 ^ 21 + 1023 * 2 ^ 11 + true.toNat * 2 ^ 10 + 3 ∧
    1023 < 2 ^ 10 ∧ 3 < 2 ^ 10 :=
  ⟨⟨by decide +kernel, by decide +kernel⟩, ⟨by decide +kernel, by decide +kernel⟩, rfl, rfl, by decide, by decide,
    by decide, by decide⟩

/-- One word of capacity left. -/
theorem test_meets_EntryEffects :
    let g : Engine := { goingEngine with rl := { goingEngine.rl with o := 15 } }
    (good.setEng g).eng.rl.o < (good.setEng g).eng.rl.cap ∧ (good.setEng g).chunkAdmitted = true :=
  ⟨by decide +kernel, good_decodable.chunk.chunk_admitted⟩

/-- No capacity; capacity but no input. -/
theorem test_meets_ExhaustionStopsElements :
    let a := good.setEng { goingEngine with rl := { goingEngine.rl with o := 16 } }
    let b := good.setEng { goingEngine with br := { goingEngine.br with pos := 144 } }
    a.eng.rl.cap ≤ a.eng.rl.o ∧ ¬ a.depackGoes ∧ ¬ b.depackGoes :=
  ⟨by decide +kernel, fun h => absurd h.1 (by decide +kernel), fun h => absurd h.2 (by decide +kernel)⟩

theorem test_meets_CountAndMagicWords : 2 ≤ (⟨[], 2, 0⟩ : RlStream).cap := by decide

theorem test_meets_DepackErrors :
    let a := running (hdr.take 7) 16 16
    let b := running [0, 0, 1, 0x38, 1, 0, 2, 0] 16 16
    (a.chunkAdmitted = true ∧ a.lLen.toNat < 8) ∧ b.chunkAdmitted = true ∧ 8 ≤ b.lLen.toNat ∧
    chunkWord b 2 ≠ 0x3800 :=
  ⟨⟨by decide +kernel, by decide +kernel⟩, by decide +kernel, by decide +kernel, by decide +kernel⟩

theorem test_meets_DepackIsItsElements : good.GoodChunk := good_decodable.chunk

theorem test_meets_DepackedStreamShape : (running hdr 16 16).GoodChunk :=
  ⟨by decide +kernel, by decide +kernel, by decide +kernel⟩

theorem test_meets_IqTableValues :
    ((tcRom.aanF[0] * tcRom.aanF[1] : Nat) : Int) + 8192 < 2 ^ 31 ∧
    tcRom.baseQuant[(1 : Fin 64)] * aanScale tcRom 1 + 2048 < 2 ^ 31 := by decide +kernel

/-- The two ends of the DC's range. -/
theorem test_meets_HeaderAndEobWordEffects :
    -2 ^ 31 ≤ iq tcRom 0 * (0x200 : BitVec 10).toInt ∧ iq tcRom 0 * (0x1FF : BitVec 10).toInt < 2 ^ 31 := by
  decide +kernel

/-- The last position of a block, 63, at the largest product. -/
theorem test_meets_AcWordEffect :
    let s := good.setEng { goingEngine with blk := { goingEngine.blk with qs := 63, inside := true } }
    s.eng.blk.k + (62 : BitVec 6).toNat + 1 = 63 ∧ iq tcRom 63 * s.eng.blk.qs.toNat < 2 ^ 31 ∧
    -2 ^ 31 ≤ iq tcRom 63 * s.eng.blk.qs.toNat * (0x200 : BitVec 10).toInt := by decide +kernel

/-- The first position past a block, 64, under both values of KOVF_RESYNC. -/
theorem test_meets_PositionOverflowStops :
    (good.setEng goingEngine).eng.blk.k + (63 : BitVec 6).toNat + 1 = 64 ∧ tcRom.kovfResync = .none ∧
    { tcRom with kovfResync := .skipToEob }.kovfResync = .skipToEob := by decide +kernel

theorem test_meets_BlockReadsBounded : ∃ t, exec .decodeBlock good = .next t := ⟨_, rfl⟩

theorem test_meets_AcWordsKeepDc :
    tcRom.wf = true ∧ (∃ t, exec .decodeBlock good = .next t) ∧
    -2 ^ 31 ≤ iq tcRom 0 * (BitVec.ofNat 10 (0xFE00 : Half).toNat).toInt ∧
    iq tcRom 0 * (BitVec.ofNat 10 (0xFE00 : Half).toNat).toInt < 2 ^ 31 :=
  ⟨by decide +kernel, ⟨_, rfl⟩, by decide +kernel, by decide +kernel⟩

theorem test_meets_BlockPastStreamEnd : good.eng.rl.cap ≤ good.eng.blk.c ∧ iq good.rom 0 * 512 ≤ 2 ^ 31 := by
  decide +kernel

theorem test_meets_TransformWithinTolerance (i : Fin 64) :
    |Config.idctReal (fun j => good.eng.blk.fb[j]) i| ≤ 2 ^ 31 - 1 := by
  have h : ∀ j : Fin 64, good.eng.blk.fb[j] = 0 := by decide +kernel
  rw [idctReal_dc (fun j _ => h j) i, h 0]
  norm_num

theorem test_meets_DcOnlyBlockWithinOneOfDc :
    (∀ i : Fin 64, i ≠ 0 → good.eng.blk.fb[i] = 0) ∧ -2 ^ 31 ≤ good.eng.blk.fb[0] ∧ good.eng.blk.fb[0] < 2 ^ 31 ∧
    (8 : Int) ∣ good.eng.blk.fb[0] := by decide +kernel

theorem test_meets_RenderedPixels :
    ([1436 * 0, lumaSample good.eng 0 0 + floorShift 0 10, lumaSample good.eng 0 0 + 128] : List Int).all
      (fun z => decide (-2 ^ 31 ≤ z ∧ z < 2 ^ 31)) = true := by decide +kernel

theorem test_meets_ZeroChromaIsGrey :
    (∀ i : Fin 64, good.eng.sb[(0 : Fin 6)][i] = 0 ∧ good.eng.sb[(1 : Fin 6)][i] = 0) ∧
    lumaSample good.eng 15 15 = 0 ∧ ∀ (q : Fin 6) (j : Fin 64), good.eng.sb[q][j] = 0 := by decide +kernel

theorem test_meets_DecodeOperation :
    good.Decodable ∧ good.mem.wf ∧ 16 < good.lW.toNat ∧ 15 < good.lH.toNat ∧ (running p1 0 16).GoodChunk ∧
    (running p1 0 16).lW.toInt ≤ 0 :=
  ⟨good_decodable, good_wf, by decide +kernel, by decide +kernel, good_chunk_p1 _ _, by decide +kernel⟩

/-- R377: after an error, too, the host cannot rely on the pixel range before it has read DONE = 1. -/
theorem test_error_leaves_range_unseen :
    ∃ t, exec .complete (running [] 16 16) = .next t ∧ t.err = true ∧ t.unreliable 0x2000 = true :=
  ⟨_, complete_raise rfl (show _ = PipeOut.raise .truncatedStream by decide +kernel), rfl, rfl⟩

/-- The last pixel of the image, in its second slice. -/
theorem test_meets_FramePixelPlacement :
    good.busy = true ∧ good.Decodable ∧ good.Unraced ∧ good.mem.wf ∧ (∃ t, exec .complete good = .next t) ∧
    (∃ d, exec .depack good = .next d) ∧ 16 < good.lW.toNat ∧ 15 < good.lH.toNat :=
  ⟨rfl, good_decodable, good_unraced, good_wf, good_completes, good_depacks, by decide +kernel, by decide +kernel⟩

/-- Two different states with one chunk: another pixel buffer and other registers. -/
theorem test_meets_DecodeIsDeterministic :
    let s : State := { good with lDst := 0x2400, srcAddr := 5 }
    s ≠ good ∧ good.Decodable ∧ s.Decodable ∧ s.Unraced ∧ s.mem.wf ∧ good.rom = s.rom ∧ good.lLen = s.lLen ∧
    good.lW = s.lW ∧ good.lH = s.lH ∧ good.eng.draws = s.eng.draws ∧ (∀ i, chunkByte good i = chunkByte s i) ∧
    (∃ t, exec .complete good = .next t) ∧ ∃ t, exec .complete s = .next t := by
  intro s
  have hd : s.Decodable := ⟨⟨good_decodable.1.1, good_decodable.1.2, good_decodable.1.3⟩,
    ⟨good_decodable.2.1, good_decodable.2.2, good_decodable.2.3, good_decodable.2.4⟩, by decide +kernel⟩
  obtain ⟨g, hg⟩ := depack_ok hd.chunk
  exact ⟨fun h => absurd (congrArg State.srcAddr h) (by decide +kernel), good_decodable, hd, ⟨rfl, rfl⟩, good_wf, rfl,
    rfl, rfl, rfl, rfl, fun _ => rfl, good_completes, _, complete_ok rfl (decode_good hd hg)⟩

theorem test_meets_StepKeepsInvariant : good.Inv ∧ ∃ t, step good = .next t :=
  ⟨good_inv, good_steps⟩

theorem test_meets_InternalOperationsFrame : isInternal .renderMb = true ∧ ∃ t, exec .renderMb good = .next t :=
  ⟨rfl, _, rfl⟩

theorem test_meets_ConstantTablesNeverChange :
    (∃ t, exec (.ctrlSoftReset 2) good = .next t) ∧ ∃ t, step good = .next t := ⟨⟨_, rfl⟩, good_steps⟩

/-- DONE and ERR rise, BUSY rises, the latches change. -/
theorem test_meets_OnlyStartAndCompleteReport :
    (∃ t, exec .complete (running [] 16 16) = .next t ∧ t.done = true ∧ t.err = true) ∧
    (∃ t, exec (.ctrlStart 1) { State.reset with width := 5 } = .next t ∧ t.busy = true ∧ t.lW ≠ 0) ∧
    ∃ t, exec (.ctrlSoftReset 2) good = .next t ∧ t.lW ≠ good.lW :=
  ⟨⟨_, complete_raise rfl (show _ = PipeOut.raise .truncatedStream by decide +kernel), rfl, rfl⟩,
    ⟨_, rfl, rfl, by decide⟩, _, rfl, by decide +kernel⟩

end Sys2Proof.Tests
end

section
/-! SUPPORT. The host-visible state (10_state.md): the invariant every step keeps, what the registers and
the interrupt line show, and which fields COMPLETE and the operations of the pipeline leave alone. -/

namespace Sys2Proof.Machine

/-! ### The end of a decode and the reset, field by field -/

section Fields
variable (s : State) (g : Engine) (m : Memory)

@[simp] theorem endDecode_irqEn : (s.endDecode g m).irqEn = s.irqEn := by rw [endDecode_eq]
@[simp] theorem endDecode_done : (s.endDecode g m).done = s.done := by rw [endDecode_eq]
@[simp] theorem endDecode_err : (s.endDecode g m).err = s.err := by rw [endDecode_eq]
@[simp] theorem endDecode_errCode : (s.endDecode g m).errCode = s.errCode := by rw [endDecode_eq]
@[simp] theorem endDecode_lSrc : (s.endDecode g m).lSrc = s.lSrc := by rw [endDecode_eq]
@[simp] theorem endDecode_lLen : (s.endDecode g m).lLen = s.lLen := by rw [endDecode_eq]
@[simp] theorem endDecode_lW : (s.endDecode g m).lW = s.lW := by rw [endDecode_eq]
@[simp] theorem endDecode_lH : (s.endDecode g m).lH = s.lH := by rw [endDecode_eq]
@[simp] theorem endDecode_lDst : (s.endDecode g m).lDst = s.lDst := by rw [endDecode_eq]
@[simp] theorem endDecode_chunkRaced : (s.endDecode g m).chunkRaced = false := by rw [endDecode_eq]
@[simp] theorem endDecode_pixRaced : (s.endDecode g m).pixRaced = [] := by rw [endDecode_eq]

@[simp] theorem resetAll_busy : s.resetAll.busy = false := rfl
@[simp] theorem resetAll_done : s.resetAll.done = false := rfl
@[simp] theorem resetAll_err : s.resetAll.err = false := rfl

end Fields

/-! ### The invariant (R23, R330, R78) -/

/-- A state with no decode running and no error code set meets the invariant when its races are over. -/
theorem inv_of_idle_noError {s : State} (hb : s.busy = false) (he : s.err = false) (hc : s.errCode = 0)
    (hr : s.chunkRaced = false ∧ s.pixRaced = []) (hm : s.mem.wf) : s.Inv where
  busy_clears h := by simp [hb] at h
  code_clear _ := hc
  code_known h := by simp [he] at h
  seen_busy h := by simp [hb] at h
  race_busy _ := hr
  memory := hm

theorem resetAll_inv {s : State} (h : s.Inv) : s.resetAll.Inv :=
  inv_of_idle_noError rfl rfl rfl ⟨rfl, rfl⟩ (abandon_wf h.memory)

theorem startDecode_inv {s : State} (h : s.Inv) : s.startDecode.Inv where
  busy_clears _ := ⟨rfl, rfl⟩
  code_clear _ := rfl
  code_known hf := by simp at hf
  seen_busy _ := rfl
  race_busy _ := ⟨rfl, rfl⟩
  memory := h.memory

/-- While BUSY there is nothing to clear, and ERRCODE goes with ERR (R306). -/
theorem acknowledge_inv {s : State} (h : s.Inv) (cd ce : Bool) : (s.acknowledge cd ce).Inv where
  busy_clears hb := by
    obtain ⟨hd, he⟩ := h.busy_clears hb
    simp [hd, he]
  code_clear he := by
    cases ce with
    | true => rfl
    | false => exact h.code_clear (by simpa using he)
  code_known he := by
    obtain ⟨he, hce⟩ : s.err = true ∧ ce = false := by simpa using he
    simpa [hce] using h.code_known he
  seen_busy hb := h.seen_busy hb
  race_busy hb := h.race_busy hb
  memory := h.memory

theorem seeDone_inv {s : State} (h : s.Inv) (off : Byte) : (s.seeDone off).Inv where
  busy_clears hb := by simpa using h.busy_clears (by simpa using hb)
  code_clear he := by simpa using h.code_clear (by simpa using he)
  code_known he := by simpa using h.code_known (by simpa using he)
  seen_busy hb := by simp [h.seen_busy (by simpa using hb)]
  race_busy hb := by simpa using h.race_busy (by simpa using hb)
  memory := by simpa using h.memory

/-- A race is noted while BUSY only. -/
theorem noteRace_inv {s : State} (h : s.Inv) (a : Nat) : (s.noteRace a).Inv :=
  { h with
    race_busy := fun hb => by
      have hb : s.busy = false := hb
      simpa [hb] using h.race_busy hb }

theorem scribble_inv {s : State} (h : s.Inv) (l : List Nat) : (s.scribble l).Inv :=
  { h with memory := scribble_wf h.memory l }

theorem reportSuccess_inv {s : State} (h : s.Inv) (g : Engine) {m : Memory} (hm : m.wf) :
    (s.endDecode g m).reportSuccess.Inv where
  busy_clears hb := by simp at hb
  code_clear he := by simpa using h.code_clear (by simpa using he)
  code_known he := by simpa using h.code_known (by simpa using he)
  seen_busy hb := by simp at hb
  race_busy _ := by simp
  memory := endDecode_wf s g hm

theorem reportError_inv {s : State} (g : Engine) {m : Memory} (hm : m.wf) (x : CodecError) :
    ((s.endDecode g m).reportError x).Inv where
  busy_clears hb := by simp at hb
  code_clear he := by simp at he
  code_known _ := ⟨x, rfl⟩
  seen_busy hb := by simp at hb
  race_busy _ := by simp
  memory := endDecode_wf s g hm

/-- Every instruction keeps the invariant. -/
theorem effect_inv {s t : State} {i : Instr} (e : Effect s i t) (h : s.Inv) : t.Inv := by
  cases e with
  | read off _ => exact { seeDone_inv h off with }
  | start d _ => exact startDecode_inv (s := s.setIrqEn d) { h with }
  | softReset _ => exact resetAll_inv h
  | status d => exact acknowledge_inv h _ _
  | success p _ hd => exact reportSuccess_inv h p.1 ((decode_mem hd).1 h.memory)
  | error x _ _ => exact reportError_inv s.eng h.memory x
  | decoded p hd => exact { h with memory := (decode_mem hd).1 h.memory }
  | reserved _ _ _ | idle _ => exact h
  | buffers _ _ | ctrl _ | startBusy _ _ | decodeError _ _ => exact { h with }
  | srcAddr _ | srcLen _ | width _ | height _ | dstAddr _ => exact { h with }

/-- A host access to memory keeps the invariant. -/
theorem memoryEffect_inv {s t : State} (e : MemoryEffect s t) (h : s.Inv) : t.Inv := by
  cases e with
  | readFree _ | read _ => exact { h with }
  | writeFree a => exact scribble_inv (noteRace_inv h a) _
  | write a v => exact { noteRace_inv h a with memory := Memory.write_wf h.memory a v }

/-- Settles O57, by the inversion of `step`: taking an event off the inbox keeps the invariant, and so does each thing a
step can do. -/
theorem stepKeepsInvariant : Obligations.StepKeepsInvariant := by
  intro s t h hs
  have taken (rest : List Event) : ({ s with inbox := rest } : State).Inv := { h with }
  rcases step_cases hs with ⟨_, rest, e⟩ | ⟨rest, e⟩ | ⟨rest, rfl⟩ | e | rfl
  · exact effect_inv e (taken rest)
  · exact memoryEffect_inv e (taken rest)
  · exact resetAll_inv (taken rest)
  · exact effect_inv e h
  · exact h

/-- Settles O56: after reset no decode runs, no error stands and memory is empty. -/
theorem resetKeepsInvariant : Obligations.ResetKeepsInvariant :=
  inv_of_idle_noError rfl rfl rfl ⟨rfl, rfl⟩ Memory.wf_nil

/-! ### Reserved offsets and bits (R29) -/

theorem reservedOffset_of_range {off : Byte} (h4 : off.toNat % 4 = 0) (hlo : 0x1C ≤ off.toNat)
    (hhi : off.toNat ≤ 0x3C) : reservedOffset off = true := by
  unfold reservedOffset registerOffset
  simp only [Bool.and_eq_true, decide_eq_true_eq]
  omega

theorem registerOffset_of_reservedOffset {off : Byte} (h : reservedOffset off = true) : registerOffset off = true := by
  unfold reservedOffset at h
  exact (Bool.and_eq_true_iff.1 h).1

theorem readReg_reserved (s : State) {off : Byte} (h : reservedOffset off = true) : s.readReg off = 0 := by
  have hlo : 0x1C ≤ off.toNat := by
    unfold reservedOffset at h
    simpa using (Bool.and_eq_true_iff.1 h).2
  have ne (k : Byte) (hk : k.toNat < 0x1C) : off ≠ k := by
    rintro rfl
    omega
  simp [State.readReg, ne]

/-- A read of an admitted offset returns the register. -/
theorem exec_rdReg (s : State) {off : Byte} (h : registerOffset off = true) :
    exec (.rdReg off) s = .next { s.seeDone off with hostData := s.readReg off } := by
  show execRdReg off s = _
  rw [execRdReg, if_pos h]

theorem exec_wrReserved (s : State) {off : Byte} (h : reservedOffset off = true) (d : Word) :
    exec (.wrReserved off d) s = .next s := by
  show execWrReserved off d s = _
  rw [execWrReserved, if_pos h]

/-- CTRL shows IRQ_EN in bit 2 and nothing else (R22). -/
theorem ctrlWord_reserved (s : State) : ctrlWord s &&& 0xFFFFFFF8 = 0 := by
  unfold ctrlWord
  cases s.irqEn <;> decide

/-- The flags of STATUS stand in bits 0 to 2 and ERRCODE in bits 4 to 7 (R23). -/
theorem statusWord_reserved (s : State) : statusWord s &&& 0xFFFFFF08 = 0 := by
  have hcode : ∀ c : BitVec 4, (0xFFFFFF08 : Word) &&& (c.setWidth 32 <<< 4) = 0 := by decide
  have herr : ∀ b : Bool, (0xFFFFFF08 : Word) &&& (bit b <<< 2) = 0 := by decide
  have hdone : ∀ b : Bool, (0xFFFFFF08 : Word) &&& (bit b <<< 1) = 0 := by decide
  have hbusy : ∀ b : Bool, (0xFFFFFF08 : Word) &&& bit b = 0 := by decide
  unfold statusWord
  rw [BitVec.and_comm, BitVec.and_or_distrib_left, BitVec.and_or_distrib_left, BitVec.and_or_distrib_left, hcode, herr,
    hdone, hbusy]
  rfl

theorem setIrqEn_congr (s : State) {d d' : Word} (h : d.getLsbD 2 = d'.getLsbD 2) : s.setIrqEn d = s.setIrqEn d' := by
  rw [State.setIrqEn, State.setIrqEn, h]

/-- Settles O18: the reads show registers in which no reserved bit is ever set, and the writes look at the named bits
alone. -/
theorem reservedOffsetsAndBits : Obligations.ReservedOffsetsAndBits := by
  intro s off d
  have hirq : s.setIrqEn d = s.setIrqEn (d &&& 0x7) := setIrqEn_congr s (by simp)
  refine ⟨fun h4 hlo hhi => ?_, ⟨_, exec_rdReg s (by decide), ctrlWord_reserved s⟩,
    ⟨_, exec_rdReg s (by decide), statusWord_reserved s⟩, ?_, ?_, ?_⟩
  · have hoff := reservedOffset_of_range h4 hlo hhi
    exact ⟨exec_wrReserved s hoff d, _, exec_rdReg s (registerOffset_of_reservedOffset hoff), readReg_reserved s hoff⟩
  · show execWrCtrl d s = execWrCtrl (d &&& 0x7) s
    rw [execWrCtrl, execWrCtrl, hirq]
  · show execCtrlStart d s = execCtrlStart (d &&& 0x7) s
    rw [execCtrlStart, execCtrlStart, hirq]
  · show execWrStatusW1c d s = execWrStatusW1c (d &&& 0x6) s
    simp [execWrStatusW1c]

/-! ### The interrupt line (R40, R338) -/

theorem irq_iff (s : State) : s.irq = true ↔ s.done = true ∧ s.irqEn = true := by
  unfold State.irq
  exact Bool.and_eq_true_iff

theorem irq_of_done {s : State} (h : s.done = true) : s.irq = s.irqEn := by
  unfold State.irq
  rw [h, Bool.true_and]

theorem irq_of_not_done {s : State} (h : s.done = false) : s.irq = false := by
  unfold State.irq
  rw [h, Bool.false_and]

/-- COMPLETE while BUSY reports, with success or error, and leaves IRQ_EN. -/
theorem complete_done {s t : State} (hb : s.busy = true) (e : Effect s .complete t) :
    t.done = true ∧ t.irqEn = s.irqEn := by
  cases e with
  | buffers _ hi => cases hi
  | idle hidle => simp [hb] at hidle
  | success _ _ _ | error _ _ _ => simp

/-- A START while no decode runs is accepted (R303). -/
theorem exec_ctrlStart_idle {s : State} (hb : s.busy = false) (d : Word) :
    exec (.ctrlStart d) s = .next (s.setIrqEn d).startDecode := by
  show execCtrlStart d s = _
  simp [execCtrlStart, hb]

/-- Settles O19, clause by clause: the line follows DONE and IRQ_EN as each instruction leaves them. -/
theorem interruptLine : Obligations.InterruptLine := by
  intro s d
  have lowered {t : State} (h : t.done = false) : t.done = false ∧ t.irq = false := ⟨h, irq_of_not_done h⟩
  refine ⟨rfl, irq_iff s, fun t hb ht => ?_, fun t ht hd => ?_, fun t ht hb => ?_, fun t ht => ?_, fun t ht => ?_⟩
  · obtain ⟨hdone, hirq⟩ := complete_done hb (exec_effect ht)
    exact ⟨hdone, hirq ▸ irq_of_done hdone⟩
  · obtain rfl := next_inj ht
    exact lowered (by rw [acknowledge_done, hd]; simp)
  · rw [exec_ctrlStart_idle hb] at ht
    obtain rfl := next_inj ht
    exact lowered rfl
  · obtain rfl := next_inj ht
    exact lowered rfl
  · obtain rfl := next_inj ht
    exact ⟨rfl, irq_iff _⟩

/-! ### What the operations of the pipeline leave alone (R39) -/

/-- Settles O58: every host access, COMPLETE and DECODE is no operation of the pipeline, and the rest changes the buffers
alone. -/
theorem internalOperationsFrame : Obligations.InternalOperationsFrame := by
  intro i s t hi ht
  cases exec_effect ht with
  | buffers g _ => rfl
  | _ => cases hi

/-! ### Who reports (R30, R303, R339, R340) -/

/-- The latched parameters (R30). -/
def State.latches (s : State) : Word × Word × Word × Word × Word := (s.lSrc, s.lLen, s.lW, s.lH, s.lDst)

theorem done_rises {s t : State} {i : Instr} (e : Effect s i t) (hs : s.done = false) (ht : t.done = true) :
    i = .complete ∧ s.busy = true := by
  cases e with
  | success _ hb _ | error _ hb _ => exact ⟨rfl, hb⟩
  | _ => simp [hs] at ht

theorem busy_rises {s t : State} {i : Instr} (e : Effect s i t) (hs : s.busy = false) (ht : t.busy = true) :
    ∃ d, i = .ctrlStart d := by
  cases e with
  | startBusy d _ | start d _ => exact ⟨d, rfl⟩
  | _ => simp [hs] at ht

theorem err_rises {s t : State} {i : Instr} (e : Effect s i t) (hs : s.err = false) (ht : t.err = true) :
    i = .complete := by
  cases e with
  | idle _ | success _ _ _ | error _ _ _ => rfl
  | _ => simp [hs] at ht

theorem latches_change {s t : State} {i : Instr} (e : Effect s i t) (h : t.latches ≠ s.latches) :
    ∃ d, i = .ctrlStart d ∨ i = .ctrlSoftReset d := by
  cases e with
  | startBusy d _ | start d _ => exact ⟨d, .inl rfl⟩
  | softReset d => exact ⟨d, .inr rfl⟩
  | _ => simp [State.latches] at h

/-- Settles O60, from everything an instruction can do. -/
theorem onlyStartAndCompleteReport : Obligations.OnlyStartAndCompleteReport := by
  intro i s t ht
  have e := exec_effect ht
  exact ⟨done_rises e, busy_rises e, err_rises e, latches_change e⟩

/-! ### COMPLETE reads the latches (R30, R378) -/

/-- The state with other parameter registers. -/
def State.withParams (s : State) (a l w h d : Word) : State :=
  { s with srcAddr := a, srcLen := l, width := w, height := h, dstAddr := d }

section Params
variable (s : State) (a l w h d : Word)

theorem decode_withParams : (s.withParams a l w h d).decode = s.decode := rfl

theorem endDecode_withParams (g : Engine) (m : Memory) :
    (s.withParams a l w h d).endDecode g m = (s.endDecode g m).withParams a l w h d := by
  have hchunk : (s.withParams a l w h d).chunkRaced = s.chunkRaced := rfl
  unfold State.endDecode State.settleRaces
  cases hr : s.chunkRaced <;> simp only [hchunk, hr] <;> rfl

end Params

/-- Settles O24: DECODE answers the same, and the report and the races leave the parameter registers. -/
theorem completeUsesLatchedParameters : Obligations.CompleteUsesLatchedParameters := by
  intro s a l w h d
  change exec .complete (s.withParams a l w h d) = _
  cases hb : s.busy with
  | false => rw [complete_idle hb, complete_idle (s := s.withParams a l w h d) hb]; rfl
  | true =>
    have hb' : (s.withParams a l w h d).busy = true := hb
    have hdec := decode_withParams s a l w h d
    cases hd : s.decode with
    | ok p => rw [complete_ok hb hd, complete_ok hb' (hdec.trans hd), endDecode_withParams]; rfl
    | raise x => rw [complete_raise hb hd, complete_raise hb' (hdec.trans hd), endDecode_withParams]; rfl
    | stuck f => rw [complete_stuck hb hd, complete_stuck hb' (hdec.trans hd)]
    | refuse r => rw [complete_refuse hb hd, complete_refuse hb' (hdec.trans hd)]

end Sys2Proof.Machine
end

section
/-! SUPPORT. System memory as the host and the engine see it (20_memory.md): the constants no step changes, admission of
the chunk and pixel ranges, races while BUSY, and the host's own reads and writes. -/

namespace Sys2Proof.Machine

/-! ### The constants (R74, R375) -/

@[simp] theorem endDecode_rom (s : State) (g : Engine) (m : Memory) : (s.endDecode g m).rom = s.rom := by
  rw [endDecode_eq]

@[simp] theorem resetAll_rom (s : State) : s.resetAll.rom = s.rom := by
  obtain ⟨_, _, h⟩ := resetAll_eq s
  rw [h]

theorem effect_rom {s t : State} {i : Instr} (e : Effect s i t) : t.rom = s.rom := by
  cases e with
  | read off _ => exact seeDone_rom s off
  | softReset _ => exact resetAll_rom s
  | success p _ _ => exact endDecode_rom s p.1 p.2
  | error _ _ _ => exact endDecode_rom s s.eng s.mem
  | _ => rfl

theorem memoryEffect_rom {s t : State} (e : MemoryEffect s t) : t.rom = s.rom := by
  cases e <;> rfl

/-- Settles O59, by the inversions of `exec` and `step`. -/
theorem constantTablesNeverChange : Obligations.ConstantTablesNeverChange := by
  refine ⟨fun i s t h => effect_rom (exec_effect h), fun s t h => ?_⟩
  rcases step_cases h with ⟨_, _, e⟩ | ⟨_, e⟩ | ⟨_, rfl⟩ | e | rfl
  · exact (effect_rom e :)
  · exact (memoryEffect_rom e :)
  · exact resetAll_rom _
  · exact effect_rom e
  · rfl

/-! ### Ranges that are not admitted (R69) -/

theorem admits_past_end (rom : Config.Rom) {a : Nat} (h : 2 ^ 32 ≤ a) : admits rom a = false := by
  by_contra ha
  exact absurd (admits_lt (Bool.eq_true_of_not_eq_false ha)) (Nat.not_lt.2 h)

theorem rangeAdmitted_eq_false {rom : Config.Rom} {base len : Nat} :
    rangeAdmitted rom base len = false ↔ ∃ i, i < len ∧ admits rom (base + i) = false := by
  simp [rangeAdmitted]

/-- The last byte of a range that ends past 2^32 is no address. -/
theorem exists_not_admitted_of_past_end (rom : Config.Rom) {base len : Nat} (h0 : 0 < len) (h : 2 ^ 32 < base + len) :
    ∃ i, i < len ∧ admits rom (base + i) = false :=
  ⟨len - 1, by omega, admits_past_end rom (by omega)⟩

theorem complete_chunk_stuck {s : State} (hb : s.busy = true)
    (h : ∃ i, i < s.lLen.toNat ∧ admits s.rom (s.lSrc.toNat + i) = false) :
    exec .complete s = .fault .chunkNotAdmitted :=
  complete_stuck hb (decode_stuck_of_depack (depack_stuck (rangeAdmitted_eq_false.2 h)))

theorem complete_pixels_stuck {s : State} (hb : s.busy = true) (hc : s.GoodChunk) (hs : s.GoodSize)
    (h : ∃ i, i < 3 * s.lW.toNat * s.lH.toNat ∧ admits s.rom (s.lDst.toNat + i) = false) :
    exec .complete s = .fault .pixelsNotAdmitted := by
  obtain ⟨g, hg⟩ := depack_ok hc
  rw [← pixelBytes_of_pos hs.width_positive hs.height_positive] at h
  exact complete_stuck hb (decode_pixels hg hs (rangeAdmitted_eq_false.2 h))

theorem toNat_pos_of_toInt_pos {d : Word} (h : 0 < d.toInt) : 0 < d.toNat := by
  rw [← toInt_toNat_of_pos h]
  omega

/-- Settles O22: a range that ends past 2^32 holds a byte that is not admitted. -/
theorem completeStuck : Obligations.CompleteStuck := by
  intro s hb
  refine ⟨complete_chunk_stuck hb, fun h0 h => complete_chunk_stuck hb (exists_not_admitted_of_past_end _ h0 h),
    complete_pixels_stuck hb, fun hc hs h =>
      complete_pixels_stuck hb hc hs (exists_not_admitted_of_past_end _ ?_ h)⟩
  have hw := toNat_pos_of_toInt_pos hs.width_positive
  have hh := toNat_pos_of_toInt_pos hs.height_positive
  positivity

/-! ### The note of a race (R78) -/

theorem noteRace_outside {s : State} {a : Nat} (h : s.busy = true → s.inPixels a = false) :
    s.noteRace a = { s with chunkRaced := s.chunkRaced || (s.busy && s.inChunk a) } := by
  have hn : (s.busy && s.inPixels a) = false := by
    cases hb : s.busy with
    | false => rfl
    | true => exact h hb
  rw [State.noteRace, if_neg (by simp [hn])]

theorem noteRace_chunk {s : State} {a : Nat} (hb : s.busy = true) (h : s.inChunk a = true) :
    (s.noteRace a).chunkRaced = true := by
  simp [hb, h]

theorem noteRace_pixel {s : State} {a : Nat} (hb : s.busy = true) (h : s.inPixels a = true) :
    a ∈ (s.noteRace a).pixRaced := by
  simp [hb, h]

/-! ### The host's accesses to memory (R60, R61, R67) -/

theorem step_memRead {s : State} {a : Nat} {rest : List Event} (h : s.inbox = .memRead a :: rest) :
    step s = ({ s with inbox := rest } : State).hostRead a := by
  unfold step
  rw [h]
  rfl

theorem step_memWrite {s : State} {a : Nat} {v : Byte} {rest : List Event} (h : s.inbox = .memWrite a v :: rest) :
    step s = ({ s with inbox := rest } : State).hostWrite a v := by
  unfold step
  rw [h]
  rfl

section Access
variable {s : State} {a : Nat}

theorem hostRead_noAddress (h : 2 ^ 32 ≤ a) : s.hostRead a = .fault .noSuchAddress := if_pos h

theorem hostWrite_noAddress {v : Byte} (h : 2 ^ 32 ≤ a) : s.hostWrite a v = .fault .noSuchAddress := if_pos h

theorem hostRead_notMemory (hlt : a < Config.addrLimit) (h : admits s.rom a = false) :
    s.hostRead a = .refused .notOrdinaryMemory := by
  rw [State.hostRead, if_neg (Nat.not_le.2 hlt), if_pos h]

theorem hostWrite_notMemory {v : Byte} (hlt : a < Config.addrLimit) (h : admits s.rom a = false) :
    s.hostWrite a v = .refused .notOrdinaryMemory := by
  rw [State.hostWrite, if_neg (Nat.not_le.2 hlt), if_pos h]

/-- At an address of ordinary memory neither of the two stops applies. -/
theorem hostRead_admitted (ha : admits s.rom a = true) : s.hostRead a =
    if s.unreliable a then
      .next { s with hostData := (Config.freeByte s.eng.draws).setWidth 32, eng := s.eng.drew 1 }
    else .next { s with hostData := (s.mem.read a).setWidth 32 } := by
  rw [State.hostRead, if_neg (Nat.not_le.2 (admits_lt ha)), if_neg (by simp [ha])]

theorem hostWrite_admitted (ha : admits s.rom a = true) (v : Byte) : s.hostWrite a v =
    if s.unordered a && !(s.busy && s.inPixels a) then .next ((s.noteRace a).scribble [a])
    else .next { s.noteRace a with mem := s.mem.write a v } := by
  rw [State.hostWrite, if_neg (Nat.not_le.2 (admits_lt ha)), if_neg (by simp [ha])]

theorem hostRead_reliable (ha : admits s.rom a = true) (h : s.unreliable a = false) :
    s.hostRead a = .next { s with hostData := (s.mem.read a).setWidth 32 } := by
  rw [hostRead_admitted ha, if_neg (by simp [h])]

theorem hostWrite_ordered (ha : admits s.rom a = true) (h : s.unordered a = false) (v : Byte) :
    s.hostWrite a v = .next { s.noteRace a with mem := s.mem.write a v } := by
  rw [hostWrite_admitted ha, if_neg (by simp [h])]

/-- Whatever becomes of the byte, the race of an admitted write is noted (R78). -/
theorem hostWrite_notes (ha : admits s.rom a = true) (v : Byte) : ∃ t : State, s.hostWrite a v = .next t ∧
    t.chunkRaced = (s.noteRace a).chunkRaced ∧ t.pixRaced = (s.noteRace a).pixRaced := by
  rw [hostWrite_admitted ha]
  split
  · exact ⟨_, rfl, rfl, rfl⟩
  · exact ⟨_, rfl, rfl, rfl⟩

end Access

/-- The host's read of a byte it cannot rely on: any value, and memory stands (R71 (3), R78 (1)). -/
theorem step_read_free {s : State} {a : Nat} {rest : List Event} (hi : s.inbox = .memRead a :: rest)
    (ha : admits s.rom a = true) (h : s.unreliable a = true) :
    ∃ (t : State) (n : Nat), step s = .next t ∧ t.hostData = (Config.freeByte n).setWidth 32 ∧ t.mem = s.mem := by
  rw [step_memRead hi, hostRead_admitted (s := { s with inbox := rest }) ha, if_pos (by simpa using h)]
  exact ⟨_, _, rfl, rfl, rfl⟩

/-! ### What the host can rely on (R71, R377) -/

theorem unreliable_eq_true {s : State} {a : Nat} :
    s.unreliable a = true ↔
      (s.busy = true ∨ s.unseen ≠ .nothing) ∧ s.inPixels a = true ∨ s.inUnseenOld a = true := by
  simp [State.unreliable]

theorem inUnseenOld_eq_false {s : State} {a : Nat} :
    s.inUnseenOld a = false ↔ ∀ u ∈ s.unseenOld, u.covers a = false := by
  simp [State.inUnseenOld]

/-- A byte the host can rely on is one whose next host write stands. -/
theorem unordered_of_reliable {s : State} {a : Nat} (h : s.unreliable a = false) : s.unordered a = false := by
  obtain ⟨hseen, hold⟩ := unreliable_eq_false.1 h
  refine unordered_eq_false.2 ⟨fun hw => ?_, fun u hu _ => inUnseenOld_eq_false.1 hold u hu⟩
  by_contra hp
  simp [(hseen (Bool.eq_true_of_not_eq_false hp)).2] at hw

/-- What is left of a range outside `q` has no byte of `q`. -/
theorem not_covers_of_mem_minus {q : Config.MemRange} {u p : UnseenRange} {a : Nat} (hlo : q.base ≤ a)
    (hhi : a < q.base + q.size) (hp : p ∈ UnseenRange.minus q u) : p.covers a = false := by
  unfold UnseenRange.minus at hp
  obtain ⟨r, hr, rfl⟩ := List.mem_map.1 hp
  have hparts := List.mem_of_mem_filter hr
  rw [List.mem_pair] at hparts
  have hout : ¬ (r.base ≤ a ∧ a < r.base + r.size) := by
    rcases hparts with rfl | rfl
    · dsimp only; omega
    · dsimp only; omega
  simpa [UnseenRange.covers] using hout

theorem inPixels_iff {s : State} {a : Nat} :
    s.inPixels a = true ↔ s.lDst.toNat ≤ a ∧ a < s.lDst.toNat + s.pixelBytes := by
  simp [State.inPixels]

/-- Seeing a success ends every older unseen range inside its own pixels; seeing an error ends none (R71 (3)). -/
theorem seeDone_inUnseenOld {s : State} (hd : s.done = true) {a : Nat} (hp : s.inPixels a = true) :
    (s.seeDone 0x04).inUnseenOld a = if s.unseen = .written then false else s.inUnseenOld a := by
  unfold State.inUnseenOld
  rw [seeDone_unseenOld]
  by_cases hw : s.unseen = .written
  · rw [if_pos ⟨rfl, hd, hw⟩, if_pos hw, List.any_eq_false]
    intro p hmem
    obtain ⟨u, _, hu⟩ := List.mem_flatMap.1 hmem
    obtain ⟨hlo, hhi⟩ := inPixels_iff.1 hp
    simpa using not_covers_of_mem_minus hlo hhi hu
  · rw [if_neg fun h => hw h.2.2, if_neg hw]

/-- A read of STATUS with DONE = 1 changes no memory, and leaves of the last decode's pixel range only what older unseen
decodes have of it where this one failed (R71 (3), R377). -/
theorem readDone_effect {s t : State} (hb : s.busy = false) (hd : s.done = true)
    (ht : exec (.rdReg 0x04) s = .next t) :
    t.busy = false ∧ t.mem = s.mem ∧ t.rom = s.rom ∧
      ∀ a, s.inPixels a = true → t.unreliable a = if s.unseen = .written then false else s.inUnseenOld a := by
  obtain rfl := next_inj ((exec_rdReg s (by decide)).symm.trans ht)
  refine ⟨(seeDone_busy s _).trans hb, seeDone_mem s _, seeDone_rom s _, fun a hp => ?_⟩
  rw [← seeDone_inUnseenOld hd hp]
  show (s.seeDone 0x04).unreliable a = _
  simp [State.unreliable, hb, hd]

/-- The host's read of a byte it can rely on. -/
theorem step_read {s : State} {a : Nat} {rest : List Event} (hi : s.inbox = .memRead a :: rest)
    (ha : admits s.rom a = true) (h : s.unreliable a = false) :
    step s = .next { s with inbox := rest, hostData := (s.mem.read a).setWidth 32 } := by
  rw [step_memRead hi, hostRead_reliable (s := { s with inbox := rest }) ha h]

/-- The host's write of a byte that no unseen decode has written, outside a running decode's pixel range. -/
theorem step_write {s : State} {a : Nat} {v : Byte} {rest : List Event} (hi : s.inbox = .memWrite a v :: rest)
    (ha : admits s.rom a = true) (hp : s.busy = true → s.inPixels a = false) (h : s.unordered a = false) :
    step s = .next { s with
      inbox := rest, mem := s.mem.write a v, chunkRaced := s.chunkRaced || (s.busy && s.inChunk a) } := by
  rw [step_memWrite hi, hostWrite_ordered (s := { s with inbox := rest }) ha h,
    noteRace_outside (s := { s with inbox := rest }) hp]
  rfl

/-- While no decode runs, such a write changes memory alone. -/
theorem step_write_idle {s : State} {a : Nat} {v : Byte} {rest : List Event} (hi : s.inbox = .memWrite a v :: rest)
    (ha : admits s.rom a = true) (hb : s.busy = false) (h : s.unordered a = false) :
    step s = .next { s with inbox := rest, mem := s.mem.write a v } := by
  rw [step_write hi ha (by simp [hb]) h, hb, Bool.false_and, Bool.or_false]

/-- Settles O27: the two stops by their tests, and the rest by when the byte is reliable and the write ordered. -/
theorem hostMemoryAccess : Obligations.HostMemoryAccess := by
  intro s a rest
  refine ⟨fun h => ⟨fun hi => (step_memRead hi).trans (hostRead_noAddress h),
      fun v hi => (step_memWrite hi).trans (hostWrite_noAddress h)⟩,
    fun hlt ha => ⟨fun hi => (step_memRead hi).trans (hostRead_notMemory hlt ha),
      fun v hi => (step_memWrite hi).trans (hostWrite_notMemory hlt ha)⟩,
    fun ha hbusy => ⟨fun hseen hold hi => ?_, fun hseen hold hm v hi => ?_⟩⟩
  · refine step_read hi ha (Bool.eq_false_iff.2 fun hu => ?_)
    rcases unreliable_eq_true.1 hu with ⟨hb | hn, hp⟩ | ho
    · simp [hbusy hb] at hp
    · simp [hseen hn] at hp
    · simp [inUnseenOld_eq_false.2 hold] at ho
  · exact ⟨_, step_write hi ha hbusy (unordered_eq_false.2 ⟨hseen, hold⟩), rfl, rfl,
      Memory.read_write hm (admits_lt ha) v⟩

/-- Settles O26: before the observation the range is unseen; after it only an older unseen range is, and none of that
where the decode succeeded. -/
theorem pixelsVisibleAfterDone : Obligations.PixelsVisibleAfterDone := by
  intro s t hb hd hun ht a rest hp ha
  obtain ⟨hbusy, hmem, hrom, hrel⟩ := readDone_effect hb hd ht
  have hadm : admits t.rom a = true := hrom ▸ ha
  refine ⟨?_, fun hf hw v => ?_, fun h => ?_, fun hf ho => ?_⟩
  · exact step_read_free (s := { s with inbox := .memRead a :: rest }) rfl ha
      (unreliable_eq_true.2 (.inl ⟨.inr hun, hp⟩))
  · exact step_write_idle (s := { s with inbox := .memWrite a v :: rest }) rfl ha hb
      (unordered_eq_false.2 ⟨by simp [hf], hw⟩)
  · have hsure : t.unreliable a = false := by
      rw [hrel a hp]
      rcases h with h | h <;> simp [h]
    rw [← hmem]
    exact ⟨⟨_, step_read (s := { t with inbox := .memRead a :: rest }) rfl hadm hsure, rfl, rfl⟩, fun v =>
      step_write_idle (s := { t with inbox := .memWrite a v :: rest }) rfl hadm hbusy (unordered_of_reliable hsure)⟩
  · rw [← hmem]
    exact step_read_free (s := { t with inbox := .memRead a :: rest }) rfl hadm
      ((hrel a hp).trans (by simp [hf, ho]))

/-! ### Races while BUSY (R78, R376) -/

/-- What settling the races leaves at an admitted pixel byte: a free byte, after any write to the chunk and after a write
to the byte itself. -/
theorem settleRaces_read_free {s : State} (hm : s.mem.wf) {a : Nat} (hp : s.inPixels a = true)
    (ha : admits s.rom a = true) (h : s.chunkRaced = true ∨ a ∈ s.pixRaced) :
    ∃ n, s.settleRaces.mem.read a = Config.freeByte n := by
  have free {l : List Nat} (hl : a ∈ l) : ∃ n, (s.scribble l).mem.read a = Config.freeByte n :=
    let ⟨n, _, hn⟩ := scribble_read_free hm hl (admits_lt ha)
    ⟨n, hn⟩
  unfold State.settleRaces
  split
  · exact free (mem_pixelAddrs.2 ⟨inPixels_iff.1 hp, ha⟩)
  · exact free (h.resolve_left (by assumption))

/-- COMPLETE while BUSY settles the races over the memory the decode leaves. -/
theorem complete_settles {s t : State} (hb : s.busy = true) (e : Effect s .complete t) :
    ∃ (g : Engine) (m : Memory), (s.mem.wf → m.wf) ∧
      t.mem = (State.settleRaces { s with eng := g, mem := m }).mem := by
  cases e with
  | buffers _ hi => cases hi
  | idle hidle => simp [hb] at hidle
  | success p _ hd => exact ⟨p.1, p.2, (decode_mem hd).1, rfl⟩
  | error _ _ _ => exact ⟨s.eng, s.mem, id, rfl⟩

theorem complete_read_free {s t : State} (hb : s.busy = true) (hm : s.mem.wf) (ht : exec .complete s = .next t)
    {a : Nat} (hp : s.inPixels a = true) (ha : admits s.rom a = true) (h : s.chunkRaced = true ∨ a ∈ s.pixRaced) :
    ∃ n, t.mem.read a = Config.freeByte n := by
  obtain ⟨g, m, hwf, hmem⟩ := complete_settles hb (exec_effect ht)
  rw [hmem]
  exact settleRaces_read_free (s := { s with eng := g, mem := m }) (hwf hm) hp ha h

/-- STATUS after COMPLETE does not look at the note of a chunk race. -/
theorem complete_status_chunkRaced {s t : State} (hb : s.busy = true) (ht : exec .complete s = .next t) (c : Bool) :
    ∃ u, exec .complete { s with chunkRaced := c } = .next u ∧ statusWord t = statusWord u := by
  cases exec_effect ht with
  | buffers _ hi => cases hi
  | idle hidle => simp [hb] at hidle
  | success p _ hd => exact ⟨_, complete_ok (s := { s with chunkRaced := c }) hb hd, by simp [statusWord]⟩
  | error x _ hd => exact ⟨_, complete_raise (s := { s with chunkRaced := c }) hb hd, rfl⟩

/-- The decode goes on, and every note of a race stands. -/
structure NotesStand (s t : State) : Prop where
  busy  : t.busy = true
  chunk : s.chunkRaced = true → t.chunkRaced = true
  pixel : ∀ a, a ∈ s.pixRaced → a ∈ t.pixRaced

theorem notesStand_of_eq {s t : State} (hb : s.busy = true) (h1 : t.busy = s.busy) (h2 : t.chunkRaced = s.chunkRaced)
    (h3 : t.pixRaced = s.pixRaced) : NotesStand s t :=
  ⟨h1.trans hb, h2.trans, fun _ ha => h3 ▸ ha⟩

/-- While BUSY only COMPLETE and a reset end the notes: a START is ignored. -/
theorem effect_notesStand {s t : State} {i : Instr} (e : Effect s i t) (hb : s.busy = true) :
    i = .complete ∨ (∃ d, i = .ctrlSoftReset d) ∨ NotesStand s t := by
  cases e with
  | idle _ | success _ _ _ | error _ _ _ => exact .inl rfl
  | softReset d => exact .inr (.inl ⟨d, rfl⟩)
  | start _ hidle => simp [hb] at hidle
  | read off _ => exact .inr (.inr (notesStand_of_eq hb (seeDone_busy s off) (seeDone_chunkRaced s off)
      (seeDone_pixRaced s off)))
  | _ => exact .inr (.inr (notesStand_of_eq hb rfl rfl rfl))

theorem noteRace_notesStand {s : State} (hb : s.busy = true) (a : Nat) : NotesStand s (s.noteRace a) where
  busy := hb
  chunk h := by simp [h]
  pixel b h := by
    rw [noteRace_pixRaced]
    split
    · exact List.mem_cons_of_mem a h
    · exact h

theorem memoryEffect_notesStand {s t : State} (e : MemoryEffect s t) (hb : s.busy = true) : NotesStand s t := by
  cases e with
  | readFree _ | read _ => exact notesStand_of_eq hb rfl rfl rfl
  | writeFree a | write a _ => exact { noteRace_notesStand hb a with }

/-- Where the notes of a running decode end: COMPLETE answers, or a reset abandons it. -/
theorem step_notesStand {s t : State} (hb : s.busy = true) (h : step s = .next t) :
    (∃ q, exec .complete { s with inbox := q } = .next t) ∨
      (∃ q, exec (.ctrlSoftReset 0x2) { s with inbox := q } = .next t) ∨ NotesStand s t := by
  rcases step_runs h with ⟨i, q, hi⟩ | ⟨q, e⟩ | ⟨q, hr⟩ | ⟨hnil, hc⟩ | ⟨hidle, _⟩
  · rcases effect_notesStand (exec_effect hi) hb with rfl | ⟨d, rfl⟩ | hn
    · exact .inl ⟨q, hi⟩
    · exact .inr (.inl ⟨q, hi⟩)
    · exact .inr (.inr { hn with })
  · exact .inr (.inr { memoryEffect_notesStand e hb with })
  · exact .inr (.inl ⟨q, hr⟩)
  · exact .inl ⟨[], hnil ▸ hc⟩
  · simp [hb] at hidle

/-- Settles O25: an access notes its race, a step keeps the notes, and COMPLETE settles them. -/
theorem hostRacesWithDecode : Obligations.HostRacesWithDecode := by
  intro s hb hm
  refine ⟨fun a rest hi hp ha => ?_, fun a v rest hi ha => ?_, fun hr t ht => ⟨?_, fun a hp ha => ?_⟩,
    fun a hmem hp ha t ht => ?_, fun t ht => ?_⟩
  · exact step_read_free hi ha (unreliable_eq_true.2 (.inl ⟨.inl hb, hp⟩))
  · obtain ⟨t, ht, hc, hx⟩ := hostWrite_notes (s := { s with inbox := rest }) ha v
    exact ⟨t, (step_memWrite hi).trans ht, fun h => hc.trans (noteRace_chunk (s := { s with inbox := rest }) hb h),
      fun h => hx ▸ noteRace_pixel (s := { s with inbox := rest }) hb h⟩
  · exact complete_status_chunkRaced hb ht false
  · exact complete_read_free hb hm ht hp ha (.inl hr)
  · exact complete_read_free hb hm ht hp ha (.inr hmem)
  · rcases step_notesStand hb ht with hc | hr | hn
    · exact .inl hc
    · exact .inr (.inl hr)
    · exact .inr (.inr ⟨hn.busy, hn.chunk, hn.pixel⟩)

end Sys2Proof.Machine
end

section
/-! SUPPORT. The encodings (30_encoding.md): the decoder reads back what the encoder writes, what it answers is a
well-formed instruction read off the front, and the class of every host write, window, table entry and RL word. -/

namespace Sys2Proof

open Machine

/-! ### Decode after encode -/

/-- The round trip of every row of the table, from the laws of the rows. -/
theorem decode_encode : ∀ i : Instr, Laws.RoundTrip.Statement i
  | .rdReg off => Laws.RoundTrip.rdReg off
  | .wrCtrl d => Laws.RoundTrip.wrCtrl d
  | .ctrlStart d => Laws.RoundTrip.ctrlStart d
  | .ctrlSoftReset d => Laws.RoundTrip.ctrlSoftReset d
  | .wrStatusW1c d => Laws.RoundTrip.wrStatusW1c d
  | .wrSrcAddr d => Laws.RoundTrip.wrSrcAddr d
  | .wrSrcLen d => Laws.RoundTrip.wrSrcLen d
  | .wrWidth d => Laws.RoundTrip.wrWidth d
  | .wrHeight d => Laws.RoundTrip.wrHeight d
  | .wrDstAddr d => Laws.RoundTrip.wrDstAddr d
  | .wrReserved off d => Laws.RoundTrip.wrReserved off d
  | .complete => Laws.RoundTrip.complete
  | .brNew start => Laws.RoundTrip.brNew start
  | .brReadBit => Laws.RoundTrip.brReadBit
  | .brReadBits n => Laws.RoundTrip.brReadBits n
  | .brPeekBits n => Laws.RoundTrip.brPeekBits n
  | .brSkipBits n => Laws.RoundTrip.brSkipBits n
  | .brHasMore => Laws.RoundTrip.brHasMore
  | .blkHdr bits => Laws.RoundTrip.blkHdr bits
  | .vlcFast01 w => Laws.RoundTrip.vlcFast01 w
  | .vlcFast1 w => Laws.RoundTrip.vlcFast1 w
  | .vlcLcLz2 w => Laws.RoundTrip.vlcLcLz2 w
  | .vlcLcLz3 w => Laws.RoundTrip.vlcLcLz3 w
  | .vlcLcLz4 w => Laws.RoundTrip.vlcLcLz4 w
  | .vlcLcLz5 w => Laws.RoundTrip.vlcLcLz5 w
  | .vlcLcLz6 w => Laws.RoundTrip.vlcLcLz6 w
  | .vlcLcLz7 w => Laws.RoundTrip.vlcLcLz7 w
  | .vlcLcLz8 w => Laws.RoundTrip.vlcLcLz8 w
  | .vlcLcLz9 w => Laws.RoundTrip.vlcLcLz9 w
  | .vlcLcLz10 w => Laws.RoundTrip.vlcLcLz10 w
  | .escRaw run lvl => Laws.RoundTrip.escRaw run lvl
  | .entEob e => Laws.RoundTrip.entEob e
  | .entEsc e => Laws.RoundTrip.entEsc e
  | .entAc e => Laws.RoundTrip.entAc e
  | .rlCnt => Laws.RoundTrip.rlCnt
  | .rlMagic => Laws.RoundTrip.rlMagic
  | .rlHdr qs dc => Laws.RoundTrip.rlHdr qs dc
  | .rlEob => Laws.RoundTrip.rlEob
  | .rlAc run lvl => Laws.RoundTrip.rlAc run lvl
  | .depack => Laws.RoundTrip.depack
  | .huffDecodeNext => Laws.RoundTrip.huffDecodeNext
  | .decodeBlock => Laws.RoundTrip.decodeBlock
  | .idct8x8 b => Laws.RoundTrip.idct8x8 b
  | .renderMb => Laws.RoundTrip.renderMb
  | .decode => Laws.RoundTrip.decode

/-- Settles O4, row by row. -/
theorem decodeOfEncode : Obligations.DecodeOfEncode := decode_encode

/-! ### What the decoder answers -/

/-- A parser that answers well-formed instructions only, each read off the front of its bytes: the bytes it hands back
have no part in the answer. -/
def ReadsFront (parse : List Byte → DecodeResult) : Prop :=
  ∀ bytes i rest, parse bytes = .ok i rest → i.wf = true ∧ ∃ front, bytes = front ++ rest ∧ parse front = .ok i []

theorem ofBytesLE_lt (l : List Byte) : ofBytesLE l < 256 ^ l.length := by
  induction l with
  | nil => simp [ofBytesLE]
  | cons b t ih =>
    have hb := b.isLt
    rw [ofBytesLE, List.length_cons, pow_succ]
    omega

theorem decodeHostRead_readsFront : ReadsFront decodeHostRead := by
  intro bytes i rest h
  unfold decodeHostRead at h
  split at h
  case h_1 width off tail =>
    cases ha : accessError width off with
    | some e => simp [ha] at h
    | none =>
      rw [ha] at h
      cases h
      exact ⟨(accessError_eq_none ha).2, [width, off], rfl, by simp [decodeHostRead, ha]⟩
  case h_2 => cases h

theorem decodeHostWrite_readsFront : ReadsFront decodeHostWrite := by
  intro bytes i rest h
  unfold decodeHostWrite at h
  split at h
  case h_1 width off b0 b1 b2 b3 tail =>
    cases ha : accessError width off with
    | some e => simp [ha] at h
    | none =>
      rw [ha] at h
      cases h
      exact ⟨writeInstr_wf (accessError_eq_none ha).2 _, [width, off, b0, b1, b2, b3], rfl,
        by simp [decodeHostWrite, ha]⟩
  case h_2 => cases h

theorem withRest_ok {r : DecodeResult} {i : Instr} {t rest : List Byte} (h : r.withRest t = .ok i rest) :
    (∃ own, r = .ok i own) ∧ t = rest := by
  cases r with
  | ok j own => cases h; exact ⟨⟨own, rfl⟩, rfl⟩
  | reject e => cases h

theorem decodeEngine_readsFront : ReadsFront decodeEngine := by
  intro bytes i rest h
  unfold decodeEngine at h
  split at h
  case h_2 => cases h
  case h_1 op tail =>
    cases hp : plainInstr op with
    | some j =>
      rw [hp] at h
      cases h
      exact ⟨plainInstr_wf hp, [op], rfl, by simp [decodeEngine, hp]⟩
    | none =>
      cases h0 : operandInstr op 0 with
      | none => simp [hp, h0] at h
      | some r0 =>
        simp only [hp, h0] at h
        split at h
        case h_2 => cases h
        case h_1 b0 b1 b2 b3 tail =>
          cases hn : operandInstr op (ofBytesLE [b0, b1, b2, b3]) with
          | none => simp [hn] at h
          | some r =>
            rw [hn] at h
            obtain ⟨⟨own, rfl⟩, rfl⟩ := withRest_ok h
            have hlt : ofBytesLE [b0, b1, b2, b3] < 2 ^ 32 := by simpa using ofBytesLE_lt [b0, b1, b2, b3]
            exact ⟨(operandInstr_ok hlt hn).1, [op, b0, b1, b2, b3], rfl,
              by simp [decodeEngine, hp, h0, hn, DecodeResult.withRest]⟩

theorem decodeHeader_readsFront : ReadsFront decodeHeader := by
  intro bytes i rest h
  unfold decodeHeader at h
  split at h
  case h_1 b0 b1 b2 tail =>
    split at h
    case isTrue hlt =>
      cases h
      exact ⟨rfl, [b0, b1, b2], rfl, if_pos hlt⟩
    case isFalse => cases h
  case h_2 => cases h

theorem decodeRaw_readsFront : ReadsFront decodeRaw := by
  intro bytes i rest h
  unfold decodeRaw at h
  split at h
  case h_1 b0 b1 tail =>
    cases h
    exact ⟨rfl, [b0, b1], rfl, rfl⟩
  case h_2 => cases h

theorem decodeWindow_readsFront : ReadsFront decodeWindow := by
  intro bytes i rest h
  unfold decodeWindow at h
  split at h
  case h_1 b0 b1 tail =>
    cases h
    exact ⟨windowInstr_wf _, [b0, b1], rfl, rfl⟩
  case h_2 => cases h

theorem decodeEntry_readsFront : ReadsFront decodeEntry := by
  intro bytes i rest h
  unfold decodeEntry at h
  split at h
  case h_1 b0 b1 b2 b3 tail =>
    cases h
    exact ⟨entryInstr_wf _, [b0, b1, b2, b3], rfl, rfl⟩
  case h_2 => cases h

theorem decodeRl_readsFront : ReadsFront decodeRl := by
  intro bytes i rest h
  unfold decodeRl at h
  split at h
  case h_1 position b0 b1 tail =>
    cases hr : rlInstr position (BitVec.ofNat 16 (ofBytesLE [b0, b1])) with
    | none => simp [hr] at h
    | some j =>
      rw [hr] at h
      cases h
      exact ⟨rlInstr_wf hr, [position, b0, b1], rfl, by simp [decodeRl, hr]⟩
  case h_2 => cases h

/-- The layer byte joins the front that its layer reads. -/
theorem ReadsFront.of_layer {parse : List Byte → DecodeResult} (hp : ReadsFront parse) {layer : Byte}
    (hd : ∀ t, decode (layer :: t) = parse t) {t : List Byte} {i : Instr} {rest : List Byte}
    (h : parse t = .ok i rest) :
    i.wf = true ∧ ∃ front, layer :: t = front ++ rest ∧ decode front = .ok i [] := by
  obtain ⟨hwf, front, rfl, hf⟩ := hp t i rest h
  exact ⟨hwf, layer :: front, rfl, (hd front).trans hf⟩

/-- Settles O5, layer by layer. -/
theorem decodedIsWellFormed : Obligations.DecodedIsWellFormed := by
  intro bytes i rest h
  cases bytes with
  | nil => cases h
  | cons layer t =>
    rw [decode] at h
    split_ifs at h with h0 h1 h2 h3 h4 h5 h6 h7
    · exact h0 ▸ decodeHostRead_readsFront.of_layer decode_layerHostRead h
    · exact h1 ▸ decodeHostWrite_readsFront.of_layer decode_layerHostWrite h
    · exact h2 ▸ decodeEngine_readsFront.of_layer decode_layerEngine h
    · exact h3 ▸ decodeHeader_readsFront.of_layer decode_layerHeader h
    · exact h4 ▸ decodeRaw_readsFront.of_layer decode_layerRaw h
    · exact h5 ▸ decodeWindow_readsFront.of_layer decode_layerWindow h
    · exact h6 ▸ decodeEntry_readsFront.of_layer decode_layerEntry h
    · exact h7 ▸ decodeRl_readsFront.of_layer decode_layerRl h

/-! ### Host command words (R108) -/

theorem ctrlInstr_eq (d : Word) :
    ctrlInstr d = if d.getLsbD 1 then .ctrlSoftReset d else if d.getLsbD 0 then .ctrlStart d else .wrCtrl d := by
  simp [ctrlInstr, BitVec.getLsbD, Nat.testBit_eq_decide_div_mod_eq]

/-- Settles O7: CTRL by its two bits, every other register by its offset. -/
theorem commandWordDecoding : Obligations.CommandWordDecoding := fun d =>
  ⟨ctrlInstr_eq d ▸ decode_ctrl d, decode_encode (.wrStatusW1c d) rfl, decode_encode (.wrSrcAddr d) rfl,
    decode_encode (.wrSrcLen d) rfl, decode_encode (.wrWidth d) rfl, decode_encode (.wrHeight d) rfl,
    decode_encode (.wrDstAddr d) rfl⟩

/-! ### Windows (R95, R153) -/

/-- A window is the record of one well-formed instruction, the one the decoder answers. -/
theorem decode_windowRecord {i : Instr} {w : Half} (hw : i.wf = true) (he : encode i = windowRecord w) :
    decode (windowRecord w) = .ok i [] := he ▸ decode_encode i hw

theorem encode_lengthInstr (j : Fin 9) (w : Half) : encode (lengthInstr j w) = windowRecord w := by
  fin_cases j <;> rfl

/-- The class of `j + 2` leading zeros, below the clamp, has its first 1 in bit `13 - j`. -/
theorem lengthInstr_wf {j : Fin 9} (hj : j < 8) (w : Half) :
    (lengthInstr j w).wf = decide (windowTop w (13 - j.val) = 1) := by
  match j, hj with
  | 8, h8 => exact absurd h8 (by decide)
  | 0, _ | 1, _ | 2, _ | 3, _ | 4, _ | 5, _ | 6, _ | 7, _ => rfl

/-- Settles O8: in each range of windows the class's instruction is well formed. -/
theorem everyWindowHasOneClass : Obligations.EveryWindowHasOneClass := by
  intro w
  refine ⟨fun h => ?_, fun hlo hhi => ?_, fun j hj hlo hhi => ?_, fun h => ?_, fun i => decode_windowRecord⟩
  · exact decode_windowRecord (decide_eq_true (windowTop_one_iff.2 ⟨h, w.isLt⟩)) rfl
  · exact decode_windowRecord (decide_eq_true (windowTop_one_iff.2 ⟨hlo, hhi⟩)) rfl
  · refine decode_windowRecord ?_ (encode_lengthInstr j w)
    have hj8 : j.val < 8 := hj
    rw [lengthInstr_wf hj, decide_eq_true_eq, windowTop_one_iff]
    rw [show 15 - (j.val + 2) = 13 - j.val by omega] at hlo
    rw [show 16 - (j.val + 2) = 13 - j.val + 1 by omega] at hhi
    exact ⟨hlo, hhi⟩
  · exact decode_windowRecord (decide_eq_true (Nat.div_eq_of_lt h)) rfl

/-! ### Table entries and RL words (R99, R103 to R106) -/

theorem entryInstr_eq (e : Word) :
    entryInstr e = if e.toNat % 2 ^ 16 = 0xFE00 then .entEob e
      else if e.toNat % 2 ^ 10 = 0x200 then .entEsc e else .entAc e := by
  rw [entryInstr, entryClass_eq, classOf]
  split_ifs <;> rfl

theorem acInstr_eq (w : Half) :
    acInstr w = if w.toNat = 0xFE00 then .rlEob
      else .rlAc (BitVec.ofNat 6 (w.toNat / 2 ^ 10)) (BitVec.ofNat 10 w.toNat) := by
  have hw : w = Config.eob ↔ w.toNat = 0xFE00 := BitVec.toNat_inj.symm
  simp only [acInstr, hw, rlHigh_eq, rlLow_eq]

/-- Settles O9: the class of the entry, and the row of each position. -/
theorem entryAndRlWordKinds : Obligations.EntryAndRlWordKinds := by
  refine ⟨fun e => entryInstr_eq e ▸ decode_entry e, fun w => ⟨decode_rl 0 w rfl, decode_rl 1 w rfl, ?_, ?_⟩⟩
  · rw [← rlHigh_eq, ← rlLow_eq]
    exact decode_rl 2 w rfl
  · rw [← acInstr_eq]
    exact decode_rl 3 w rfl

/-- Settles O6, by evaluating the decoder on each word. -/
theorem decodedSpecWords : Obligations.DecodedSpecWords := by
  unfold Obligations.DecodedSpecWords
  decide

end Sys2Proof

namespace Sys2Proof.Machine

/-! ### A step and its record -/

theorem step_op {s : State} {record : List Byte} {rest : List Event} (h : s.inbox = .op record :: rest) :
    step s = runRecord record { s with inbox := rest } := by
  unfold step
  rw [h]
  rfl

/-- Settles O1: the step runs the record, and the decoder says what that is. -/
theorem stepRunsDecodedRecord : Obligations.StepRunsDecodedRecord := fun s record rest h =>
  ⟨fun i hd => by rw [step_op h, runRecord, hd], fun e hd => by rw [step_op h, runRecord, hd]⟩

/-! ### RL words 0 and 1 (R102, R174) -/

theorem putCount_word (r : RlStream) (h : 2 ≤ r.cap) : (r.putCount.read 0).toNat = min r.cap 0xFFFF := by
  rw [RlStream.putCount, RlStream.read_set, if_pos ⟨rfl, by omega⟩, BitVec.toNat_ofNat]
  omega

theorem putMagic_word (r : RlStream) (h : 2 ≤ r.cap) : r.putMagic.read 1 = Config.magic := by
  rw [RlStream.putMagic, RlStream.read_set, if_pos ⟨rfl, by omega⟩]

theorem putCount_read_other (r : RlStream) {i : Nat} (h : i ≠ 0) : r.putCount.read i = r.read i := by
  rw [RlStream.putCount, RlStream.read_set, if_neg fun hi => h hi.1]

theorem putMagic_read_other (r : RlStream) {i : Nat} (h : i ≠ 1) : r.putMagic.read i = r.read i := by
  rw [RlStream.putMagic, RlStream.read_set, if_neg fun hi => h hi.1]

/-- Settles O35, by what each row's one write leaves to be read. -/
theorem countAndMagicWords : Obligations.CountAndMagicWords := fun s hcap =>
  ⟨⟨s.eng.rl.putCount, rfl, putCount_word _ hcap, rfl, rfl, fun _ hi => putCount_read_other _ hi⟩,
    ⟨s.eng.rl.putMagic, rfl, putMagic_word _ hcap, rfl, rfl, fun _ hi => putMagic_read_other _ hi⟩⟩

end Sys2Proof.Machine
end

section
/-! SUPPORT. The BitReader rows (40_bitreader.md R131 to R138): each operation by its guard, with the bits it returns
as the spec's loop has them. -/

namespace Sys2Proof.Machine

/-! ### Reads and peeks (R132 to R134, R138) -/

/-- An operation that consumes no bits changes the returned value alone. -/
theorem took_zero (e : Engine) (v : Nat) : e.took v 0 = { e with res := v } := rfl

theorem execBrReadBits_wide {n : Nat} (h : 16 < n) (s : State) : execBrReadBits n s = .refused .readTooWide :=
  if_pos h

theorem execBrPeekBits_wide {n : Nat} (h : 16 < n) (s : State) : execBrPeekBits n s = .refused .readTooWide :=
  if_pos h

theorem execBrReadBit_admitted {s : State} (ha : s.chunkAdmitted = true) :
    execBrReadBit s = .next (s.setEng (s.eng.took (streamBit s s.eng.br.pos) 1)) := by
  rw [execBrReadBit, if_pos (bitsAdmitted_of_admitted ha 1), bitAt_eq]

theorem execBrReadBits_admitted {s : State} (ha : s.chunkAdmitted = true) {n : Nat} (hn : n ≤ 16) :
    execBrReadBits n s = .next (s.setEng (s.eng.took (nextBits s n) n)) := by
  rw [execBrReadBits, if_neg (Nat.not_lt.2 hn), if_pos (bitsAdmitted_of_admitted ha n), peek_eq]

theorem execBrPeekBits_admitted {s : State} (ha : s.chunkAdmitted = true) {n : Nat} (hn : n ≤ 16) :
    execBrPeekBits n s = .next (s.setEng { s.eng with res := nextBits s n }) := by
  rw [execBrPeekBits, if_neg (Nat.not_lt.2 hn), if_pos (bitsAdmitted_of_admitted ha n), peek_eq, took_zero]

/-- Settles O29: the width guard refuses first, and an admitted chunk passes the other. -/
theorem readerReadsAndPeeks : Obligations.ReaderReadsAndPeeks :=
  ⟨fun s _ hn => ⟨execBrReadBits_wide hn s, execBrPeekBits_wide hn s⟩,
    fun s n ha hn => ⟨nextBits_lt s n, execBrReadBit_admitted ha, execBrReadBits_admitted ha hn,
      execBrPeekBits_admitted ha hn⟩⟩

/-! ### The test for unread input (R136) -/

theorem execBrHasMore_eq (s : State) :
    execBrHasMore s = .next (s.setEng { s.eng with res := if s.eng.br.pos < inputBits s then 1 else 0 }) := by
  simp only [execBrHasMore, took_zero, hasMore_iff]

/-- Settles O28: a new reader and a skip are their definitions, the test is that of the input length. -/
theorem readerCreateSkipAndMore : Obligations.ReaderCreateSkipAndMore := fun s =>
  ⟨fun _ => rfl, fun _ => rfl, execBrHasMore_eq s⟩

end Sys2Proof.Machine
end

section
/-! SUPPORT. The Huffman rows (41_huffman.md R150 to R157): each window row is one lookup, at the index that the
spec's shifts give, and HUFF_DECODE_NEXT is the row of its own window. -/

namespace Sys2Proof.Machine

/-! ### The lookup of a window row (R152 to R154) -/

/-- The fast class reads `FAST` at twice the top nibble less 4 (R152). -/
theorem huffTook_fastEntry (s : State) (w : Half) :
    s.eng.huffTook (fastEntry s.rom w) = s.eng.afterLookup s.rom.fast ((w.toNat / 2 ^ 12 - 4) * 2) :=
  huffTook_lookup s.eng s.rom.fast (fastIndex w)

/-- A length class reads its table at the masked bits after the first `lz`, which is `j + 2` (R154). -/
theorem huffTook_lengthEntry (s : State) (j : Fin 9) (w : Half) :
    s.eng.huffTook (lengthEntry s.rom j w) = s.eng.afterLookup s.rom.lc[s.rom.lcSel[j]]
      ((((w.toNat <<< (j.val + 2)) &&& 0xFFFF) >>> (16 - (s.rom.lcNbits[s.rom.lcSel[j]]).val))
        &&& (s.rom.lcMask[s.rom.lcSel[j]]).toNat) := by
  rw [lengthEntry, huffTook_lookup, lengthIndex_eq]

/-- Every length class has a row of its own, and the row looks its operand up. -/
theorem exec_lengthInstr (j : Fin 9) (w : Half) (s : State) :
    exec (lengthInstr j w) s = .next (s.setEng (s.eng.huffTook (lengthEntry s.rom j w))) := by
  fin_cases j <;> rfl

/-- Settles O30: each row is the lookup of its class, and that lookup is the clamped read of the spec's index. -/
theorem lookupByWindowClass : Obligations.LookupByWindowClass := fun s w =>
  ⟨fun _ => by
      rw [← huffTook_fastEntry]
      exact ⟨rfl, rfl⟩,
    fun j => by rw [exec_lengthInstr, huffTook_lengthEntry]⟩

/-! ### HUFF_DECODE_NEXT (R150, R151) -/

theorem execHuffDecodeNext_admitted {s : State} (ha : s.chunkAdmitted = true) :
    execHuffDecodeNext s =
      .next (s.setEng (s.eng.huffTook (windowEntry s.rom (BitVec.ofNat 16 (nextBits s 16))))) := by
  rw [execHuffDecodeNext, if_pos (bitsAdmitted_of_admitted ha 16), window_eq]

/-- Settles O31: the operation and the row both look the next 16 bits up in the table of their class. -/
theorem huffDecodeNextRunsItsWindow : Obligations.HuffDecodeNextRunsItsWindow := fun s ha =>
  ⟨_, execHuffDecodeNext_admitted ha, exec_windowInstr _ s⟩

end Sys2Proof.Machine
end

section
/-! SUPPORT. The depacker rows (42_vlc_depacker.md R170 to R184): the header's fields and the word they pack to, each
element with capacity left and without, and DEPACK as the run of its elements with the padding after it. -/

namespace Sys2Proof.Machine

/-! ### The header's fields and the word they pack to (R94, R177, R178) -/

theorem extractLsb'_eq_ofNat {n i k v : Nat} {h : BitVec n} (hv : h.toNat / 2 ^ i % 2 ^ k = v) :
    h.extractLsb' i k = BitVec.ofNat k v := by
  apply BitVec.eq_of_toNat_eq
  rw [BitVec.extractLsb'_toNat, Nat.shiftRight_eq_div_pow, BitVec.toNat_ofNat, ← hv, Nat.mod_mod]

theorem getLsbD_eq_of_toNat {n i : Nat} {h : BitVec n} {b : Bool} (hb : h.toNat / 2 ^ i % 2 = b.toNat) :
    h.getLsbD i = b := by
  rw [BitVec.getLsbD, Nat.testBit_eq_decide_div_mod_eq, hb]
  cases b <;> rfl

/-- The fields are read back from the 22 bits in both orders of sign and magnitude (R94). -/
theorem hdrFields_eq {signFirst : Bool} {h : BitVec 22} {qm dm : Nat} {qs ds : Bool} (hq : qm < 2 ^ 10)
    (hd : dm < 2 ^ 10)
    (hlast : signFirst = false → h.toNat = qm * 2 ^ 12 + qs.toNat * 2 ^ 11 + dm * 2 + ds.toNat)
    (hfirst : signFirst = true → h.toNat = qs.toNat * 2 ^ 21 + qm * 2 ^ 11 + ds.toNat * 2 ^ 10 + dm) :
    hdrFields signFirst h =
      { qmag := BitVec.ofNat 10 qm, qsign := qs, dcmag := BitVec.ofNat 10 dm, dcsign := ds } := by
  have h1 := qs.toNat_lt
  have h2 := ds.toNat_lt
  cases signFirst with
  | false =>
    have hh := hlast rfl
    rw [hdrFields, if_neg Bool.false_ne_true, extractLsb'_eq_ofNat (v := qm) (by omega),
      getLsbD_eq_of_toNat (b := qs) (by omega), extractLsb'_eq_ofNat (v := dm) (by omega),
      getLsbD_eq_of_toNat (b := ds) (by omega)]
  | true =>
    have hh := hfirst rfl
    rw [hdrFields, if_pos rfl, getLsbD_eq_of_toNat (b := qs) (by omega), extractLsb'_eq_ofNat (v := qm) (by omega),
      getLsbD_eq_of_toNat (b := ds) (by omega), extractLsb'_eq_ofNat (v := dm) (by omega)]

theorem signed_ofNat {m : Nat} (h : m < 2 ^ 10) (sign : Bool) :
    signed (BitVec.ofNat 10 m) sign = if sign then -(m : Int) else m := by
  rw [signed, BitVec.toNat_ofNat, Nat.mod_eq_of_lt h]

theorem rlWord_toNat (hi : BitVec 6) (lo : BitVec 10) : (rlWord hi lo).toNat = hi.toNat * 1024 + lo.toNat := by
  have h1 := hi.isLt
  have h2 := lo.isLt
  rw [rlWord_ofNat, BitVec.toNat_ofNat]
  omega

theorem toNat_ofInt_eq_emod (n : Nat) (v : Int) : ((BitVec.ofInt n v).toNat : Int) = v % (2 ^ n : Nat) := by
  rw [BitVec.toNat_ofInt, Int.toNat_of_nonneg (Int.emod_nonneg _ (by positivity))]

theorem packHeader_magnitude (f : HdrFields) : ((packHeader .magnitude f).toNat : Int) =
    (f.qmag.toNat : Int) % 64 * 1024 + signed f.dcmag f.dcsign % 1024 := by
  rw [packHeader, rlWord_toNat, Nat.cast_add, Nat.cast_mul, toNat_ofInt_eq_emod, BitVec.toNat_ofNat]
  rfl

theorem packHeader_twos (f : HdrFields) : ((packHeader .twos f).toNat : Int) =
    signed f.qmag f.qsign % 64 * 1024 + signed f.dcmag f.dcsign % 1024 := by
  rw [packHeader, rlWord_toNat, Nat.cast_add, Nat.cast_mul, toNat_ofInt_eq_emod, toNat_ofInt_eq_emod]
  rfl

/-! ### One element, with capacity left and without (R176 to R182) -/

theorem next_setEng (s : State) {g g' : Engine} (h : g = g') :
    (.next (s.setEng g) : Host.Outcome State Fault Refusal) = .next (s.setEng g') := by rw [h]

theorem header_goes {s : State} (hg : s.depackGoes) (h : BitVec 22) : s.eng.header s.rom h =
    { s.eng with
      br := s.eng.br.skip 22, rl := s.eng.rl.emit (packHeader s.rom.qscalePack (hdrFields s.rom.hdrSignFirst h))
      inBlock := true } :=
  if_pos ((depackGoes_iff s).1 hg)

theorem header_stopped {s : State} (hg : ¬ s.depackGoes) (h : BitVec 22) : s.eng.header s.rom h = s.eng :=
  if_neg fun hc => hg ((depackGoes_iff s).2 hc)

theorem rawWord_room {g : Engine} (h : g.rl.o < g.rl.cap) (w : Half) :
    g.rawWord w = { g with br := g.br.skip 16, rl := g.rl.emit w } := if_pos h

theorem rawWord_full {g : Engine} (h : g.rl.cap ≤ g.rl.o) (w : Half) : g.rawWord w = g := if_neg (Nat.not_lt.2 h)

theorem entryAc_full {g : Engine} (h : g.rl.cap ≤ g.rl.o) (x : Word) : g.entryAc x = g := by
  rw [Engine.entryAc, RlStream.emit_full _ _ h]

theorem entryEob_full {g : Engine} (h : g.rl.cap ≤ g.rl.o) : g.entryEob = { g with inBlock := false } := by
  rw [Engine.entryEob, RlStream.emit_full _ _ h]

/-- ENT_ESC reads its raw word where there is capacity for it and the chunk is admitted. -/
theorem execEntEsc_admitted {s : State} (ha : s.chunkAdmitted = true) (e : Word) :
    execEntEsc e s = .next (s.setEng (s.eng.rawWord (BitVec.ofNat 16 (nextBits s 16)))) := by
  rw [execEntEsc, if_pos (Or.inr (bitsAdmitted_of_admitted ha 16)), Engine.entryEsc, window_eq]

/-- Without capacity ENT_ESC reads no bit, so no chunk byte need be admitted. -/
theorem execEntEsc_full {s : State} (h : s.eng.rl.cap ≤ s.eng.rl.o) (e : Word) : execEntEsc e s = .next s := by
  rw [execEntEsc, if_pos (Or.inl h), Engine.entryEsc, rawWord_full h, setEng_self]

/-- Settles O32: the fields are read back, and the packed word is theirs under either packing of the scale. -/
theorem blockHeaderPacking : Obligations.BlockHeaderPacking := by
  intro s h hg qm dm qs ds hlast hfirst hq hd
  refine ⟨_, _, next_setEng s (header_goes hg h), RlStream.emit_writes _ _ hg.1, ?_⟩
  rw [hdrFields_eq hq hd hlast hfirst, ← signed_ofNat hq, ← signed_ofNat hd]
  cases s.rom.qscalePack with
  | magnitude => rw [packHeader_magnitude, BitVec.toNat_ofNat, Nat.mod_eq_of_lt hq]
  | twos => exact packHeader_twos _

/-- Settles O33: each row writes one word at the index, and an escape moves the reader past its word. -/
theorem entryEffects : Obligations.EntryEffects := by
  intro s e hroom
  have writes (w : Half) : RlWrites s.eng.rl w (s.eng.rl.emit w) := RlStream.emit_writes _ w hroom
  refine ⟨⟨_, rfl, writes _⟩, ⟨_, rfl, ?_⟩, fun ha => ⟨_, ?_, writes _⟩, fun run lvl => ⟨_, ?_, writes _⟩⟩
  · rw [← entryWord_eq]
    exact writes _
  · exact (execEntEsc_admitted ha e).trans (by rw [rawWord_room hroom]; rfl)
  · show execEscRaw run lvl s = _
    rw [execEscRaw, rlWord_ofNat, rawWord_room hroom]
    rfl

/-- Settles O34: the guard of each element, which only EOB's end of the block passes by. -/
theorem exhaustionStopsElements : Obligations.ExhaustionStopsElements := fun s h e run lvl =>
  ⟨fun hg => next_setEng s (header_stopped hg h), fun hfull =>
    ⟨next_setEng s (entryAc_full hfull e), execEntEsc_full hfull e,
      next_setEng s (rawWord_full hfull (rlWord run lvl)), next_setEng s (entryEob_full hfull)⟩⟩

/-! ### DEPACK and its errors (R171, R172) -/

theorem exec_depack_ok {s : State} {g : Engine} (h : s.depack = .ok g) : exec .depack s = .next (s.setEng g) := by
  show execDepack s = _
  rw [execDepack, h]

/-- An error of DEPACK is returned by DEPACK and by DECODE, and neither changes anything else. -/
theorem exec_depack_decode_raise {s : State} {x : CodecError} (h : s.depack = .raise x) :
    exec .depack s = .next (s.setEng { s.eng with raised := some x }) ∧
      exec .decode s = .next (s.setEng { s.eng with raised := some x }) := by
  constructor
  · show execDepack s = _
    rw [execDepack, h]
  · show execDecode s = _
    rw [execDecode, decode_raise_of_depack h]

/-- Settles O36: the error that DEPACK raises is the one both rows return. -/
theorem depackErrors : Obligations.DepackErrors := fun _ ha =>
  ⟨fun hshort => exec_depack_decode_raise (depack_short ha hshort),
    fun h8 hmagic => exec_depack_decode_raise (depack_magic ha h8 hmagic)⟩

/-! ### DEPACK of a good chunk (R170, R173 to R175, R183, R184) -/

theorem countWord_toNat (cap : Nat) : (BitVec.ofNat 16 (min cap 0xFFFF)).toNat = min cap 0xFFFF := by
  rw [BitVec.toNat_ofNat]
  omega

/-- The state DEPACK's elements start from: the reader at byte 8, words 0 and 1 written. -/
def State.depackFirst (s : State) : State := s.setEng (depackStart (chunkWord s 0) s.lLen.toNat s.eng)

/-- The state its elements leave, before the padding. -/
def State.depackLast (s : State) : State :=
  s.setEng (depackLoop s.rom s.chunk (capacity (chunkWord s 0)) s.depackFirst.eng)

theorem depackFirst_eq {s : State} (h8 : 8 ≤ s.lLen.toNat) : s.depackFirst = s.setEng { s.eng with
    br := { start := 8, pos := 0, nwords := (s.lLen.toNat - 8) / 2 }
    rl := s.depackFirst.eng.rl, inBlock := false, raised := none } := by
  have hbr : BitReader.create Config.headerBytes s.lLen.toNat =
      { start := 8, pos := 0, nwords := (s.lLen.toNat - 8) / 2 } := by
    rw [BitReader.create, Config.headerBytes, if_pos h8]
  rw [← hbr]
  rfl

theorem State.depackFirst_shape (s : State) : RlShape (capacity (chunkWord s 0))
    (BitVec.ofNat 16 (min (capacity (chunkWord s 0)) 0xFFFF)) Config.magic s.depackFirst.eng :=
  depackStart_shape _ _ _

theorem State.depackLast_shape (s : State) : RlShape (capacity (chunkWord s 0))
    (BitVec.ofNat 16 (min (capacity (chunkWord s 0)) 0xFFFF)) Config.magic s.depackLast.eng :=
  depackLoop_shape _ _ _ _ s.depackFirst_shape

/-- Between the two stand the elements of the bitstream, and `cap` passes are enough for them. -/
theorem depackRuns_first_last {s : State} (ha : s.chunkAdmitted = true) : DepackRuns s.depackFirst s.depackLast :=
  depackRuns_loop (capacity (chunkWord s 0)) s.depackFirst ha
    (by rw [s.depackFirst_shape.cap_eq]; exact Nat.sub_le _ _)

/-- DEPACK is what its elements leave, padded. -/
theorem exec_depack_good {s : State} (h : s.GoodChunk) :
    exec .depack s = .next (s.setEng { s.depackLast.eng with rl := s.depackLast.eng.rl.pad }) :=
  exec_depack_ok (depack_good h)

/-- Settles O37: the shape every pass keeps bounds the write index, from which the padding starts. -/
theorem depackIsItsElements : Obligations.DepackIsItsElements := by
  intro s h
  have hfirst := s.depackFirst_shape
  have hlast := s.depackLast_shape
  have hroom : s.depackLast.eng.rl.o ≤ s.depackLast.eng.rl.cap := hlast.cap_eq ▸ hlast.bound
  have hread := RlStream.pad_read _ hlast.length hroom
  refine ⟨s.depackFirst, s.depackLast, _, depackFirst_eq h.header_present, hfirst.cap_eq, rfl, ?_, hfirst.word1,
    depackRuns_first_last h.chunk_admitted, exec_depack_good h, rfl, rfl, RlStream.pad_o _ hroom,
    fun i hi => (hread i).trans (if_pos hi), fun i hi => (hread i).trans (if_neg (Nat.not_lt.2 hi))⟩
  rw [hfirst.word0, hfirst.cap_eq, countWord_toNat]

/-- Settles O38: the stream of a depacked chunk, and a 16-bit length bounds its capacity. -/
theorem depackedStreamShape : Obligations.DepackedStreamShape := by
  intro s h
  obtain ⟨g, hg⟩ := depack_ok h
  obtain ⟨hcap, hlength, ho, hcount, hmagic⟩ := depack_stream hg
  have hlen := chunkWord_lt s 0
  have hmax : capacity (chunkWord s 0) = max 16 (2 * chunkWord s 0) := rfl
  refine ⟨_, exec_depack_ok hg, ?_⟩
  rw [setEng_eng]
  exact ⟨hcap, by omega, by omega, hlength, ho, by rw [hcount, countWord_toNat], hmagic⟩

end Sys2Proof.Machine
end

section
/-! SUPPORT. The block decoder's rows (43_dequant_block.md R200 to R213): the tables' formulas, the effect of each RL
word, and DECODE_BLOCK as the run of its words. -/

namespace Sys2Proof.Machine

/-! ### The tables (R200, R202, R203) -/

/-- Where the product fits s32 the entry is the shift of a sum of naturals. -/
theorem aanScale_nonneg {rom : Config.Rom} {i : Fin 64}
    (h : (rom.aanF[i.val / 8] * rom.aanF[i.val % 8] : Int) + 8192 < 2 ^ 31) : 0 ≤ aanScale rom i := by
  rw [aanScale_eq rom i h]
  exact Int.fdiv_nonneg (by positivity) (by positivity)

/-- Settles O39: both formulas, the second where the first makes its factor a natural. -/
theorem iqTableValues : Obligations.IqTableValues := fun rom i =>
  ⟨one_le_iq rom i, aanScale_eq rom i, fun hp hq => iq_eq rom i (aanScale_nonneg hp) hq⟩

/-! ### A header word and EOB (R206 to R208) -/

/-- The DC of a header word is held to s32 and nothing else is (R207, R213). -/
theorem header_dc (rom : Config.Rom) (qs : BitVec 6) (dc : BitVec 10) (d : Nat) (b : Block) :
    (b.header rom qs dc d).fb[0] = s32OrDraw [] (iq rom 0 * dc.toInt) d :=
  (header_fb rom qs dc d b 0).trans (if_pos rfl)

theorem header_dc_eq {rom : Config.Rom} {dc : BitVec 10} (h1 : -2 ^ 31 ≤ iq rom 0 * dc.toInt)
    (h2 : iq rom 0 * dc.toInt < 2 ^ 31) (qs : BitVec 6) (d : Nat) (b : Block) :
    (b.header rom qs dc d).fb[0] = iq rom 0 * dc.toInt := by
  rw [header_dc, s32OrDraw_eq d (List.forall_mem_singleton.2 ⟨h1, h2⟩)]

/-- Every other coefficient of a header word is cleared (R206, R212). -/
theorem header_clears (rom : Config.Rom) (qs : BitVec 6) (dc : BitVec 10) (d : Nat) (b : Block) {i : Fin 64}
    (h : i ≠ 0) : (b.header rom qs dc d).fb[i] = 0 := by rw [header_fb, if_neg h]

/-- Settles O40: the rows write what the header and the EOB of a block are. -/
theorem headerAndEobWordEffects : Obligations.HeaderAndEobWordEffects := by
  intro s qs dc
  obtain ⟨hlo, hhi⟩ := s32OrDraw_range [] (iq s.rom 0 * dc.toInt) s.eng.draws
  rw [← header_dc s.rom qs dc s.eng.draws s.eng.blk] at hlo hhi
  exact ⟨_, rfl, rfl, fun _ hi => header_clears s.rom qs dc s.eng.draws s.eng.blk hi,
    fun h1 h2 => header_dc_eq h1 h2 qs s.eng.draws s.eng.blk, hlo, hhi⟩

/-! ### An AC word (R209 to R211) -/

/-- The coefficient of an AC word where both products fit s32; the shift brings the second only nearer to 0. -/
theorem dequant_eq {rom : Config.Rom} {qs : BitVec 6} {lvl : BitVec 10} {zz : Fin 64}
    (hp : iq rom zz * qs.toNat < 2 ^ 31) (h1 : -2 ^ 31 ≤ iq rom zz * qs.toNat * lvl.toInt)
    (h2 : iq rom zz * qs.toNat * lvl.toInt < 2 ^ 31) (d : Nat) :
    dequant rom qs lvl zz d = floorShift (iq rom zz * qs.toNat * lvl.toInt) 3 := by
  have h0 : 0 ≤ iq rom zz * (qs.toNat : Int) :=
    mul_nonneg (zero_le_one.trans (one_le_iq rom zz)) (Int.natCast_nonneg _)
  rw [← asr_eq]
  refine s32OrDraw_eq d ?_
  simp only [List.forall_mem_cons, sext10, asr, List.not_mem_nil, false_imp_iff, implies_true, and_true]
  omega

/-- Settles O41: below 64 the word sets the one coefficient at `ZIGZAG[k]`. -/
theorem acWordEffect : Obligations.AcWordEffect := by
  intro s run lvl h zz p
  have hat : (s.eng.blk.fb.set zz (dequant s.rom s.eng.blk.qs lvl zz s.eng.draws))[zz] =
      dequant s.rom s.eng.blk.qs lvl zz s.eng.draws := by rw [vector_set_get, if_pos rfl]
  refine ⟨_, next_setEng s (by rw [ac_below h]; rfl), fun i hi => ?_,
    fun hp h1 h2 => hat.trans (dequant_eq hp h1 h2 _), ?_⟩
  · rw [vector_set_get, if_neg hi.symm]
  · rw [hat]
    exact s32OrDraw_range _ _ _

/-- An AC word at `k >= 64` ends the block; only its cursor depends on KOVF_RESYNC. -/
theorem ac_overflow {rom : Config.Rom} {rl : RlStream} {run : BitVec 6} {lvl : BitVec 10} {d : Nat} {b : Block}
    (h : 64 ≤ b.k + run.toNat + 1) :
    b.ac rom rl run lvl d =
      { b with k := b.k + run.toNat + 1, c := (b.ac rom rl run lvl d).c, inside := false } := by
  rw [ac_above h]

/-- Settles O42: the skip, where there is one, ends just past the first EOB word. -/
theorem positionOverflowStops : Obligations.PositionOverflowStops := by
  intro s run lvl h
  refine ⟨(s.eng.blk.ac s.rom s.eng.rl run lvl s.eng.draws).c,
    next_setEng s (by rw [← ac_overflow h]; rfl), ?_, ?_⟩
  · intro hnone
    rw [ac_above h, hnone]
  · intro hskip
    obtain ⟨hpast, heob, hfirst, -⟩ :=
      skipToEob_spec s.eng.rl (s.eng.rl.cap - (s.eng.blk.c + 1)) (s.eng.blk.c + 1) le_rfl
    rw [ac_above h, hskip]
    exact ⟨hpast, heob, hfirst⟩

/-! ### DECODE_BLOCK (R204, R205, R212) -/

/-- DECODE_BLOCK writes the block and counts its draws. -/
theorem exec_decodeBlock (s : State) :
    exec .decodeBlock s = .next (s.setEng { s.eng with
      blk := (blockRun s.rom s.eng.rl s.eng.draws s.eng.blk).1
      draws := (blockRun s.rom s.eng.rl s.eng.draws s.eng.blk).2 }) := rfl

/-- Settles O43: the header starts at `k = 0`, so the loop's 64 passes take every AC word of the block. -/
theorem decodeBlockIsItsWords : Obligations.DecodeBlockIsItsWords := by
  intro s h
  rw [← rlHigh_eq, ← rlLow_eq]
  exact ⟨_, _, rfl, blockRuns_loop 64 _ fun _ => ⟨Nat.zero_lt_succ 63, le_rfl⟩, exec_decodeBlock s⟩

/-- The AC words of a block leave the header's DC (R212). -/
theorem blockRun_dc {rom : Config.Rom} (h : rom.wf = true) (rl : RlStream) (d : Nat) (b : Block) :
    (blockRun rom rl d b).1.fb[0] = (b.header rom (rlHigh (rl.read b.c)) (rlLow (rl.read b.c)) d).fb[0] :=
  blockLoop_induct
    (P := fun x => x.fb[0] = (b.header rom (rlHigh (rl.read b.c)) (rlLow (rl.read b.c)) d).fb[0]) rom rl
    (fun x d' hx => (acStep_dc h rl x d').trans hx) 64 (d + 1) _ rfl

/-- Settles O45: the DC stays the header's, which is exact where it fits. -/
theorem acWordsKeepDc : Obligations.AcWordsKeepDc := by
  intro s t hwf ht hlo hhi
  obtain rfl := next_inj ((exec_decodeBlock s).symm.trans ht)
  rw [← rlLow_eq] at hlo hhi ⊢
  exact (blockRun_dc hwf _ _ _).trans (header_dc_eq hlo hhi _ _ _)

theorem blockLoop_open {b : Block} (h : b.inside = true) (rom : Config.Rom) (rl : RlStream) (n d : Nat) :
    blockLoop rom rl (n + 1) d b = blockLoop rom rl n (b.acStep rom rl d).2 (b.acStep rom rl d).1 := if_pos h

theorem acStep_eob {rl : RlStream} {b : Block} (h : rl.read b.c = Config.eob) (rom : Config.Rom) (d : Nat) :
    b.acStep rom rl d = (b.eob, d) := if_pos h

/-- Past the stream's end a block is a header of scale 63 and DC -512 and then EOB (R205). -/
theorem blockRun_past {rl : RlStream} {b : Block} (h : rl.cap ≤ b.c) (rom : Config.Rom) (d : Nat) :
    blockRun rom rl d b = ((b.header rom 63 0x200 d).eob, d + 1) := by
  have hnext : rl.read (b.header rom 63 0x200 d).c = Config.eob := rl.read_past (h.trans (Nat.le_succ _))
  calc blockRun rom rl d b = blockLoop rom rl 64 (d + 1) (b.header rom 63 0x200 d) := by
        rw [blockRun, rl.read_past h]; rfl
    _ = blockLoop rom rl 63 (d + 1) (b.header rom 63 0x200 d).eob := by
        rw [blockLoop_open rfl, acStep_eob hnext]
    _ = ((b.header rom 63 0x200 d).eob, d + 1) := rfl

/-- Settles O46: the header's fields pass the EOB unchanged. -/
theorem blockPastStreamEnd : Obligations.BlockPastStreamEnd := by
  intro s hpast
  refine ⟨_, exec_decodeBlock s, ?_⟩
  rw [blockRun_past hpast]
  refine ⟨rfl, rfl, rfl, rfl, fun _ hi => header_clears s.rom 63 0x200 s.eng.draws s.eng.blk hi, fun hfits => ?_⟩
  have hiq := one_le_iq s.rom 0
  have hdc : (0x200 : BitVec 10).toInt = -512 := rfl
  rw [← hdc]
  exact header_dc_eq (by rw [hdc]; omega) (by rw [hdc]; omega) 63 s.eng.draws s.eng.blk

end Sys2Proof.Machine
end

section
/-! SUPPORT. The inverse DCT (44_idct.md R230 to R236, 43_dequant_block.md R213): what IDCT8X8 writes, a DC-only block
as a statement about integers, and the reference transform's closeness. -/

namespace Sys2Proof.Machine

/-! ### IDCT8X8 (R230, R234, R235) -/

/-- IDCT8X8 writes its spatial block and counts its draws. -/
theorem exec_idct8x8 (b : Fin 6) (s : State) :
    exec (.idct8x8 b) s = .next (s.setEng { s.eng with
      sb := s.eng.sb.set b (spatialBlock s.eng.blk.fb s.eng.draws)
      draws := s.eng.draws + 64 }) := rfl

theorem transform_sample (g : Engine) (b : Fin 6) (i : Fin 64) :
    (g.transform b).sb[b][i] = spatialSample g.blk.fb g.draws i := by
  rw [transform_get, if_pos rfl, spatialBlock_get]

theorem transform_other (g : Engine) {b c : Fin 6} (h : c ≠ b) : (g.transform b).sb[c] = g.sb[c] := by
  rw [transform_get, if_neg h.symm]

/-- A spatial sample is the transform's or a draw, and s32 either way (R213). -/
theorem spatialSample_range (fb : Vector Int 64) (d : Nat) (i : Fin 64) :
    -2 ^ 31 ≤ spatialSample fb d i ∧ spatialSample fb d i < 2 ^ 31 := s32OrDraw_range _ _ _

/-- Settles O47, sample by sample of the block written. -/
theorem transformWithinTolerance : Obligations.TransformWithinTolerance := by
  intro s b
  refine ⟨(s.eng.transform b).sb, exec_idct8x8 b s, fun c hc => transform_other s.eng hc, fun i => ?_⟩
  rw [transform_sample]
  exact ⟨spatialSample_close _ _ i, spatialSample_range _ _ i⟩

/-! ### A block with only a DC (R236) -/

/-- Being within 1 of an eighth, as a bound on integers. -/
theorem abs_eight_mul_sub_lt {x z : Int} (h : |(x : ℝ) - (z : ℝ) / 8| < 1) : |8 * x - z| < 8 := by
  have hscaled : |8 * (x : ℝ) - (z : ℝ)| < 8 := by
    rw [abs_lt] at h ⊢
    constructor <;> linarith
  exact_mod_cast hscaled

/-- Under an s32 DC the exact sample `FB[0] / 8` fits, so the tolerance holds. -/
theorem spatialSample_dc {fb : Vector Int 64} (h : ∀ i : Fin 64, i ≠ 0 → fb[i] = 0) (hlo : -2 ^ 31 ≤ fb[0])
    (hhi : fb[0] < 2 ^ 31) (d : Nat) (i : Fin 64) : |8 * spatialSample fb d i - fb[0]| < 8 := by
  have hreal : Config.idctReal (fun j => fb[j]) i = (fb[0] : ℝ) / 8 := idctReal_dc h i
  have hlo' : (-2 ^ 31 : ℝ) ≤ fb[0] := by exact_mod_cast hlo
  have hhi' : (fb[0] : ℝ) < 2 ^ 31 := by exact_mod_cast hhi
  have hfits : |Config.idctReal (fun j => fb[j]) i| ≤ 2 ^ 31 - 1 := by
    rw [hreal, abs_le]
    constructor <;> linarith
  have hclose := spatialSample_close fb d i hfits
  rw [hreal] at hclose
  exact abs_eight_mul_sub_lt hclose

/-- Settles O48: a multiple of 8 less than 8 from another is that one, and two such samples are less than 2 apart. -/
theorem dcOnlyBlockWithinOneOfDc : Obligations.DcOnlyBlockWithinOneOfDc := by
  intro s b hzero hlo hhi
  refine ⟨s.setEng (s.eng.transform b), rfl, fun i => ?_⟩
  have hdc : ∀ j : Fin 64, |8 * (s.eng.transform b).sb[b][j] - s.eng.blk.fb[0]| < 8 := fun j => by
    rw [transform_sample]
    exact spatialSample_dc hzero hlo hhi _ j
  refine ⟨hdc i, fun hdvd => ?_, fun j => ?_⟩
  · exact sub_eq_zero.1 (Int.eq_zero_of_abs_lt_dvd (dvd_sub (dvd_mul_right 8 _) hdvd) (hdc i))
  · have hi := abs_lt.1 (hdc i)
    have hj := abs_lt.1 (hdc j)
    show |(s.eng.transform b).sb[b][i] - (s.eng.transform b).sb[b][j]| ≤ 1
    rw [abs_le]
    omega

/-! ### The reference transform (R233, R234) -/

/-- Settles O49: rounding moves the exact sample by at most 1/2, and `IDCT_TOL` is 1. -/
theorem referenceTransformIsClose : Obligations.ReferenceTransformIsClose := by
  intro ties fb i
  calc |(Config.refIdct ties fb i : ℝ) - Config.idctReal fb i|
      ≤ 1 / 2 := roundReal_close ties _
    _ < (Config.idctTol : ℝ) := by norm_num [Config.idctTol]

end Sys2Proof.Machine
end

section
/-! SUPPORT. The macroblock assembler (45_macroblock_color.md R250 to R257): the three channels as statements about
integers, and what RENDER_MB puts at one pixel. -/

namespace Sys2Proof.Machine

/-! ### The channels (R254, R255) -/

/-- A channel, with its intermediates in the order they are computed. -/
theorem channel_of_fits {exact : List Int} {v : Int} (d : Nat)
    (h : ∀ z ∈ exact ++ [v, v + 128], -2 ^ 31 ≤ z ∧ z < 2 ^ 31) :
    ((channel exact v d).toNat : Int) = min (max (v + 128) 0) 255 := by
  have hperm : ((v + 128) :: v :: exact).Perm (exact ++ [v, v + 128]) :=
    (List.Perm.swap v (v + 128) exact).trans (List.perm_append_comm (l₁ := [v, v + 128]))
  exact channel_toNat d fun z hz => h z (hperm.mem_iff.1 hz)

theorem blue_of_fits {l cb : Int} (d : Nat)
    (h : ∀ z ∈ [1815 * cb, l + floorShift (1815 * cb) 10, l + floorShift (1815 * cb) 10 + 128],
      -2 ^ 31 ≤ z ∧ z < 2 ^ 31) :
    ((blue l cb d).toNat : Int) = min (max (l + floorShift (1815 * cb) 10 + 128) 0) 255 := by
  rw [← asr_eq] at h ⊢
  exact channel_of_fits (exact := [_]) d h

theorem red_of_fits {l cr : Int} (d : Nat)
    (h : ∀ z ∈ [1436 * cr, l + floorShift (1436 * cr) 10, l + floorShift (1436 * cr) 10 + 128],
      -2 ^ 31 ≤ z ∧ z < 2 ^ 31) :
    ((red l cr d).toNat : Int) = min (max (l + floorShift (1436 * cr) 10 + 128) 0) 255 := by
  rw [← asr_eq] at h ⊢
  exact channel_of_fits (exact := [_]) d h

theorem green_of_fits {l cb cr : Int} (d : Nat)
    (h : ∀ z ∈ [352 * cb, 731 * cr, 352 * cb + 731 * cr, l - floorShift (352 * cb + 731 * cr) 10,
      l - floorShift (352 * cb + 731 * cr) 10 + 128], -2 ^ 31 ≤ z ∧ z < 2 ^ 31) :
    ((green l cb cr d).toNat : Int) = min (max (l - floorShift (352 * cb + 731 * cr) 10 + 128) 0) 255 := by
  rw [← asr_eq] at h ⊢
  exact channel_of_fits (exact := [_, _, _]) d h

/-! ### One pixel of the tile (R250 to R253, R256) -/

/-- The Cb sample of pixel `(x, y)`, of block V under CHROMA_SWAP and of block U otherwise (R251, R252). -/
def cbSample (rom : Config.Rom) (g : Engine) (y x : Fin 16) : Int :=
  if rom.chromaSwap then g.sb[1][chromaIndex y x] else g.sb[0][chromaIndex y x]

/-- The Cr sample of pixel `(x, y)`, of the other chroma block (R251, R252). -/
def crSample (rom : Config.Rom) (g : Engine) (y x : Fin 16) : Int :=
  if rom.chromaSwap then g.sb[0][chromaIndex y x] else g.sb[1][chromaIndex y x]

/-- RENDER_MB writes the tile and counts its draws. -/
theorem exec_renderMb (s : State) :
    exec .renderMb s =
      .next (s.setEng { s.eng with px := (s.eng.render s.rom).px, draws := s.eng.draws + 768 }) := rfl

/-- A pixel is the conversion of its luma and chroma samples, whatever the draws. -/
theorem render_pixel (rom : Config.Rom) (g : Engine) (y x : Fin 16) :
    ∃ d, (g.render rom).px[y][x] =
      { b := blue (lumaSample g y x) (cbSample rom g y x) d
        g := green (lumaSample g y x) (cbSample rom g y x) (crSample rom g y x) (d + 1)
        r := red (lumaSample g y x) (crSample rom g y x) (d + 2) } := by
  have hcb : g.sb[cbBlock rom][chromaIndex y x] = cbSample rom g y x := chroma_eq _ _ _ _ _
  have hcr : g.sb[crBlock rom][chromaIndex y x] = crSample rom g y x := chroma_eq _ _ _ _ _
  refine ⟨g.draws + 3 * (16 * y.val + x.val), ?_⟩
  rw [← luma_eq, ← hcb, ← hcr]
  exact pixel_get rom g.sb g.draws y x

/-- Settles O50: the three channels of each pixel, from its samples. -/
theorem renderedPixels : Obligations.RenderedPixels := by
  intro s
  refine ⟨_, exec_renderMb s, fun y x => ?_⟩
  obtain ⟨d, hpixel⟩ := render_pixel s.rom s.eng y x
  rw [hpixel]
  exact ⟨red_of_fits _, green_of_fits _, blue_of_fits _⟩

/-! ### Zero chroma (R257) -/

section ZeroProducts
variable {l : Int} (hlo : -2 ^ 31 ≤ l) (hhi : l + 128 < 2 ^ 31)
include hlo hhi

/-- Where every product is 0, only the luma sample has to fit. -/
theorem fits_of_zero {exact : List Int} (hexact : ∀ z ∈ exact, z = 0) :
    ∀ z ∈ (l + 128) :: l :: exact, -2 ^ 31 ≤ z ∧ z < 2 ^ 31 := by
  refine List.forall_mem_cons.2 ⟨by omega, List.forall_mem_cons.2 ⟨by omega, fun z hz => ?_⟩⟩
  rw [hexact z hz]
  decide

/-- The byte of a channel whose products are all 0: the luma sample alone, offset and clamped. -/
theorem channel_of_zero {exact : List Int} (hexact : ∀ z ∈ exact, z = 0) (d : Nat) :
    channel exact l d = channel [] l 0 := by
  rw [channel_eq d (fits_of_zero hlo hhi hexact), channel_eq 0 (fits_of_zero hlo hhi (List.forall_mem_nil _))]

theorem blue_zero (d : Nat) : blue l 0 d = channel [] l 0 := by
  change channel [0] (l + 0) d = _
  rw [add_zero, channel_of_zero hlo hhi (by simp)]

theorem green_zero (d : Nat) : green l 0 0 d = channel [] l 0 := by
  change channel [0, 0, 0] (l - 0) d = _
  rw [sub_zero, channel_of_zero hlo hhi (by simp)]

theorem red_zero (d : Nat) : red l 0 d = channel [] l 0 := by
  change channel [0] (l + 0) d = _
  rw [add_zero, channel_of_zero hlo hhi (by simp)]

end ZeroProducts

section ZeroChroma
variable {s : State} (hchroma : ∀ i : Fin 64, s.eng.sb[0][i] = 0 ∧ s.eng.sb[1][i] = 0)
include hchroma

theorem cbSample_zero (y x : Fin 16) : cbSample s.rom s.eng y x = 0 := by
  rw [cbSample, (hchroma _).1, (hchroma _).2, ite_self]

theorem crSample_zero (y x : Fin 16) : crSample s.rom s.eng y x = 0 := by
  rw [crSample, (hchroma _).1, (hchroma _).2, ite_self]

/-- Under zero chroma all three channels are one byte. -/
theorem render_zero_chroma {y x : Fin 16} (hlo : -2 ^ 31 ≤ lumaSample s.eng y x)
    (hhi : lumaSample s.eng y x + 128 < 2 ^ 31) :
    ∃ v : Byte, (s.eng.render s.rom).px[y][x] = ⟨v, v, v⟩ ∧
      (v.toNat : Int) = min (max (lumaSample s.eng y x + 128) 0) 255 := by
  obtain ⟨d, hpixel⟩ := render_pixel s.rom s.eng y x
  rw [cbSample_zero hchroma, crSample_zero hchroma, blue_zero hlo hhi, green_zero hlo hhi, red_zero hlo hhi] at hpixel
  exact ⟨_, hpixel, channel_toNat 0 (fits_of_zero hlo hhi (List.forall_mem_nil _))⟩

end ZeroChroma

theorem lumaSample_zero {g : Engine} (h : ∀ (q : Fin 6) (j : Fin 64), g.sb[q][j] = 0) (y x : Fin 16) :
    lumaSample g y x = 0 := (luma_eq g y x).symm.trans (h _ _)

/-- Settles O51: the pixels are grey at `clamp(L + 128, 0, 255)`, and a zero luma makes that 128. -/
theorem zeroChromaIsGrey : Obligations.ZeroChromaIsGrey := by
  intro s hchroma
  refine ⟨_, exec_renderMb s, fun y x hlo hhi => ?_, fun hzero y x => ?_⟩
  · obtain ⟨v, hpixel, hv⟩ := render_zero_chroma hchroma hlo hhi
    rw [setEng_eng, hpixel]
    exact ⟨hv, rfl, rfl⟩
  · have hluma := lumaSample_zero hzero y x
    obtain ⟨v, hpixel, hv⟩ := render_zero_chroma hchroma (y := y) (x := x) (by omega) (by omega)
    have h128 : v = 128 := BitVec.eq_of_toNat_eq (by rw [hluma] at hv; exact Int.ofNat_inj.1 hv)
    rw [setEng_eng, hpixel, h128]

end Sys2Proof.Machine
end

section
/-! SUPPORT. The frame compositor (46_frame_compositor.md R270 to R282): what DECODE and COMPLETE answer in each case,
the frame that a decode leaves, and what its bytes depend on. -/

namespace Sys2Proof.Machine

/-! ### What DECODE answers (R270, R271, R281) -/

theorem exec_decode_ok {s : State} {p : Engine × Memory} (h : s.decode = .ok p) :
    exec .decode s = .next { s with eng := p.1, mem := p.2 } := by
  show execDecode s = _
  rw [execDecode, h]

theorem exec_decode_raise {s : State} {x : CodecError} (h : s.decode = .raise x) :
    exec .decode s = .next (s.setEng { s.eng with raised := some x }) := by
  show execDecode s = _
  rw [execDecode, h]

theorem exec_decode_refuse {s : State} {r : Refusal} (h : s.decode = .refuse r) : exec .decode s = .refused r := by
  show execDecode s = _
  rw [execDecode, h]

/-- Settles O23: DECODE and COMPLETE both give the answer of the one limit check. -/
theorem dimensionsAboveLimitRefused : Obligations.DimensionsAboveLimitRefused := by
  intro s hchunk hw hh hlimit
  obtain ⟨g, hg⟩ := depack_ok hchunk
  have hrefuse := decode_limits hg hw hh hlimit
  exact ⟨exec_decode_refuse hrefuse, fun hb => complete_refuse hb hrefuse⟩

/-! ### Each byte of the pixel range once (R280) -/

/-- Settles O54: the addresses written and the pixel range have the same members, and neither list repeats one. -/
theorem everyPixelByteWrittenOnce : Obligations.EveryPixelByteWrittenOnce := by
  intro w h dst st
  have hnodup : ((frameCells dst w h (sliceCount w) st).map Prod.fst).Nodup := frameCells_nodup _ _ _ _ _
  refine (List.perm_ext_iff_of_nodup hnodup List.nodup_range').2 fun a => ?_
  rw [mem_frameAddrs, List.mem_range'_1]

/-! ### The frame of a decode (R273 to R279) -/

/-- What DECODE leaves in memory is the frame of the depacked stream. -/
theorem frameIn_of_decode {s : State} {p : Engine × Memory} (h : s.decode = .ok p) (hm : s.mem.wf) {g : Engine}
    (hg : s.depack = .ok g) : s.FrameIn (s.setEng g) p.2 :=
  fun _ _ hx hy => ⟨_, exec_macroblocks _ _, decode_pixel h hm hg hx hy⟩

/-- Settles O52: what DECODE writes and its frame on the one side, the check of the dimensions on the other. -/
theorem decodeOperation : Obligations.DecodeOperation := by
  refine fun s => ⟨fun hs => ?_, fun hchunk hsize => ?_⟩
  · obtain ⟨g, hg⟩ := depack_ok hs.chunk
    have hd := decode_good hs hg
    exact ⟨_, _, exec_decode_ok hd, rfl, (decode_mem hd).2, exec_depack_ok hg, fun hm => frameIn_of_decode hd hm hg⟩
  · obtain ⟨g, hg⟩ := depack_ok hchunk
    exact exec_decode_raise (decode_dimensions hg hsize)

/-- Where nothing raced, COMPLETE leaves the memory of DECODE. -/
theorem complete_mem_unraced {s t : State} (hb : s.busy = true) (hs : s.Decodable) (hu : s.Unraced)
    (ht : exec .complete s = .next t) : ∃ p, s.decode = .ok p ∧ t.mem = p.2 := by
  obtain ⟨g, hg⟩ := depack_ok hs.chunk
  have hd := decode_good hs hg
  obtain rfl := next_inj ((complete_ok hb hd).symm.trans ht)
  refine ⟨_, hd, ?_⟩
  rw [reportSuccess_mem, endDecode_unraced hu]

/-- Settles O53: COMPLETE leaves DECODE's memory, and that holds the frame. -/
theorem framePixelPlacement : Obligations.FramePixelPlacement := by
  intro s t d hb hs hu hm ht hdep
  obtain ⟨p, hd, hmem⟩ := complete_mem_unraced hb hs hu ht
  obtain ⟨g, hg⟩ := depack_ok hs.chunk
  obtain rfl := next_inj ((exec_depack_ok hg).symm.trans hdep)
  rw [hmem]
  exact frameIn_of_decode hd hm hg

/-! ### What the bytes of a frame depend on (R282, R41) -/

/-- Every byte of a frame is a channel of one of its pixels. -/
theorem exists_pixel_of_lt {w h i : Nat} (hi : i < 3 * w * h) :
    ∃ x y c, x < w ∧ y < h ∧ c < 3 ∧ i = 3 * (y * w + x) + c := by
  obtain ⟨cell, hcell, haddr⟩ := List.mem_map.1
    ((mem_frameAddrs (dst := 0) (st := fun _ => [])).2 ⟨Nat.zero_le i, by rwa [Nat.zero_add]⟩)
  obtain ⟨j, y, x, _, hy, _, hx, hcell⟩ := mem_frameCells.1 hcell
  obtain ⟨c, hc, hoff⟩ := mem_pixelCells hcell
  refine ⟨16 * j + x, y, c, hx, hy, hc, ?_⟩
  rw [← haddr, hoff, pixelAddr, Nat.zero_add]

/-- The three bytes at an address are those of a pixel, blue first (R66). -/
def Memory.HoldsPixel (m : Memory) (a : Nat) (q : Pixel) : Prop :=
  m.read a = q.b ∧ m.read (a + 1) = q.g ∧ m.read (a + 2) = q.r

theorem Memory.HoldsPixel.read_eq {m m' : Memory} {a a' : Nat} {q : Pixel} (h : m.HoldsPixel a q)
    (h' : m'.HoldsPixel a' q) {c : Nat} (hc : c < 3) : m.read (a + c) = m'.read (a' + c) := by
  obtain ⟨hb, hg, hr⟩ := h
  obtain ⟨hb', hg', hr'⟩ := h'
  match c, hc with
  | 0, _ => exact hb.trans hb'.symm
  | 1, _ => exact hg.trans hg'.symm
  | 2, _ => exact hr.trans hr'.symm

theorem chunk_ext {s s' : State} (h : ∀ i, chunkByte s i = chunkByte s' i) : s.chunk = s'.chunk :=
  funext fun i => BitVec.eq_of_toNat_eq (by rw [chunk_toNat, chunk_toNat, h i])

/-- Pixel `(x, y)` of a frame `h` rows high whose first macroblock is decoded from engine `g` (R273 to R278). -/
def framePixel (rom : Config.Rom) (h : Nat) (g : Engine) (x y : Nat) : Pixel :=
  (macroblocksFrom rom (x / 16 * macroblockRows h + (h - 1 - y) / 16 + 1) g).px[mod16 (h - 1 - y)][mod16 x]

/-- Memory after DECODE, pixel by pixel. -/
theorem decode_holdsPixel {s : State} {p : Engine × Memory} (h : s.decode = .ok p) (hm : s.mem.wf) {g : Engine}
    (hg : s.depack = .ok g) {x y : Nat} (hx : x < s.lW.toNat) (hy : y < s.lH.toNat) :
    p.2.HoldsPixel (s.lDst.toNat + 3 * (y * s.lW.toNat + x))
      (framePixel s.rom s.lH.toNat (s.setEng g).atFirstBlock.eng x y) :=
  decode_pixel h hm hg hx hy

theorem framePixel_same (rom : Config.Rom) (h : Nat) {a b : Engine} (hab : SameInput a b) (x y : Nat) :
    framePixel rom h a x y = framePixel rom h b x y := by
  rw [framePixel, framePixel, macroblocksFrom_px rom hab]

/-- Equal chunks and draw counters give the first macroblock equal inputs. -/
theorem atFirstBlock_same {s s' : State} {g g' : Engine} (hg : s.depack = .ok g) (hg' : s'.depack = .ok g')
    (hrom : s.rom = s'.rom) (hlen : s.lLen = s'.lLen) (hchunk : s.chunk = s'.chunk)
    (hdraws : s.eng.draws = s'.eng.draws) :
    SameInput (s.setEng g).atFirstBlock.eng (s'.setEng g').atFirstBlock.eng where
  rl := (depack_congr hg hg' hrom hlen hchunk :)
  c := rfl
  draws := ((depack_same hg).draws.trans hdraws).trans (depack_same hg').draws.symm

/-- Settles O55: both decodes put the same pixels, from equal streams and draw counters. -/
theorem decodeIsDeterministic : Obligations.DecodeIsDeterministic := by
  intro s s' t t' hb hs hu hm hb' hs' hu' hm' hrom hlen hw hh hdraws hchunk ht ht' i hi
  obtain ⟨p, hd, hmem⟩ := complete_mem_unraced hb hs hu ht
  obtain ⟨p', hd', hmem'⟩ := complete_mem_unraced hb' hs' hu' ht'
  obtain ⟨g, hg⟩ := depack_ok hs.chunk
  obtain ⟨g', hg'⟩ := depack_ok hs'.chunk
  have hsame := atFirstBlock_same hg hg' hrom hlen (chunk_ext hchunk) hdraws
  obtain ⟨x, y, c, hx, hy, hc, rfl⟩ := exists_pixel_of_lt hi
  have hpixel := decode_holdsPixel hd hm hg hx hy
  have hpixel' := decode_holdsPixel hd' hm' hg' (hw ▸ hx) (hh ▸ hy)
  rw [framePixel_same s.rom _ hsame, hrom, hh, hw] at hpixel
  rw [hmem, hmem', hw, ← Nat.add_assoc, ← Nat.add_assoc]
  exact hpixel.read_eq hpixel' hc

end Sys2Proof.Machine
end

section
/-! SUPPORT. The host interface (47_host_interface.md R300 to R308): which accesses to the window are admitted, what
each register read returns and each register write changes, and the reset from any state. -/

namespace Sys2Proof.Machine

/-! ### Accesses to the register window (R301, R108) -/

theorem step_busAccess {s : State} {write : Bool} {width addr : Nat} {d : Word} {rest : List Event}
    (h : s.inbox = .busAccess write width addr d :: rest) {record : List Byte}
    (hr : s.busRecord write width addr d = some record) : step s = runRecord record { s with inbox := rest } := by
  have hr' : ({ s with inbox := rest } : State).busRecord write width addr d = some record := hr
  simp only [step, h, runEvent, hr']

theorem runRecord_ok {record : List Byte} {i : Instr} (h : Sys2Proof.decode record = .ok i []) (s : State) :
    runRecord record s = exec i s := by
  rw [runRecord, h]

theorem runRecord_reject {record : List Byte} {e : DecodeError} (h : Sys2Proof.decode record = .reject e) (s : State) :
    runRecord record s = .refused (.badRecord e) := by
  rw [runRecord, h]

/-- The record of a host access, to the register at an offset in the window. -/
def accessRecord (write : Bool) (width off : Byte) (d : Word) : List Byte :=
  if write then hostWriteRecord width off d else [layerHostRead, width, off]

theorem busRecord_window (s : State) (write : Bool) (width : Nat) {off : Nat} (h : off < 0x40) (d : Word) :
    s.busRecord write width (s.rom.regBase + off) d =
      some (accessRecord write (BitVec.ofNat 8 (min width 255)) (BitVec.ofNat 8 off) d) := by
  rw [State.busRecord, if_pos (by omega), Nat.add_sub_cancel_left]
  rfl

theorem decode_accessRecord_admitted {off : Byte} (h : registerOffset off = true) (write : Bool) (d : Word) :
    Sys2Proof.decode (accessRecord write accessWidth off d) =
      .ok (if write then writeInstr off d else .rdReg off) [] := by
  cases write with
  | true => exact decode_hostWrite h d
  | false => exact decode_encode (.rdReg off) h

theorem decode_accessRecord_reject {width off : Byte} {e : DecodeError} (h : accessError width off = some e)
    (write : Bool) (d : Word) : Sys2Proof.decode (accessRecord write width off d) = .reject e := by
  cases write with
  | true =>
    show decodeHostWrite (width :: off :: bytesLE d.toNat 4) = _
    simp [bytesLE, decodeHostWrite, h]
  | false =>
    show decodeHostRead [width, off] = _
    simp [decodeHostRead, h]

theorem registerOffset_ofNat {off : Nat} (h : off < 0x40) (h4 : off % 4 = 0) :
    registerOffset (BitVec.ofNat 8 off) = true := by
  simp only [registerOffset, BitVec.toNat_ofNat, Bool.and_eq_true, decide_eq_true_eq]
  omega

/-- The width byte of an access is that of 32 bits for a 32-bit access only: a wider one never wraps around to it. -/
theorem widthByte_eq_iff (width : Nat) : BitVec.ofNat 8 (min width 255) = accessWidth ↔ width = 4 := by
  rw [← BitVec.toNat_inj, BitVec.toNat_ofNat, accessWidth, show (0x04 : Byte).toNat = 4 from rfl]
  omega

theorem accessError_notAdmitted {width off : Nat} (h : off < 0x40) (hn : ¬ (width = 4 ∧ off % 4 = 0)) :
    accessError (BitVec.ofNat 8 (min width 255)) (BitVec.ofNat 8 off) = some .accessNotAdmitted := by
  have hoff : (BitVec.ofNat 8 off).toNat = off := by
    rw [BitVec.toNat_ofNat]
    omega
  rw [accessError, if_pos]
  rw [hoff, ne_eq, widthByte_eq_iff]
  omega

theorem exec_ctrlInstr_goesOn (d : Word) (s : State) : goesOn (exec (ctrlInstr d) s) := by
  unfold ctrlInstr
  split_ifs <;> exact ⟨_, rfl⟩

/-- Every admitted write completes. -/
theorem exec_writeInstr_goesOn {off : Byte} (h : registerOffset off = true) (d : Word) (s : State) :
    goesOn (exec (writeInstr off d) s) := by
  rcases writeInstr_cases h d with h | h | h | h | h | h | h | ⟨h, hr⟩ <;> rw [h]
  · exact exec_ctrlInstr_goesOn d s
  iterate 6 · exact ⟨_, rfl⟩
  · exact ⟨_, exec_wrReserved s hr d⟩

/-- Every admitted access completes. -/
theorem exec_access_goesOn {off : Byte} (h : registerOffset off = true) (write : Bool) (d : Word) (s : State) :
    goesOn (exec (if write then writeInstr off d else .rdReg off) s) := by
  cases write with
  | true => exact exec_writeInstr_goesOn h d s
  | false => exact ⟨_, exec_rdReg s h⟩

/-- Settles O3: the decoder reads the record of an admitted access back and rejects every other. -/
theorem windowAccessAdmission : Obligations.WindowAccessAdmission := by
  intro s write width off d rest hi hoff
  have hstep := step_busAccess hi (busRecord_window s write width hoff d)
  refine ⟨fun ⟨hw, h4⟩ => ?_, fun hn => ?_⟩
  · have hreg := registerOffset_ofNat hoff h4
    rw [(widthByte_eq_iff width).2 hw, runRecord_ok (decode_accessRecord_admitted hreg write d)] at hstep
    exact ⟨hstep, hstep ▸ exec_access_goesOn hreg write d _⟩
  · rw [hstep, runRecord_reject (decode_accessRecord_reject (accessError_notAdmitted hoff hn) write d)]

/-! ### What a register read returns (R300) -/

theorem ctrlWord_toNat (s : State) : (ctrlWord s).toNat = 4 * s.irqEn.toNat := by
  unfold ctrlWord
  cases s.irqEn <;> rfl

theorem statusWord_toNat (s : State) :
    (statusWord s).toNat = 16 * s.errCode.toNat + 4 * s.err.toNat + 2 * s.done.toNat + s.busy.toNat := by
  have h : ∀ (c : BitVec 4) (e d b : Bool),
      ((c.setWidth 32 <<< 4) ||| (bit e <<< 2) ||| (bit d <<< 1) ||| bit b : Word).toNat =
        16 * c.toNat + 4 * e.toNat + 2 * d.toNat + b.toNat := by decide
  exact h s.errCode s.err s.done s.busy

/-- While BUSY no report stands (R23), so STATUS shows BUSY alone. -/
theorem statusWord_busy {s : State} (h : s.Inv) (hb : s.busy = true) : statusWord s = 0x1 := by
  obtain ⟨hd, he⟩ := h.busy_clears hb
  rw [statusWord, h.code_clear he, he, hd, hb]
  rfl

/-- After reset every register reads 0. -/
theorem readReg_reset (off : Byte) : State.reset.readReg off = 0 := by
  unfold State.readReg
  split_ifs <;> rfl

theorem readReg_toNat (s : State) (off : Byte) : (s.readReg off).toNat =
    (if off = 0x00 then 4 * s.irqEn.toNat
     else if off = 0x04 then 16 * s.errCode.toNat + 4 * s.err.toNat + 2 * s.done.toNat + s.busy.toNat
     else if off = 0x08 then s.srcAddr.toNat
     else if off = 0x0C then s.srcLen.toNat
     else if off = 0x10 then s.width.toNat
     else if off = 0x14 then s.height.toNat
     else if off = 0x18 then s.dstAddr.toNat
     else 0) := by
  rw [← ctrlWord_toNat, ← statusWord_toNat, State.readReg]
  simp only [apply_ite BitVec.toNat, BitVec.ofNat_eq_ofNat, BitVec.toNat_zero]

/-- A read that shows DONE changes what the host has seen and nothing else. -/
theorem seeDone_eq (s : State) (off : Byte) :
    s.seeDone off = { s with unseen := (s.seeDone off).unseen, unseenOld := (s.seeDone off).unseenOld } := by
  unfold State.seeDone
  split <;> rfl

/-- Settles O13: the value is the register's, the frame that of seeing DONE. -/
theorem registerRead : Obligations.RegisterRead := by
  refine ⟨fun s off h => ⟨_, exec_rdReg s h, readReg_toNat s off, ?_, ?_⟩,
    fun off h => ⟨_, exec_rdReg _ h, readReg_reset off⟩⟩
  · exact congrArg (fun t : State => { t with hostData := s.readReg off }) (seeDone_eq s off)
  · rintro hinv hb rfl
    exact statusWord_busy hinv hb

/-! ### Reset (R304, R370) -/

theorem step_powerOnReset {s : State} {rest : List Event} (h : s.inbox = .powerOnReset :: rest) :
    step s = .next ({ s with inbox := rest } : State).resetAll := by
  unfold step
  rw [h]
  rfl

/-- Settles O11: both resets are the one operation, which leaves the reset state's registers. -/
theorem resetFromAnyState : Obligations.ResetFromAnyState := by
  intro s d _
  obtain ⟨g, old, ht⟩ := resetAll_eq s
  refine ⟨fun rest h => step_powerOnReset h, s.abandon.mem, g, old, s.resetAll, rfl, ht, irq_of_not_done rfl,
    fun hb => congrArg State.mem (abandon_idle hb), fun off hoff => ⟨_, exec_rdReg _ hoff, ?_⟩⟩
  rw [ht]
  exact readReg_reset off

/-! ### START (R302, R303) -/

/-- A START while BUSY is ignored; the write still sets IRQ_EN. -/
theorem exec_ctrlStart_busy {s : State} (hb : s.busy = true) (d : Word) :
    exec (.ctrlStart d) s = .next (s.setIrqEn d) := by
  show execCtrlStart d s = _
  rw [execCtrlStart, if_pos hb]

/-- Settles O15: ignored while BUSY, else the accepted START. -/
theorem startDecode : Obligations.StartDecode := fun s d _ _ =>
  ⟨fun hb => exec_ctrlStart_busy hb d,
    fun hb => ⟨_, (s.setIrqEn d).leaveUnseen.unseenOld, exec_ctrlStart_idle hb d, rfl, irq_of_not_done rfl⟩⟩

/-- Settles O14: IRQ_EN is set whether the START is taken or not, and the reset does not look at the data. -/
theorem writeCtrl : Obligations.WriteCtrl := by
  refine fun s d => ⟨fun _ _ => rfl, fun _ _ => ?_, fun _ => rfl⟩
  cases hb : s.busy with
  | true => exact ⟨_, exec_ctrlStart_busy hb d, rfl⟩
  | false => exact ⟨_, exec_ctrlStart_idle hb d, rfl⟩

/-! ### STATUS and the parameters (R306, R307) -/

theorem acknowledge_eq (s : State) (cd ce : Bool) : s.acknowledge cd ce =
    { s with
      done := if cd then false else s.done
      err := if ce then false else s.err
      errCode := if ce then 0 else s.errCode } := by
  cases cd <;> cases ce <;> simp [State.acknowledge]

/-- With no report standing there is nothing to acknowledge. -/
theorem acknowledge_nothing {s : State} (hd : s.done = false) (he : s.err = false) (hc : s.errCode = 0) (cd ce : Bool) :
    s.acknowledge cd ce = s := by
  have hdone : (if cd then false else s.done) = s.done := by rw [hd, ite_self]
  have herr : (if ce then false else s.err) = s.err := by rw [he, ite_self]
  have hcode : (if ce then 0 else s.errCode) = s.errCode := by rw [hc, ite_self]
  rw [acknowledge_eq, hdone, herr, hcode]

/-- Settles O16: the write is the acknowledgement, and while BUSY no report stands. -/
theorem acknowledgeStatus : Obligations.AcknowledgeStatus := by
  refine fun s d => ⟨_, rfl, acknowledge_eq s _ _, fun h => irq_of_not_done ?_, fun hinv hb => ?_⟩
  · rw [acknowledge_done, h]
    simp
  · obtain ⟨hd, he⟩ := hinv.busy_clears hb
    exact acknowledge_nothing hd he (hinv.code_clear he) _ _

/-- Settles O17: each write is the update of its one field. -/
theorem writeParameters : Obligations.WriteParameters := fun _ _ => ⟨rfl, rfl, rfl, rfl, rfl⟩

/-! ### Nothing presented (R308, R310, R348) -/

theorem step_nothing {s : State} (h : s.inbox = []) : step s = if s.busy then exec .complete s else .next s := by
  unfold step
  rw [h]

/-- Settles O2: BUSY decides whether the engine has a step. -/
theorem stepWithNothingPresented : Obligations.StepWithNothingPresented := by
  refine fun s h => ⟨fun hb => ?_, fun hb => ⟨?_, complete_idle hb⟩⟩
  · rw [step_nothing h, if_pos hb]
  · rw [step_nothing h, hb]
    rfl

end Sys2Proof.Machine
end

section
/-! SUPPORT. The end of a decode (60_exceptions.md R332 to R337), and reset and hazards (70_reset_and_hazards.md R371,
R373, R384): what COMPLETE reports, what a reset while BUSY leaves in memory, how far one block reads, and the reset
state. -/

namespace Sys2Proof.Machine

/-! ### COMPLETE with success (R333, R76) -/

theorem inPixels_of_mem_pixelAddrs {s : State} {a : Nat} (h : a ∈ s.pixelAddrs) : s.inPixels a = true :=
  inPixels_iff.2 (mem_pixelAddrs.1 h).1

/-- The pixel range by its formula, where there is one. -/
theorem inPixels_iff_of_goodSize {s : State} (h : s.GoodSize) {a : Nat} : s.inPixels a = true ↔
    s.lDst.toNat ≤ a ∧ a < s.lDst.toNat + 3 * s.lW.toNat * s.lH.toNat := by
  rw [inPixels_iff, pixelBytes_of_pos h.width_positive h.height_positive]

/-- Settling the races changes no byte outside the pixel range, where every noted byte lies inside it. -/
theorem settleRaces_read_other {s : State} (hx : ∀ b ∈ s.pixRaced, s.inPixels b = true) {a : Nat}
    (ha : ¬ s.inPixels a = true) : s.settleRaces.mem.read a = s.mem.read a := by
  unfold State.settleRaces
  split
  · exact scribble_read_other s fun h => ha (inPixels_of_mem_pixelAddrs h)
  · exact scribble_read_other s fun h => ha (hx a h)

theorem endDecode_read_other {s : State} (hx : ∀ b ∈ s.pixRaced, s.inPixels b = true) (g : Engine) (m : Memory)
    {a : Nat} (ha : ¬ s.inPixels a = true) : (s.endDecode g m).mem.read a = m.read a :=
  settleRaces_read_other (s := { s with eng := g, mem := m }) hx ha

/-- STATUS after a success under the invariant: BUSY was 1, so no error stood (R23). -/
theorem statusWord_reportSuccess {s : State} (hinv : s.Inv) (hb : s.busy = true) (g : Engine) (m : Memory) :
    (statusWord (s.endDecode g m).reportSuccess).toNat = 0x2 := by
  obtain ⟨-, he⟩ := hinv.busy_clears hb
  rw [statusWord_toNat]
  simp [he, hinv.code_clear he]

/-- Settles O20: DECODE answers, the report sets its flags, and neither the frame nor the races reach outside the pixel
range. -/
theorem completeReportsSuccess : Obligations.CompleteReportsSuccess := by
  intro s hb hs
  obtain ⟨g, hg⟩ := depack_ok hs.chunk
  have hd := decode_good hs hg
  refine ⟨_, complete_ok hb hd, congrArg State.reportSuccess (endDecode_eq s _ _),
    fun hinv => statusWord_reportSuccess hinv hb _ _, fun hx a ha => ?_⟩
  have hout : ¬ s.inPixels a = true := fun h => ha ((inPixels_iff_of_goodSize hs.size).1 h)
  exact (endDecode_read_other hx _ _ hout).trans ((decode_mem hd).2 a ha)

/-! ### COMPLETE with an error (R332, R334, R337) -/

theorem statusWord_reportError (s : State) (x : CodecError) :
    (statusWord (s.reportError x)).toNat = 0x6 + 16 * (errorCode x).toNat := by
  rw [statusWord_toNat, reportError_errCode, reportError_err, reportError_done, reportError_busy, Bool.toNat_true,
    Bool.toNat_false]
  omega

/-- Everything COMPLETE does where DECODE raises an error. -/
theorem complete_reports_error {s : State} (hb : s.busy = true) {x : CodecError} (hd : s.decode = .raise x) :
    ∃ t : State, exec .complete s = .next t ∧
      t = { s with
              busy := false, done := true, err := true, errCode := errorCode x, unseen := .failed
              eng := t.eng, mem := t.mem, chunkRaced := false, pixRaced := [] } ∧
      (statusWord t).toNat = 0x6 + 16 * (errorCode x).toNat ∧
      (s.Unraced → t.mem = s.mem) := by
  refine ⟨_, complete_raise hb hd, congrArg (State.reportError · x) (endDecode_eq s _ _), statusWord_reportError _ x,
    fun hu => ?_⟩
  rw [reportError_mem, endDecode_unraced hu]

/-- Settles O21: each check that fails, with those before it passed, is the error DECODE raises. -/
theorem completeReportsError : Obligations.CompleteReportsError := by
  rintro s hb ha code (⟨hshort, rfl⟩ | ⟨h8, hmagic, rfl⟩ | ⟨hchunk, hsize, rfl⟩)
  · exact complete_reports_error hb (decode_raise_of_depack (depack_short ha hshort))
  · exact complete_reports_error hb (decode_raise_of_depack (depack_magic ha h8 hmagic))
  · obtain ⟨g, hg⟩ := depack_ok hchunk
    exact complete_reports_error hb (decode_dimensions hg hsize)

/-! ### A reset while BUSY (R373) -/

theorem wouldFail_iff {s : State} : s.wouldFail = true ↔ s.chunkRaced = false ∧ ∃ e, s.decode = .raise e := by
  unfold State.wouldFail
  cases s.decode <;> simp

/-- A decode that would have failed leaves memory to the reset as it was. -/
theorem abandon_of_wouldFail {s : State} (h : s.wouldFail = true) : s.abandon = s := by
  simp [State.abandon, h]

/-- Every other decode leaves its pixel range free. -/
theorem abandon_of_not_wouldFail {s : State} (hb : s.busy = true) (h : ¬ s.wouldFail = true) :
    s.abandon = s.scribble s.pixelAddrs := by
  simp [State.abandon, hb, h]

/-- A reset changes no byte but those of the pixel range that are memory. -/
theorem abandon_read_other {s : State} (hb : s.busy = true) {a : Nat}
    (ha : ¬ (s.inPixels a = true ∧ admits s.rom a = true)) : s.abandon.mem.read a = s.mem.read a := by
  by_cases hf : s.wouldFail = true
  · rw [abandon_of_wouldFail hf]
  · rw [abandon_of_not_wouldFail hb hf]
    exact scribble_read_other s fun h => ha ⟨inPixels_of_mem_pixelAddrs h, (mem_pixelAddrs.1 h).2⟩

@[simp] theorem resetAll_mem (s : State) : s.resetAll.mem = s.abandon.mem := rfl

/-- Settles O12: the registers are reset, and memory is what abandoning the decode leaves. -/
theorem resetDuringDecode : Obligations.ResetDuringDecode := by
  intro s t d hb hm ht
  obtain rfl := next_inj ht
  refine ⟨resetAll_busy s, resetAll_done s, resetAll_err s, fun a ha => abandon_read_other hb ha,
    fun hfree a hp ha => ?_, fun hr he => ?_⟩
  · have hf : ¬ s.wouldFail = true := by
      rw [wouldFail_iff]
      rintro ⟨hr, e, he⟩
      rcases hfree with hne | hraced
      · exact hne e he
      · simp [hr] at hraced
    rw [resetAll_mem, abandon_of_not_wouldFail hb hf]
    exact scribble_read_free hm (mem_pixelAddrs.2 ⟨inPixels_iff.1 hp, ha⟩) (admits_lt ha)
  · rw [resetAll_mem, abandon_of_wouldFail (wouldFail_iff.2 ⟨hr, he⟩)]

/-! ### How far a block reads (R384, R209, R211) -/

/-- How far a block moves the cursor: the header takes one word and starts at `k = 0`, and every AC word raises `k`. -/
theorem blockRun_bounds (rom : Config.Rom) (rl : RlStream) (d : Nat) (b : Block) :
    (blockRun rom rl d b).1.inside = false ∧ b.c + 2 ≤ (blockRun rom rl d b).1.c ∧
      (rom.kovfResync = .none → (blockRun rom rl d b).1.c ≤ b.c + 65) ∧
      (rom.kovfResync = .skipToEob → (blockRun rom rl d b).1.c ≤ max (b.c + 65) rl.cap + 1) :=
  blockLoop_spec rom rl 64 (d + 1) (b.header rom (rlHigh (rl.read b.c)) (rlLow (rl.read b.c)) d) rfl
    (Nat.zero_lt_succ 63) le_rfl

/-- Settles O44, by the bounds on one block. -/
theorem blockReadsBounded : Obligations.BlockReadsBounded := by
  intro s t ht
  obtain rfl := next_inj ((exec_decodeBlock s).symm.trans ht)
  exact blockRun_bounds s.rom s.eng.rl s.eng.draws s.eng.blk

/-! ### The values after reset (R371) -/

/-- Settles O10: the reset state is written out, and with DONE 0 its interrupt line is low. -/
theorem resetStateValues : Obligations.ResetStateValues :=
  ⟨rfl, rfl, rfl, rfl, rfl, rfl, rfl, rfl, rfl, rfl, rfl, rfl, rfl, rfl, rfl, irq_of_not_done rfl, rfl, rfl⟩

end Sys2Proof.Machine
end
